-- ==== Sys2Proof/Word.lean ====
section
/-! DEFINITION. The bit widths the spec names: the byte (R9), the nibble of a token byte (R101), the
16-bit offset field (R104) and the 4-byte prefix read as one number (R201). Lengths, cursors and
positions are plain naturals: R146 says that a model on unbounded naturals which checks the LENW
bound where R146 and R182 say is exact (log 2). -/

namespace Sys2Proof

/-- Eight bits, 0 to 255 (R9). -/
abbrev Byte := BitVec 8

/-- Half a token byte (R9, R101). -/
abbrev Nibble := BitVec 4

/-- The offset field, unsigned (R104). -/
abbrev Offset := BitVec 16

/-- Four bytes of input as a little-endian number, the argument of the key function (R201). -/
abbrev Word32 := BitVec 32

end Sys2Proof
end

