-- ==== Sys2Proof/Syntax.lean ====
section
/-! DEFINITION. The rows of spec/opcode_table.json: the elements of the token stream and the host's
commands, and the contexts in which a byte is read as one of them (R111, R112). -/

namespace Sys2Proof

/-- Where a byte is read, the table's column `context` (R111, R112). The same byte value is a
different element in a different context. -/
inductive Context where
  /-- Phase TOKEN: a token byte is due. -/
  | token
  /-- Phases LITLEN and MATCHLEN, inside LDEC: an escape byte is due. -/
  | escape
  /-- Phase LITCOPY: a literal byte is due. -/
  | literal
  /-- Phase OFFSET: the two offset bytes are due. -/
  | offset
  /-- A host write to the register CMD. -/
  | command
  deriving DecidableEq, Repr

/-- One constructor per row of the opcode table. -/
inductive Instr where
  /-- `TOK.XX`: L = 15 and M = 15 (R175). -/
  | tokXX
  /-- `TOK.XS`: L = 15, M below 15 in the low nibble (R174). -/
  | tokXS (m : Nibble)
  /-- `TOK.SX`: L below 15 in the high nibble, M = 15 (R173). -/
  | tokSX (l : Nibble)
  /-- `TOK.SS`: both lengths in the nibbles, both below 15 (R172). -/
  | tokSS (l m : Nibble)
  /-- `ESC.CONT`: add 255 and continue (R143). -/
  | escCont
  /-- `ESC.STOP`: add v, 0 to 254, and stop (R144). -/
  | escStop (v : Byte)
  /-- `LIT`: a literal byte, any value (R176). -/
  | lit (b : Byte)
  /-- `OFFSET`: the backward distance (R177). -/
  | offset (o : Offset)
  /-- `CMD.NOP`: the value 00, and every reserved value 04 to FF, which acts the same and has no row
  of its own (R253). The operand is the byte written. -/
  | cmdNop (v : Byte)
  /-- `CMD.START_DECOMPRESS` (R250). -/
  | cmdStartDecompress
  /-- `CMD.START_COMPRESS` (R251). -/
  | cmdStartCompress
  /-- `CMD.CLEAR` (R252). -/
  | cmdClear
  deriving DecidableEq, Repr

/-- The context an element is read in. -/
def Instr.context : Instr → Context
  | .tokXX => .token
  | .tokXS _ => .token
  | .tokSX _ => .token
  | .tokSS _ _ => .token
  | .escCont => .escape
  | .escStop _ => .escape
  | .lit _ => .literal
  | .offset _ => .offset
  | .cmdNop _ => .command
  | .cmdStartDecompress => .command
  | .cmdStartCompress => .command
  | .cmdClear => .command

end Sys2Proof
end

