-- ==== Sys2Proof/WellFormed.lean ====
section
/-! DEFINITION. Which instructions the encoding can write: each row of the table after the rows tested
before it are taken out (R111, R112). -/

namespace Sys2Proof

/-- A nibble that announces no escape bytes (R101). -/
def Nibble.short (n : Nibble) : Bool := n != 15#4

/-- The operand limits of R102, R111 and R112. -/
def Instr.wellFormed : Instr → Bool
  | .tokXX => true
  | .tokXS m => Nibble.short m
  | .tokSX l => Nibble.short l
  | .tokSS l m => Nibble.short l && Nibble.short m
  | .escCont => true
  | .escStop v => v != 255#8
  | .lit _ => true
  | .offset _ => true
  | .cmdNop v => v != 1#8 && v != 2#8 && v != 3#8
  | .cmdStartDecompress => true
  | .cmdStartCompress => true
  | .cmdClear => true

end Sys2Proof
end

