-- ==== Sys2Proof/Decode.lean ====
section
/-! DEFINITION. From bytes to instructions and back (R101 to R104, R111, R112). Decoding is total: it
gives an instruction and the bytes after it, or a rejection by name. No byte value is illegal in any
context (R109, R253): the only thing that can be wrong is that bytes are missing. -/

namespace Sys2Proof

/-- `b[7:4]`, the high nibble of a byte (R9). -/
def hiNibble (b : Byte) : Nibble := b.extractLsb' 4 4

/-- `b[3:0]`, the low nibble of a byte (R9). -/
def loNibble (b : Byte) : Nibble := b.extractLsb' 0 4

/-- The byte with high nibble `h` and low nibble `l` (R101). -/
def joinNibbles (h l : Nibble) : Byte := h ++ l

/-- The offset whose first stream byte is `lo` and whose second is `hi`: `lo + 256*hi` (R74, R104). -/
def joinOffset (lo hi : Byte) : Offset := hi ++ lo

/-- `off[7:0]`, the first stream byte of an offset (R104). -/
def offsetLo (o : Offset) : Byte := o.extractLsb' 0 8

/-- `off[15:8]`, the second stream byte of an offset (R104). -/
def offsetHi (o : Offset) : Byte := o.extractLsb' 8 8

/-- Why bytes are no instruction. -/
inductive Reject where
  /-- No byte is there. -/
  | noByte
  /-- One byte is there where the two of an offset are due. -/
  | halfOffset
  deriving DecidableEq, Repr

/-- The answer of the decoder. -/
inductive Decoded where
  | ok (i : Instr) (rest : List Byte)
  | rejected (r : Reject)
  deriving DecidableEq, Repr

/-- The four token rows, tested in the table's order, mask and match as R111 prints them. -/
def decodeToken (b : Byte) : Instr :=
  if b &&& 0xFF#8 = 0xFF#8 then .tokXX
  else if b &&& 0xF0#8 = 0xF0#8 then .tokXS (loNibble b)
  else if b &&& 0x0F#8 = 0x0F#8 then .tokSX (hiNibble b)
  else .tokSS (hiNibble b) (loNibble b)

/-- The two escape rows in the table's order (R102, R111). -/
def decodeEscape (b : Byte) : Instr :=
  if b &&& 0xFF#8 = 0xFF#8 then .escCont else .escStop b

/-- The four command rows; every other value is reserved and acts as `CMD.NOP` (R112, R253). -/
def decodeCommand (b : Byte) : Instr :=
  if b = 0x01#8 then .cmdStartDecompress
  else if b = 0x02#8 then .cmdStartCompress
  else if b = 0x03#8 then .cmdClear
  else .cmdNop b

/-- The instruction at the front of the bytes, read in a context (R111, R112). -/
def decode : Context → List Byte → Decoded
  | .token, b :: rest => .ok (decodeToken b) rest
  | .escape, b :: rest => .ok (decodeEscape b) rest
  | .literal, b :: rest => .ok (.lit b) rest
  | .command, b :: rest => .ok (decodeCommand b) rest
  | .offset, lo :: hi :: rest => .ok (.offset (joinOffset lo hi)) rest
  | .offset, [_] => .rejected .halfOffset
  | _, [] => .rejected .noByte

/-- The bytes of an instruction, in stream order (R101 to R104, R112). -/
def encode : Instr → List Byte
  | .tokXX => [0xFF#8]
  | .tokXS m => [joinNibbles 15#4 m]
  | .tokSX l => [joinNibbles l 15#4]
  | .tokSS l m => [joinNibbles l m]
  | .escCont => [0xFF#8]
  | .escStop v => [v]
  | .lit b => [b]
  | .offset o => [offsetLo o, offsetHi o]
  | .cmdNop v => [v]
  | .cmdStartDecompress => [0x01#8]
  | .cmdStartCompress => [0x02#8]
  | .cmdClear => [0x03#8]

/-! ### One word of the opcode table, without a context

The table's rows overlap where their contexts differ: 00 is TOK.SS, ESC.STOP, LIT and CMD.NOP. A word
alone does not say which, so the two functions below fix a context for it (log 5): 16 bits are an
offset; a byte that equals a CMD row is a write to CMD, which is what the machine waits for after
reset (R302); every other byte is a token byte, the first element of a block. -/

/-- The context in which a word of the opcode table is read (log 5). -/
def tableContext (nbits w : Nat) : Context :=
  if 8 < nbits then .offset
  else if w % 256 < 4 then .command
  else .token

/-- A word of the opcode table as stream bytes, the first at the lowest address. -/
def tableBytes (nbits w : Nat) : List Byte :=
  if 8 < nbits then [BitVec.ofNat 8 w, BitVec.ofNat 8 (w / 256)] else [BitVec.ofNat 8 w]

/-- The instruction the decoder reads from a word of the opcode table. -/
def decodeTableWord (nbits w : Nat) : Option Instr :=
  match decode (tableContext nbits w) (tableBytes nbits w) with
  | .ok i _ => some i
  | .rejected _ => none

end Sys2Proof
end

