-- ==== Sys2Proof/Config.lean ====
section
/-! DEFINITION. What an implementation fixes (R6, and D25 of 92_eei_decisions.md), and the free
values: constants without a body, of which no proof can see a value. -/

namespace Sys2Proof

/-- How an implementation chooses the encoder's key function `H` (R6, R201), as plain data.
`keyBits` is the identity on the 32-bit key, reduced to the slot count; `custom n` is any other
function: the constant `Config.customKey n`, which has no body (log 17). -/
inductive KeyFn where
  | keyBits
  | custom (n : Nat)
  deriving DecidableEq, Repr

/-- The parameters of R6, and the platform's address map of R81 and D25. No step of the machine
changes them (log 1). -/
structure Config where
  /-- `LENW`: the bit width of every length, cursor and position register. -/
  lenw : Nat
  /-- `IN_CAP`: bytes of the IN memory. -/
  inCap : Nat
  /-- `OUT_CAP`: bytes of the OUT memory. -/
  outCap : Nat
  /-- `H`, the key function of the encoder's index. -/
  keyFn : KeyFn
  /-- `IDX_SLOTS`: slots of the encoder's index. -/
  idxSlots : Nat
  /-- `INDEX_MATCH_START`: is the position where a match starts written to the index. -/
  indexMatchStart : Bool
  /-- `INDEX_MID_MATCH`: are the positions inside a match written to the index. -/
  indexMidMatch : Bool
  /-- `END_MARGIN`: final input bytes that may never be part of a match. -/
  endMargin : Nat
  /-- `REG_BASE`, the platform's address of register 0 (D25; log 15). -/
  regBase : Nat
  /-- `IN_BASE`, the platform's address of `IN[0]` (D25; log 15). -/
  inBase : Nat
  /-- `OUT_BASE`, the platform's address of `OUT[0]` (D25; log 15). -/
  outBase : Nat
  deriving DecidableEq, Repr

/-- The reference configuration: the third column of R6's table. The three bases are the model's own
choice (D25 leaves them OPEN; log 15), far enough apart that the spaces do not meet. -/
def Config.reference : Config where
  lenw := 64
  inCap := 2 ^ 64 - 1
  outCap := 2 ^ 64 - 1
  keyFn := .keyBits
  idxSlots := 2 ^ 32
  indexMatchStart := true
  indexMidMatch := false
  endMargin := 0
  regBase := 0
  inBase := 2 ^ 64
  outBase := 2 ^ 65

/-- `2^LENW - 1`, the largest value a length register holds (R9). -/
def Config.maxLen (c : Config) : Nat := 2 ^ c.lenw - 1

/-- The ranges R6 gives the parameters. -/
def Config.Ok (c : Config) : Prop :=
  1 ≤ c.lenw ∧ c.inCap ≤ c.maxLen ∧ c.outCap ≤ c.maxLen ∧ 1 ≤ c.idxSlots

/-- Any key function other than the identity (R6, U8): no body, so a statement that holds of
`KeyFn.custom n` holds whatever function it is (log 17). -/
opaque Config.customKey : Nat → Word32 → Nat

/-- What a byte of IN that nothing has written since reset number `epoch` holds (R47, U5: any
value): no body (log 6). -/
opaque Config.powerOnIn : (epoch address : Nat) → Byte

/-- What a byte of OUT that nothing has written since reset number `epoch` holds (R47, U5): no body
(log 6). -/
opaque Config.powerOnOut : (epoch address : Nat) → Byte

/-- What the host's `n`-th read of an unspecified value returns (U2, U3, U5: any value), before it is
cut to the width of what is read: no body (log 7). -/
opaque Config.freeRead : Nat → Nat

end Sys2Proof
end

