-- ==== Sys2Proof/Machine/State.lean ====
section
/-! DEFINITION. The engine's state as plain data (10_state.md): host registers, memories, working
registers, and beside them the model's own fields, each said so where it stands. -/

namespace Sys2Proof.Machine

/-- `STATUS.STATE` (R33). -/
inductive Status where
  /-- 0: no operation has run since reset or CLEAR. -/
  | idle
  /-- 1: an operation is running. -/
  | busy
  /-- 2: the last operation ended normally. -/
  | done
  /-- 3: the last operation failed. -/
  | error
  deriving DecidableEq, Repr

/-- `CAUSE.CODE` (R34, R271). -/
inductive Cause where
  | none
  | truncField
  | truncEscape
  | badOffset
  | truncLiteral
  | limit
  | overflow
  deriving DecidableEq, Repr

/-- The decoder's `phase` (R40, R168). -/
inductive Phase where
  | token
  | litLen
  | litCopy
  | endCheck
  | offset
  | matchLen
  | matchCopy
  deriving DecidableEq, Repr

/-- Where the loop of LDEC stands (R141). The model's own field: it lets an escape byte be one step
(log 9, log 10). -/
inductive LdecLoop where
  /-- LDEC has not been entered in this phase. -/
  | start
  /-- An escape byte is due. -/
  | more
  /-- The length stands in `acc`. -/
  | finished
  deriving DecidableEq, Repr

/-- Which step of the encoder's loop is next, by the names of R202 to R211. The model's own field
(log 10). -/
inductive EncStep where
  | scan
  | lookup
  | verify
  | update
  | extend
  | emitSeq
  | midIndex
  | advanceMatch
  | advanceLiteral
  | flush
  deriving DecidableEq, Repr

/-- The unit that carries the running operation (R2). The model's own field (log 10). -/
inductive OpUnit where
  | dec
  | enc
  deriving DecidableEq, Repr

/-- What a host access names (R70): a register by its number, a byte of IN, a byte of OUT. -/
inductive Target where
  | reg (n : Nat)
  | inp (a : Nat)
  | out (a : Nat)
  deriving DecidableEq, Repr

/-- One move of the party outside the engine: the host (R254 to R257, R304), or the platform's reset
(R300). Log 3 says how moves and engine steps take turns. -/
inductive HostMove where
  /-- Write a value to a register or a byte of IN. -/
  | write (t : Target) (v : Nat)
  /-- Read a register or a byte of IN or OUT. -/
  | read (t : Target)
  /-- Write through the platform's address map (R81, D25). -/
  | busWrite (addr v : Nat)
  /-- Read through the platform's address map (R81, D25). -/
  | busRead (addr : Nat)
  /-- Let the engine make one step. -/
  | run
  /-- Poll STATUS until it is not BUSY (R304, steps 1 and 5). -/
  | await
  /-- The platform applies reset (R300, R301). -/
  | reset
  deriving DecidableEq, Repr

/-- The host registers (R31). CMD holds no value (R32), so it is no field. -/
structure HostRegs where
  /-- STATUS.STATE (R33). -/
  status : Status
  /-- CAUSE.CODE (R34). -/
  cause : Cause
  /-- IN_LEN (R35). -/
  inLen : Nat
  /-- OUT_LEN (R36). -/
  outLen : Nat
  /-- OUT_LIMIT (R37). -/
  outLimit : Nat
  /-- CTRL.LIMIT_EN (R38). -/
  limitEn : Bool
  deriving DecidableEq, Repr

/-- The decoder's working registers (R40), less `olen`, which the encoder shares (R43). -/
structure DecRegs where
  /-- The input cursor, the program counter (R41). -/
  ip : Nat
  /-- The token byte of the current sequence. -/
  tok : Byte
  /-- `L`, the literal-length nibble. -/
  l : Nibble
  /-- `M`, the match-length nibble. -/
  m : Nibble
  /-- `lit_len`. -/
  litLen : Nat
  /-- `off`. -/
  off : Offset
  /-- `mat_len`, MINMATCH added. -/
  matLen : Nat
  /-- Which step of the sequence is next. -/
  phase : Phase
  /-- Bytes of the current literal or match copy still to do. The model's own field (log 10). -/
  left : Nat
  deriving DecidableEq, Repr

/-- The length codec's working registers (R42). -/
structure CodecRegs where
  /-- The accumulator. -/
  acc : Nat
  /-- The last escape byte read. -/
  b : Byte
  /-- Where LDEC stands. The model's own field (log 10). -/
  loop : LdecLoop
  deriving DecidableEq, Repr

/-- The encoder's working registers (R43), less `olen`. -/
structure EncRegs where
  /-- The scan cursor. -/
  cur : Nat
  /-- Where the current literal run begins. -/
  anchor : Nat
  /-- The candidate, or NONE. -/
  cand : Option Nat
  /-- The index slot of the prefix at `cur`. -/
  key : Nat
  /-- The length of the match being extended. -/
  mlen : Nat
  /-- No match may reach this position. -/
  mlimit : Nat
  /-- The answer of VERIFY (R205). The model's own field (log 10). -/
  hit : Bool
  /-- Which step of R202's loop is next. The model's own field (log 10). -/
  step : EncStep
  deriving DecidableEq, Repr

/-- The party outside, as data. The model's own fields (log 3). -/
structure HostPort where
  /-- The moves still to come, the next first. -/
  script : List HostMove
  /-- What the last read returned. -/
  rdata : Nat
  deriving DecidableEq, Repr

/-- The counters that the free values of `Config` are applied to. The model's own fields (log 6,
log 7); no statement rests on their values. -/
structure FreeCounters where
  /-- Resets so far. -/
  epoch : Nat
  /-- Host reads of unspecified values so far. -/
  reads : Nat
  deriving DecidableEq, Repr

/-- Bytes by address, addresses strictly rising; an address that is not listed has not been written
since reset, and what it reads as is `State.inByte` and `State.outByte` (log 6). -/
abbrev Memory := List Host.Cell

/-- Positions by slot, slots strictly rising; a slot that is not listed is NONE (R73). -/
abbrev Index := List (Nat × Nat)

/-- The whole machine. -/
structure State where
  /-- The parameters of R6; no step changes them (log 1). -/
  cfg : Config
  /-- The host registers. -/
  regs : HostRegs
  /-- The IN memory (R71). -/
  inp : Memory
  /-- The OUT memory (R72). -/
  out : Memory
  /-- The IDX memory (R73). -/
  idx : Index
  /-- The decoder's working registers. -/
  dec : DecRegs
  /-- The length codec's working registers. -/
  lc : CodecRegs
  /-- The encoder's working registers. -/
  enc : EncRegs
  /-- `olen`, shared by decoder and encoder (R40, R43). -/
  olen : Nat
  /-- The unit of the running operation. -/
  unit : OpUnit
  /-- The host and its remaining moves. -/
  host : HostPort
  /-- The counters of the free values. -/
  free : FreeCounters
  deriving DecidableEq, Repr

/-- Why the machine stops with a fault. DecodeError is none of these: it is a next state (R280).
Every one is safe: the model stops, and R77 says that the engine never gets there. -/
inductive Fault where
  /-- Raised by every engine step while BUSY with IN_LEN above IN_CAP: input addresses that do not
  exist (R70). START refuses such an IN_LEN (R250, R251). Safe. -/
  | inputBeyondMemory
  /-- Raised by the encoder's steps: a read of IN up to an address above IN_LEN (R71, R77 a). Safe. -/
  | inPastEnd (upto : Nat)
  /-- Raised by MATCHCOPY: a read of OUT outside the bytes produced (R72, R77 b). Safe. -/
  | outPastEnd
  /-- Raised by every write of OUT: at an address at or above OUT_CAP (R72, R77 c). Safe. -/
  | outFull (a : Nat)
  /-- Raised by the encoder's steps that use the candidate when there is none, or it is not below
  `cur` (R201's invariant). Safe. -/
  | badCandidate
  /-- Raised by a host access to a byte of IN or OUT at or above its capacity: the address does not
  exist (R70). Safe. -/
  | noSuchAddress (t : Target)
  deriving DecidableEq, Repr

/-- Why the machine gives a move no meaning. -/
inductive Refusal where
  /-- Raised by exec's arms of instructions without a meaning. Safe. -/
  | notModelled (mnemonic : String)
  /-- Raised by a host write to IN, IN_LEN, OUT_LIMIT or CTRL while BUSY (R306, U4: refuse). Safe: the
  model stops where the hardware has an unspecified result. -/
  | hostWriteWhileBusy (t : Target)
  /-- Raised by a host write to OUT, which only the engine writes (R70). Safe. -/
  | hostWriteToOut (a : Nat)
  /-- Raised by a host access to a register number above 6 (R257, U7: refuse). Safe. -/
  | noSuchRegister (n : Nat)
  /-- Raised by every engine step while BUSY under a map that lets `IN[0 .. in_len-1]` and OUT overlap,
  and by a bus access to an address they share (R81, R309, U12: "an overlap of IN and OUT is refuse").
  Safe: the model stops where the spec forbids the map and says of the run only what "could" happen. -/
  | overlappingMap
  /-- Raised by a bus access to an address where the platform's map has nothing (R81). Safe. -/
  | unmappedAddress (addr : Nat)
  deriving DecidableEq, Repr

/-- What one step, or one meaning, answers. -/
abbrev Result := Host.Outcome State Fault Refusal

/-- What the machine does next: run an instruction in a state, or make a move that no instruction
stands for. -/
inductive Move where
  | instr (i : Instr) (s : State)
  | internal (r : Result)

/-- The machine after reset (R47, R300), in the reference configuration. The host registers are the
spec's values; the working registers are unspecified there and 0 here (log 8); the memories are
unspecified there and not written here (log 6). -/
def State.reset : State where
  cfg := .reference
  regs := { status := .idle, cause := .none, inLen := 0, outLen := 0, outLimit := 0, limitEn := false }
  inp := []
  out := []
  idx := []
  dec :=
    { ip := 0, tok := 0#8, l := 0#4, m := 0#4, litLen := 0, off := 0#16, matLen := 0, phase := .token,
      left := 0 }
  lc := { acc := 0, b := 0#8, loop := .start }
  enc :=
    { cur := 0, anchor := 0, cand := none, key := 0, mlen := 0, mlimit := 0, hit := false,
      step := .scan }
  olen := 0
  unit := .dec
  host := { script := [], rdata := 0 }
  free := { epoch := 0, reads := 0 }

end Sys2Proof.Machine
end

