-- ==== Sys2Proof/Machine/Ops.lean ====
section
/-! DEFINITION. The operations every meaning is built from: memories in their canonical form, reads of
IN and OUT, the append to OUT, the end of an operation and error entry (R10, R280). -/

namespace Sys2Proof.Machine

/-! ### Cells: a memory or an index as a list in rising order -/

/-- What the list holds at `x`, if anything. -/
def cellsRead {α : Type} : List (Nat × α) → Nat → Option α
  | [], _ => none
  | (a, v) :: m, x => if a = x then some v else cellsRead m x

/-- The list with `w` at `x`: the entry is replaced, or put where it keeps the order. -/
def cellsWrite {α : Type} : List (Nat × α) → Nat → α → List (Nat × α)
  | [], x, w => [(x, w)]
  | (a, v) :: m, x, w =>
    if x < a then (x, w) :: (a, v) :: m
    else if x = a then (x, w) :: m
    else (a, v) :: cellsWrite m x w

/-- The canonical form: addresses strictly rising. -/
def cellsWf {α : Type} : List (Nat × α) → Bool
  | [] => true
  | [_] => true
  | (a, _) :: (b, v) :: m => decide (a < b) && cellsWf ((b, v) :: m)

/-- The canonical form of IN and OUT. An address that is not listed holds no written value, and a
listed one always does, so no entry repeats what an unlisted address reads as. -/
def Memory.wf (m : Memory) : Bool := cellsWf m

/-- The canonical form of IDX: a listed slot holds a position, one that is not listed is NONE. -/
def Index.wf (x : Index) : Bool := cellsWf x

/-! ### Reading IN and OUT -/

/-- `IN[a]`: the byte written there, or what power-on left there (R47, U5; log 6). -/
def State.inByte (s : State) (a : Nat) : Byte :=
  (cellsRead s.inp a).getD (Config.powerOnIn s.free.epoch a)

/-- `OUT[a]`: the byte written there, or what power-on left there (R47, U5; log 6). -/
def State.outByte (s : State) (a : Nat) : Byte :=
  (cellsRead s.out a).getD (Config.powerOnOut s.free.epoch a)

/-- `MemRead(IN, a, n)` (R10): the bytes `IN[a .. a+n-1]`. -/
def State.inBytes (s : State) (a n : Nat) : List Byte :=
  (List.range n).map fun k => s.inByte (a + k)

/-- The bytes `OUT[a .. a+n-1]`. -/
def State.outBytes (s : State) (a n : Nat) : List Byte :=
  (List.range n).map fun k => s.outByte (a + k)

/-! ### Results -/

/-- Go on with the next state; a fault or a refusal stays what it is. -/
def andThen (r : Result) (f : State → Result) : Result :=
  match r with
  | .next s => f s
  | .fault x => .fault x
  | .refused x => .refused x

/-- Go on only if IN may be read up to (not including) address `upto`: the engine never reads IN at
or above IN_LEN (R10, R71, R77 a). -/
def needIn (upto : Nat) (s : State) (r : Result) : Result :=
  if upto ≤ s.regs.inLen then r else .fault (.inPastEnd upto)

/-- Go on with the candidate; R201's invariant says it is a position below `cur`. -/
def withCand (s : State) (f : Nat → Result) : Result :=
  match s.enc.cand with
  | some c => if c < s.enc.cur then f c else .fault .badCandidate
  | none => .fault .badCandidate

/-! ### Writing OUT -/

/-- `OUT[olen] <- x; olen <- olen + 1`, the only write of OUT there is (R10, R72). -/
def putCell (x : Byte) (s : State) : State :=
  { s with out := cellsWrite s.out s.olen x, olen := s.olen + 1 }

/-- `put(x)` of R212, within OUT_CAP (R72, R77 c). -/
def put (x : Byte) (s : State) : Result :=
  if s.olen < s.cfg.outCap then .next (putCell x s) else .fault (.outFull s.olen)

/-- `put` of each byte in order. -/
def putAll : List Byte → State → Result
  | [], s => .next s
  | x :: xs, s => andThen (put x s) (putAll xs)

/-! ### The end of an operation -/

/-- `raise DecodeError(c)`, error entry: CAUSE gets the code, OUT_LEN 0, STATUS ERROR; nothing else
changes, nothing is saved, control goes nowhere (R10, R280). -/
def raise (c : Cause) (s : State) : State :=
  { s with regs := { s.regs with cause := c, outLen := 0, status := .error } }

/-- `stop DONE` (R10, R169, R214). -/
def stopDone (s : State) : State :=
  { s with regs := { s.regs with status := .done, outLen := s.olen } }

/-! ### Small updates -/

/-- The decoder's phase becomes `p`. -/
def setPhase (p : Phase) (s : State) : State := { s with dec := { s.dec with phase := p } }

/-- The encoder's next step becomes `e`. -/
def setStep (e : EncStep) (s : State) : State := { s with enc := { s.enc with step := e } }

/-- The host's moves become `ms`. -/
def setScript (ms : List HostMove) (s : State) : State :=
  { s with host := { s.host with script := ms } }

end Sys2Proof.Machine
end

