-- ==== Sys2Proof/Machine/Flags.lean ====
section
/-! DEFINITION. The engine has no condition codes (R45). What it tests are comparisons computed on the
spot, and what it stores are STATUS and CAUSE: their codes, and the conditions, stand here. -/

namespace Sys2Proof.Machine

/-- The value of STATUS.STATE (R33). -/
def Status.code : Status → Nat
  | .idle => 0
  | .busy => 1
  | .done => 2
  | .error => 3

/-- The value of CAUSE.CODE (R34, R271). -/
def Cause.code : Cause → Nat
  | .none => 0
  | .truncField => 1
  | .truncEscape => 2
  | .badOffset => 3
  | .truncLiteral => 4
  | .limit => 5
  | .overflow => 6

/-- `lim` of R171: the ceiling on the output of a DECOMPRESS. -/
def State.lim (s : State) : Nat :=
  if s.regs.limitEn then min s.cfg.outCap s.regs.outLimit else s.cfg.outCap

/-- The sum would pass `2^LENW - 1` (R146, R277). -/
def overflows (s : State) (n : Nat) : Bool := decide (s.cfg.maxLen < n)

/-- How many bytes of IN hold the input: none lies beyond the memory (R35, R70). -/
def State.inputBytes (s : State) : Nat := min s.regs.inLen s.cfg.inCap

/-- The platform's map gives some byte of the input an address of OUT, which R81 forbids (R309). A
space with no byte overlaps nothing. -/
def mapOverlaps (s : State) : Bool :=
  decide (max s.cfg.inBase s.cfg.outBase <
    min (s.cfg.inBase + s.inputBytes) (s.cfg.outBase + s.cfg.outCap))

/-- The literals still due are more than the input has left (R163, R275). -/
def literalOverrun (s : State) : Bool := decide (s.regs.inLen - s.dec.ip < s.dec.left)

/-- The bytes still due are more than `lim` leaves room for (R163, R167, R171). -/
def overLimit (s : State) : Bool := decide (s.lim - s.olen < s.dec.left)

/-- `B(n)`, the size bound of a compressed block (R217, R251). -/
def sizeBound (n : Nat) : Nat := n + n / 255 + 2

end Sys2Proof.Machine
end

