-- ==== Sys2Proof/Machine/Operands.lean ====
section
/-! DEFINITION. The operand forms: the stream bytes the decoder is about to read, the encoder's
prefix and key, and the length codec (40_length_codec.md) with the layouts built on it. -/

namespace Sys2Proof.Machine

/-! ### What the decoder reads -/

/-- The next input bytes at `ip`, at most the two of the longest field (R71, R104): none is at or
above IN_LEN. -/
def window (s : State) : List Byte := s.inBytes s.dec.ip (min 2 (s.regs.inLen - s.dec.ip))

/-- The cause of the error when the bytes due in a context are missing (R272, R273, R275). -/
def missing : Context → Cause
  | .token => .truncField
  | .escape => .truncEscape
  | .literal => .truncLiteral
  | .offset => .truncField
  | .command => .none

/-- Read the element due in a context at `ip`: an instruction, or the error that its bytes are not
there. -/
def readElement (c : Context) (s : State) : Move :=
  match decode c (window s) with
  | .ok i _ => .instr i s
  | .rejected _ => .internal (.next (raise (missing c) s))

/-! ### What the encoder reads -/

/-- The four bytes at `p` as a little-endian number, `p0 + 256*p1 + 65536*p2 + 16777216*p3` (R201);
`byte` reads the input. -/
def prefix32 (byte : Nat → Byte) (p : Nat) : Word32 :=
  byte (p + 3) ++ byte (p + 2) ++ byte (p + 1) ++ byte p

/-- `H`: the index slot of a prefix, always below IDX_SLOTS (R6, R201; log 17). -/
def keyOf (c : Config) (k : Word32) : Nat :=
  match c.keyFn with
  | .keyBits => k.toNat % c.idxSlots
  | .custom n => Config.customKey n k % c.idxSlots

/-- The index after the position `p` of an input of `len` bytes is written, if a whole prefix lies
there (R208). -/
def indexAt (c : Config) (byte : Nat → Byte) (len : Nat) (x : Index) (p : Nat) : Index :=
  if p + 4 ≤ len then cellsWrite x (keyOf c (prefix32 byte p)) p else x

/-- The index after the positions `p, p+1, ..., p+n-1` are written in that order (R208). -/
def indexRun (c : Config) (byte : Nat → Byte) (len : Nat) : Nat → Nat → Index → Index
  | 0, _, x => x
  | n + 1, p, x => indexRun c byte len n (p + 1) (indexAt c byte len x p)

/-! ### LENC (R140) -/

/-- The nibble of a length: `min(n, 15)` (R101, R140). -/
def lencNibble (n : Nat) : Nibble := if n < 15 then BitVec.ofNat 4 n else 15#4

/-- The loop of LENC: 255 while the remainder is at least 255, then the remainder. The first argument
is fuel, at least the remainder. -/
def lencLoop : Nat → Nat → List Byte
  | 0, acc => [BitVec.ofNat 8 acc]
  | fuel + 1, acc =>
    if 255 ≤ acc then 255#8 :: lencLoop fuel (acc - 255) else [BitVec.ofNat 8 acc]

/-- The escape bytes of a length (R140). -/
def lencEscapes (n : Nat) : List Byte := if n < 15 then [] else lencLoop n (n - 15)

/-- What LENC leaves in `acc`: the last remainder, if the loop ran (R42, R140). -/
def lencAcc (n acc : Nat) : Nat := if n < 15 then acc else (n - 15) % 255

/-- `e(n)`, the number of escape bytes (R145). -/
def escapeCount (n : Nat) : Nat := if n < 15 then 0 else (n - 15) / 255 + 1

/-! ### LDEC as a function of the bytes (R141) -/

/-- The loop of LDEC from the accumulator `acc`: the length and the bytes after the last one read.
The tests stand in R141's order: no byte, then the sum too large. -/
def ldecLoop (maxLen : Nat) : List Byte → Nat → Except Cause (Nat × List Byte)
  | [], _ => .error .truncEscape
  | x :: rest, acc =>
    if maxLen < acc + x.toNat then .error .overflow
    else if x = 255#8 then ldecLoop maxLen rest (acc + x.toNat)
    else .ok (acc + x.toNat, rest)

/-- `LDEC(nib)` on the bytes at `ip` (R141), the nibble itself not tested (LENW below 4: log 23). -/
def ldec (maxLen : Nat) (nib : Nibble) (bytes : List Byte) : Except Cause (Nat × List Byte) :=
  if nib = 15#4 then ldecLoop maxLen bytes nib.toNat else .ok (nib.toNat, bytes)

/-! ### The layout of a sequence (R105, R212, R213) -/

/-- The bytes of a sequence with a match: token, literal escapes, literals, offset, match escapes
(R212). -/
def seqBytes (lits : List Byte) (off : Offset) (matLen : Nat) : List Byte :=
  joinNibbles (lencNibble lits.length) (lencNibble (matLen - 4)) ::
    (lencEscapes lits.length ++ lits ++ [offsetLo off, offsetHi off] ++ lencEscapes (matLen - 4))

/-- The bytes of the last sequence: low nibble 0, no offset, no match (R213). -/
def lastBytes (lits : List Byte) : List Byte :=
  joinNibbles (lencNibble lits.length) 0#4 :: (lencEscapes lits.length ++ lits)

end Sys2Proof.Machine
end

