-- ==== Sys2Proof/Machine/Command.lean ====
section
/-! DEFINITION. The four host commands (R250 to R254). Every one is ignored while BUSY (R254). -/

namespace Sys2Proof.Machine

/-- A command that is ignored while BUSY and does `f` otherwise (R254). -/
def unlessBusy (f : State → State) (s : State) : State :=
  if s.regs.status = .busy then s else f s

/-- The start-time error: STATUS ERROR, CAUSE LIMIT, OUT_LEN 0 (R250, R251, R276 b). -/
def refuseStart (s : State) : State :=
  { s with regs := { s.regs with cause := .limit, outLen := 0, status := .error } }

/-- Start the decoder: `ip <- 0`, `olen <- 0`, `phase <- TOKEN` (R160, R250). -/
def startDecoder (s : State) : State :=
  { s with
    regs := { s.regs with cause := .none, outLen := 0, status := .busy }
    unit := .dec
    olen := 0
    dec := { s.dec with ip := 0, phase := .token } }

/-- Start the encoder: `cur`, `anchor`, `olen` 0, `mlimit` set, every IDX slot NONE (R200, R251). The
subtraction gives 0 where R200 says 0. -/
def startEncoder (s : State) : State :=
  { s with
    regs := { s.regs with cause := .none, outLen := 0, status := .busy }
    unit := .enc
    olen := 0
    idx := []
    enc :=
      { s.enc with
        cur := 0, anchor := 0, mlimit := s.regs.inLen - s.cfg.endMargin, step := .scan } }

/-- `CMD.NOP` and the reserved values: nothing changes in any state (R253). -/
def execCmdNop (_v : Byte) (s : State) : Result := .next s

/-- `CMD.START_DECOMPRESS` (R250). -/
def execCmdStartDecompress (s : State) : Result :=
  .next (unlessBusy (fun s => if s.cfg.inCap < s.regs.inLen then refuseStart s else startDecoder s) s)

/-- `CMD.START_COMPRESS` (R251). -/
def execCmdStartCompress (s : State) : Result :=
  .next (unlessBusy (fun s =>
    if s.cfg.inCap < s.regs.inLen ∨ s.cfg.outCap < sizeBound s.regs.inLen then refuseStart s
    else startEncoder s) s)

/-- `CMD.CLEAR`: STATUS IDLE, CAUSE 0, OUT_LEN 0 (R252). -/
def execCmdClear (s : State) : Result :=
  .next (unlessBusy (fun s =>
    { s with regs := { s.regs with status := .idle, cause := .none, outLen := 0 } }) s)

end Sys2Proof.Machine
end

