-- ==== Sys2Proof/Machine/Escape.lean ====
section
/-! DEFINITION. The two escape forms: one turn of LDEC's loop (R141, R143, R144). -/

namespace Sys2Proof.Machine

/-- One turn of the loop with byte `x`: `b <- x`, `ip <- ip + 1`, then OVERFLOW if the sum would pass
`2^LENW - 1`, else `acc <- acc + x` and the loop stands at `next` (R141, R146). -/
def escapeByte (x : Byte) (next : LdecLoop) (s : State) : State :=
  if overflows s (s.lc.acc + x.toNat) then
    raise .overflow
      { s with dec := { s.dec with ip := s.dec.ip + 1 }, lc := { s.lc with b := x } }
  else
    { s with
      dec := { s.dec with ip := s.dec.ip + 1 }
      lc := { acc := s.lc.acc + x.toNat, b := x, loop := next } }

/-- `ESC.CONT`: add 255; another escape byte is due (R143). -/
def execEscCont (s : State) : Result := .next (escapeByte 255#8 .more s)

/-- `ESC.STOP`: add `v`; the length is complete (R144). -/
def execEscStop (v : Byte) (s : State) : Result := .next (escapeByte v .finished s)

end Sys2Proof.Machine
end

