-- ==== Sys2Proof/Machine/Stream.lean ====
section
/-! DEFINITION. The literal byte and the offset (R176, R177). -/

namespace Sys2Proof.Machine

/-- `LIT`: `OUT[olen] <- b`, `olen <- olen + 1`, `ip <- ip + 1`; one literal fewer is due (R176). The
two checks of R163 are the phase's, made before the first byte. -/
def execLit (b : Byte) (s : State) : Result :=
  andThen (put b s) fun t =>
    .next { t with dec := { t.dec with ip := t.dec.ip + 1, left := t.dec.left - 1 } }

/-- `off` latched, `ip` past the two bytes: what phase OFFSET does before its tests (R165). -/
def latchOffset (o : Offset) (s : State) : State :=
  { s with dec := { s.dec with ip := s.dec.ip + 2, off := o } }

/-- `OFFSET`: latch, then BAD_OFFSET if it is 0 or above `olen`, else MATCHLEN with its LDEC not yet
entered (R165, R177). -/
def execOffset (o : Offset) (s : State) : Result :=
  if o = 0#16 then .next (raise .badOffset (latchOffset o s))
  else if s.olen < o.toNat then .next (raise .badOffset (latchOffset o s))
  else
    .next (setPhase .matchLen { latchOffset o s with lc := { s.lc with loop := .start } })

end Sys2Proof.Machine
end

