-- ==== Sys2Proof/Machine/Token.lean ====
section
/-! DEFINITION. The four token forms (R161, R172 to R175). A token byte is read in phase TOKEN; the
rest of its sequence is the phases after it (R168), each a step of its own (log 9). -/

namespace Sys2Proof.Machine

/-- Phase TOKEN once the byte is there: `tok`, `L` and `M` are latched, `ip` moves past the byte,
LITLEN is next and its LDEC not yet entered (R161). -/
def latchToken (l m : Nibble) (s : State) : State :=
  { s with
    dec := { s.dec with ip := s.dec.ip + 1, tok := joinNibbles l m, l := l, m := m, phase := .litLen }
    lc := { s.lc with loop := .start } }

/-- `TOK.XX` (R175): both lengths escaped. -/
def execTokXX (s : State) : Result := .next (latchToken 15#4 15#4 s)

/-- `TOK.XS` (R174): the literal length escaped, the match length in the nibble. -/
def execTokXS (m : Nibble) (s : State) : Result := .next (latchToken 15#4 m s)

/-- `TOK.SX` (R173): the literal length in the nibble, the match length escaped. -/
def execTokSX (l : Nibble) (s : State) : Result := .next (latchToken l 15#4 s)

/-- `TOK.SS` (R172): both lengths in the nibbles. -/
def execTokSS (l m : Nibble) (s : State) : Result := .next (latchToken l m s)

end Sys2Proof.Machine
end

