-- ==== Sys2Proof/Machine/Dispatch.lean ====
section
/-! DEFINITION. One arm per row of the opcode table. -/

namespace Sys2Proof.Machine

def exec (i : Instr) (s : State) : Host.Outcome State Fault Refusal :=
  match i with
  | .tokXX => Sys2Proof.Machine.execTokXX s
  | .tokXS m => Sys2Proof.Machine.execTokXS m s
  | .tokSX l => Sys2Proof.Machine.execTokSX l s
  | .tokSS l m => Sys2Proof.Machine.execTokSS l m s
  | .escCont => Sys2Proof.Machine.execEscCont s
  | .escStop v => Sys2Proof.Machine.execEscStop v s
  | .lit b => Sys2Proof.Machine.execLit b s
  | .offset o => Sys2Proof.Machine.execOffset o s
  | .cmdNop v => Sys2Proof.Machine.execCmdNop v s
  | .cmdStartDecompress => Sys2Proof.Machine.execCmdStartDecompress s
  | .cmdStartCompress => Sys2Proof.Machine.execCmdStartCompress s
  | .cmdClear => Sys2Proof.Machine.execCmdClear s

end Sys2Proof.Machine
end

