-- ==== Sys2Proof/Machine/Decoder.lean ====
section
/-! DEFINITION. The decoder's phases (R161 to R171): which element is due, and what a phase does where
no element stands for it. -/

namespace Sys2Proof.Machine

/-- LDEC entered: `acc <- nib`; the loop runs only if the nibble is 15 (R141). The
nibble itself is not tested against `2^LENW - 1`, as R141's listing has it, also where LENW is below 4
(the model's choice between R141 and D6, log 23). -/
def ldecEnter (nib : Nibble) (s : State) : State :=
  { s with
    lc := { s.lc with acc := nib.toNat, loop := if nib = 15#4 then .more else .finished } }

/-- LITLEN, once LDEC has returned: `lit_len <- acc`, LITCOPY next with all of it to do (R162).
For LENW below 4 the value can pass the width (the model's choice, log 23). -/
def commitLitLen (s : State) : State :=
  { s with dec := { s.dec with litLen := s.lc.acc, left := s.lc.acc, phase := .litCopy } }

/-- MATCHLEN, once LDEC has returned: OVERFLOW if `acc + 4` would pass `2^LENW - 1`, else
`mat_len <- acc + 4`, MATCHCOPY next with all of it to do (R166). -/
def commitMatLen (s : State) : State :=
  if overflows s (s.lc.acc + 4) then raise .overflow s
  else
    { s with
      dec := { s.dec with matLen := s.lc.acc + 4, left := s.lc.acc + 4, phase := .matchCopy } }

/-- Phases LITLEN and MATCHLEN: enter LDEC, read an escape byte, or commit the length (R141, R162,
R166). -/
def ldecMove (nib : Nibble) (commit : State → State) (s : State) : Move :=
  match s.lc.loop with
  | .start => .internal (.next (ldecEnter nib s))
  | .more => readElement .escape s
  | .finished => .internal (.next (commit s))

/-- Phase LITCOPY: TRUNC_LITERAL, then LIMIT, then the literals one by one, then ENDCHECK (R163). Both
tests are of the bytes still due, so they answer after `i` literals what they answered before the
first. -/
def litCopyMove (s : State) : Move :=
  if literalOverrun s then .internal (.next (raise .truncLiteral s))
  else if overLimit s then .internal (.next (raise .limit s))
  else if s.dec.left = 0 then .internal (.next (setPhase .endCheck s))
  else readElement .literal s

/-- Phase ENDCHECK, the decoder's only normal exit (R164). -/
def endCheck (s : State) : State :=
  if s.dec.ip = s.regs.inLen then stopDone s else setPhase .offset s

/-- Phase MATCHCOPY: LIMIT, then one byte from distance `off` a step, read after all earlier ones were
written, then TOKEN (R78, R167). `OUT[base + i]` is `OUT[olen - off]` at the moving `olen`. -/
def matchCopy (s : State) : Result :=
  if overLimit s then .next (raise .limit s)
  else if s.dec.left = 0 then .next (setPhase .token s)
  else if s.dec.off = 0#16 ∨ s.olen < s.dec.off.toNat then .fault .outPastEnd
  else
    andThen (put (s.outByte (s.olen - s.dec.off.toNat)) s) fun t =>
      .next { t with dec := { t.dec with left := t.dec.left - 1 } }

/-- What the decoder does next (R168). -/
def decoderMove (s : State) : Move :=
  match s.dec.phase with
  | .token => readElement .token s
  | .litLen => ldecMove s.dec.l commitLitLen s
  | .litCopy => litCopyMove s
  | .endCheck => .internal (.next (endCheck s))
  | .offset => readElement .offset s
  | .matchLen => ldecMove s.dec.m commitMatLen s
  | .matchCopy => .internal (matchCopy s)

end Sys2Proof.Machine
end

