-- ==== Sys2Proof/Machine/Encoder.lean ====
section
/-! DEFINITION. The encoder's steps (R202 to R214), each a definition by the name the spec gives it. -/

namespace Sys2Proof.Machine

/-- The loop's test: a whole prefix lies before `mlimit` (R202). -/
def encScan (s : State) : Result :=
  .next (setStep (if s.enc.cur + 4 ≤ s.enc.mlimit then .lookup else .flush) s)

/-- LOOKUP: `key <- H(k32)`, `cand <- IDX[key]` (R203). -/
def encLookup (s : State) : Result :=
  needIn (s.enc.cur + 4) s <|
    .next
      { s with
        enc :=
          { s.enc with
            key := keyOf s.cfg (prefix32 s.inByte s.enc.cur)
            cand := cellsRead s.idx (keyOf s.cfg (prefix32 s.inByte s.enc.cur))
            step := .verify } }

/-- VERIFY: a candidate, at most 65535 back, whose four bytes agree (R205). -/
def encVerify (s : State) : Result :=
  match s.enc.cand with
  | none => .next { s with enc := { s.enc with hit := false, step := .update } }
  | some _ =>
    withCand s fun c =>
      needIn (s.enc.cur + 4) s <|
        .next
          { s with
            enc :=
              { s.enc with
                hit :=
                  decide (s.enc.cur - c ≤ 65535) && (s.inBytes c 4 == s.inBytes s.enc.cur 4)
                step := .update } }

/-- The index after UPDATE: the slot read gets `cur`, unless a match starts here and
INDEX_MATCH_START is off (R204). -/
def updatedIndex (s : State) : Index :=
  if !s.enc.hit || s.cfg.indexMatchStart then cellsWrite s.idx s.enc.key s.enc.cur else s.idx

/-- UPDATE (R204), and the branch of R202: EXTEND, which starts from `mlen <- 4` (R206), or
ADVANCE_LITERAL. -/
def encUpdate (s : State) : Result :=
  .next
    { s with
      idx := updatedIndex s
      enc :=
        if s.enc.hit then { s.enc with mlen := 4, step := .extend }
        else { s.enc with step := .advanceLiteral } }

/-- EXTEND, one turn of its loop: one byte longer while below `mlimit` and the bytes agree (R206). -/
def encExtend (s : State) : Result :=
  withCand s fun c =>
    if s.enc.cur + s.enc.mlen < s.enc.mlimit then
      needIn (s.enc.cur + s.enc.mlen + 1) s <|
        if s.inByte (c + s.enc.mlen) = s.inByte (s.enc.cur + s.enc.mlen) then
          .next { s with enc := { s.enc with mlen := s.enc.mlen + 1 } }
        else .next (setStep .emitSeq s)
    else .next (setStep .emitSeq s)

/-- EMIT_SEQ: the literals `IN[anchor .. cur-1]`, the offset `cur - cand`, the match length `mlen`
(R207), written as R212 lays them out. LENC leaves its last remainder in `acc` (R42). -/
def encEmitSeq (s : State) : Result :=
  withCand s fun c =>
    needIn s.enc.cur s <|
      andThen
        (putAll
          (seqBytes (s.inBytes s.enc.anchor (s.enc.cur - s.enc.anchor))
            (BitVec.ofNat 16 (s.enc.cur - c)) s.enc.mlen) s)
        fun t =>
          .next
            { t with
              lc :=
                { t.lc with
                  acc := lencAcc (s.enc.mlen - 4) (lencAcc (s.enc.cur - s.enc.anchor) s.lc.acc) }
              enc := { t.enc with step := .midIndex } }

/-- MIDINDEX: nothing, or every position strictly inside the match (R208). -/
def encMidIndex (s : State) : Result :=
  .next
    (setStep .advanceMatch
      (if s.cfg.indexMidMatch then
        { s with idx := indexRun s.cfg s.inByte s.regs.inLen (s.enc.mlen - 1) (s.enc.cur + 1) s.idx }
      else s))

/-- ADVANCE_MATCH: past the whole match, and the literal run starts anew (R209). -/
def encAdvanceMatch (s : State) : Result :=
  .next
    { s with
      enc :=
        { s.enc with
          cur := s.enc.cur + s.enc.mlen, anchor := s.enc.cur + s.enc.mlen, step := .scan } }

/-- ADVANCE_LITERAL: one position on, the literal run grows (R210). -/
def encAdvanceLiteral (s : State) : Result :=
  .next { s with enc := { s.enc with cur := s.enc.cur + 1, step := .scan } }

/-- FLUSH: the last sequence with the literals `IN[anchor .. in_len-1]`, then `stop DONE` (R211, R213,
R214). -/
def encFlush (s : State) : Result :=
  andThen
    (putAll (lastBytes (s.inBytes s.enc.anchor (s.regs.inLen - s.enc.anchor))) s)
    fun t =>
      .next
        (stopDone
          { t with lc := { t.lc with acc := lencAcc (s.regs.inLen - s.enc.anchor) s.lc.acc } })

/-- What the encoder does next (R202). -/
def encoderStep (s : State) : Result :=
  match s.enc.step with
  | .scan => encScan s
  | .lookup => encLookup s
  | .verify => encVerify s
  | .update => encUpdate s
  | .extend => encExtend s
  | .emitSeq => encEmitSeq s
  | .midIndex => encMidIndex s
  | .advanceMatch => encAdvanceMatch s
  | .advanceLiteral => encAdvanceLiteral s
  | .flush => encFlush s

end Sys2Proof.Machine
end

