-- ==== Sys2Proof/Machine/Host.lean ====
section
/-! DEFINITION. The host's moves (R254 to R257, R306), the platform's address map (R81, D25) and the
reset event (R300, R301). -/

namespace Sys2Proof.Machine

/-! ### Reads -/

/-- The read returns `v`. A read has no other effect (R83). -/
def answer (v : Nat) (s : State) : State := { s with host := { s.host with rdata := v } }

/-- The read returns a value the spec leaves unspecified, of `width` bits (U2, U3, U5; log 7). -/
def answerFree (width : Nat) (s : State) : State :=
  { s with
    host := { s.host with rdata := Config.freeRead s.free.reads % 2 ^ width }
    free := { s.free with reads := s.free.reads + 1 } }

/-- The value where it is defined, a free value of `width` bits where it is not. -/
def answerIf (defined : Bool) (width v : Nat) (s : State) : State :=
  if defined then answer v s else answerFree width s

/-- A host read of register `n` (R31, R257): CMD reads 0; STATUS always has a value; while BUSY
nothing else has (R255); the bits above a register's fields read 0. CAUSE and OUT_LEN have their value
from the moment STATUS is not BUSY, whether or not the host has read STATUS since: R79 promises it
only after that read (the model's choice, log 21). -/
def readReg (n : Nat) (s : State) : Result :=
  let idle : Bool := s.regs.status != .busy
  match n with
  | 0 => .next (answer 0 s)
  | 1 => .next (answer s.regs.status.code s)
  | 2 => .next (answerIf idle 3 s.regs.cause.code s)
  | 3 => .next (answerIf idle s.cfg.lenw s.regs.inLen s)
  | 4 => .next (answerIf idle s.cfg.lenw s.regs.outLen s)
  | 5 => .next (answerIf idle s.cfg.lenw s.regs.outLimit s)
  | 6 => .next (answerIf idle 1 s.regs.limitEn.toNat s)
  | n => .refused (.noSuchRegister n)

/-- A host read (R70, R255, R256): IN below IN_LEN while not BUSY; OUT below OUT_LEN after DONE,
whether or not the host has read that STATUS (R79; the model's choice, log 21); every other byte, also
one that the host stored in IN at or above IN_LEN, is unspecified (U5; log 7). -/
def hostRead (t : Target) (s : State) : Result :=
  match t with
  | .reg n => readReg n s
  | .inp a =>
    if a < s.cfg.inCap then
      .next
        (answerIf (s.regs.status != .busy && decide (a < s.regs.inLen)) 8 (s.inByte a).toNat s)
    else .fault (.noSuchAddress t)
  | .out a =>
    if a < s.cfg.outCap then
      .next (answerIf (s.regs.status == .done && decide (a < s.regs.outLen)) 8 (s.outByte a).toNat s)
    else .fault (.noSuchAddress t)

/-! ### Writes -/

/-- A write that the host must not make while BUSY (R306, U4: refused). -/
def dutiful (t : Target) (s : State) (r : Result) : Result :=
  if s.regs.status = .busy then .refused (.hostWriteWhileBusy t) else r

/-- A host write of `v` to register `n` other than CMD (R257): the read-only ones ignore it, the
others store as many bits as they have (R31, R38; log 14). -/
def writeReg (n v : Nat) (s : State) : Result :=
  match n with
  | 1 => .next s
  | 2 => .next s
  | 3 => dutiful (.reg 3) s (.next { s with regs := { s.regs with inLen := v % 2 ^ s.cfg.lenw } })
  | 4 => .next s
  | 5 => dutiful (.reg 5) s (.next { s with regs := { s.regs with outLimit := v % 2 ^ s.cfg.lenw } })
  | 6 => dutiful (.reg 6) s (.next { s with regs := { s.regs with limitEn := decide (v % 2 = 1) } })
  | n => .refused (.noSuchRegister n)

/-- A host write to CMD: the command the byte encodes (R32, R112). -/
def writeCmd (v : Nat) (s : State) : Move :=
  match decode .command [BitVec.ofNat 8 v] with
  | .ok i _ => .instr i s
  | .rejected _ => .internal (.next s)

/-- A host write (R32, R70, R257). A byte of IN takes the low eight bits of the value, by number and
through the map alike: R70 gives the unit, a byte, and says nothing of a wider value (the model's
choice, log 22). An address at or above IN_CAP does not exist (R70): the fault is the model's choice
(log 16). -/
def hostWrite (t : Target) (v : Nat) (s : State) : Move :=
  match t with
  | .reg 0 => writeCmd v s
  | .reg n => .internal (writeReg n v s)
  | .inp a =>
    .internal <|
      if a < s.cfg.inCap then
        dutiful t s (.next { s with inp := cellsWrite s.inp a (BitVec.ofNat 8 v) })
      else .fault (.noSuchAddress t)
  | .out a => .internal (.refused (.hostWriteToOut a))

/-! ### The platform's address map (D25; log 15) -/

/-- What the platform's map has at an address: the seven registers from REG_BASE, OUT from OUT_BASE,
IN from IN_BASE. Where OUT and IN share an address, a byte of the input there is the overlap that R81
forbids (U12: refused), and above the input, where R81 allows the two to share, it is OUT's (log 15). -/
def resolve (s : State) (addr : Nat) : Except Refusal Target :=
  if s.cfg.regBase ≤ addr ∧ addr < s.cfg.regBase + 7 then .ok (.reg (addr - s.cfg.regBase))
  else if s.cfg.outBase ≤ addr ∧ addr < s.cfg.outBase + s.cfg.outCap then
    if s.cfg.inBase ≤ addr ∧ addr < s.cfg.inBase + s.inputBytes then .error .overlappingMap
    else .ok (.out (addr - s.cfg.outBase))
  else if s.cfg.inBase ≤ addr ∧ addr < s.cfg.inBase + s.cfg.inCap then
    .ok (.inp (addr - s.cfg.inBase))
  else .error (.unmappedAddress addr)

/-- A move through the map: the move on what the map has there, or the refusal. -/
def onBus (addr : Nat) (s : State) (f : Target → Move) : Move :=
  match resolve s addr with
  | .ok t => f t
  | .error r => .internal (.refused r)

/-! ### Reset -/

/-- The platform's reset, at any time, BUSY included: State.reset's registers, memories with nothing
written since this reset (R300, R301; log 6, log 13). Configuration, host and the read counter
stay. -/
def resetEvent (s : State) : State :=
  { State.reset with
    cfg := s.cfg
    host := s.host
    free := { s.free with epoch := s.free.epoch + 1 } }

end Sys2Proof.Machine
end

