-- ==== Sys2Proof/Machine/Fetch.lean ====
section
/-! DEFINITION. Who moves next and what with: the host's next move, or the engine's (log 3). -/

namespace Sys2Proof.Machine

/-- The engine's move: nothing while not BUSY (R289, R302); else the decoder's or the encoder's.
IN_LEN above IN_CAP, which START refuses, has no input to read. An operation under a map in which its
input and OUT overlap is refused at its first step (R81, R309, D25, U12; log 15). -/
def engineMove (s : State) : Move :=
  if s.regs.status = .busy then
    if s.regs.inLen ≤ s.cfg.inCap then
      if mapOverlaps s then .internal (.refused .overlappingMap)
      else
        match s.unit with
        | .dec => decoderMove s
        | .enc => .internal (encoderStep s)
    else .internal (.fault .inputBeyondMemory)
  else .internal (.next s)

/-- The state the engine moves in, where it is the engine's turn: the script is empty, or its next
move waits for one engine step, or polls and the engine is BUSY. -/
def engineTurn (s : State) : Option State :=
  match s.host.script with
  | [] => some s
  | .run :: rest => some (setScript rest s)
  | .await :: _ => if s.regs.status = .busy then some s else none
  | _ => none

/-- A host move `m`, already taken off the script (R254 to R257, R304). -/
def hostMove (m : HostMove) (s : State) : Move :=
  match m with
  | .write t v => hostWrite t v s
  | .read t => .internal (hostRead t s)
  | .busWrite addr v => onBus addr s fun t => hostWrite t v s
  | .busRead addr => onBus addr s fun t => .internal (hostRead t s)
  | .run => .internal (.next s)
  | .await => .internal (.next s)
  | .reset => .internal (.next (resetEvent s))

/-- What happens next. -/
def nextMove (s : State) : Move :=
  match engineTurn s with
  | some e => engineMove e
  | none =>
    match s.host.script with
    | m :: rest => hostMove m (setScript rest s)
    | [] => .internal (.next s)

/-! ### Placing one instruction (log 4, log 5) -/

/-- The decoder's phase in which a context's element is read; ESC is read in LITLEN here. -/
def phaseOf : Context → Phase
  | .token => .token
  | .escape => .litLen
  | .literal => .litCopy
  | .offset => .offset
  | .command => .token

/-- The IN memory with bytes at addresses from `a` on. -/
def storeBytes : List Byte → Nat → Memory → Memory
  | [], _, m => m
  | x :: xs, a, m => storeBytes xs (a + 1) (cellsWrite m a x)

/-- The stream bytes stored at `ip` of a running DECOMPRESS that is in the context's phase and due to
read there (inside LDEC's loop for an escape byte, one literal due for a literal), the input long
enough to hold them, the host waiting. -/
def placeStream (c : Context) (bytes : List Byte) (s : State) : State :=
  { s with
    regs :=
      { s.regs with status := .busy, inLen := max s.regs.inLen (s.dec.ip + bytes.length) }
    unit := .dec
    inp := storeBytes bytes s.dec.ip s.inp
    dec := { s.dec with phase := phaseOf c, left := if c = .literal then 1 else s.dec.left }
    lc := { s.lc with loop := if c = .escape then .more else s.lc.loop }
    host := { s.host with script := [] } }

/-- A write to CMD as the host's next move. -/
def placeCommand (v : Nat) (s : State) : State :=
  setScript (.write (.reg 0) v :: s.host.script) s

/-- The state whose very next step runs the instruction of an opcode-table word. -/
def placeWord (nbits w : Nat) (s : State) : State :=
  match tableContext nbits w with
  | .command => placeCommand (w % 256) s
  | .token => placeStream .token (tableBytes nbits w) s
  | .escape => placeStream .escape (tableBytes nbits w) s
  | .literal => placeStream .literal (tableBytes nbits w) s
  | .offset => placeStream .offset (tableBytes nbits w) s

end Sys2Proof.Machine
end

