-- ==== Sys2Proof/Machine/Step.lean ====
section
/-! DEFINITION. One step of the machine. -/

namespace Sys2Proof.Machine

/-- One step: the next move is made. -/
def step (s : State) : Host.Outcome State Fault Refusal :=
  match nextMove s with
  | .instr i t => exec i t
  | .internal r => r

/-- The state whose next step runs the instruction of the opcode-table word `w` (log 4, log 5). -/
def State.withFetchWord (s : State) (nbits w : Nat) : State := placeWord nbits w s

end Sys2Proof.Machine
end

