-- ==== Sys2Proof/Machine/Blocks.lean ====
section
/-! DEFINITION. The decoder and the encoder as functions of byte lists (R181, R223). No step calls
them: they are what claims about whole operations are stated with. Where they and the phases seem to
differ the phases govern (R181, R223). -/

namespace Sys2Proof.Machine

/-! ### The decoder (R181) -/

/-- `n` bytes appended one at a time, each from distance `off` in the growing output (R167, R180). -/
def copyBack (off : Nat) : Nat → List Byte → List Byte
  | 0, out => out
  | n + 1, out => copyBack off n (out ++ [out.getD (out.length - off) 0#8])

/-- The loop of R181 on the input left and the output so far. The first argument is fuel, above the
number of input bytes: every turn takes one at least. -/
def decodeSeqs (maxLen lim : Nat) : Nat → List Byte → List Byte → Except Cause (List Byte)
  | 0, _, _ => .error .truncField
  | _ + 1, [], _ => .error .truncField
  | fuel + 1, tok :: afterTok, out =>
    match ldec maxLen (hiNibble tok) afterTok with
    | .error c => .error c
    | .ok (litLen, atLits) =>
      if atLits.length < litLen then .error .truncLiteral
      else if lim - out.length < litLen then .error .limit
      else
        match atLits.drop litLen with
        | [] => .ok (out ++ atLits.take litLen)
        | [_] => .error .truncField
        | lo :: hi :: afterOff =>
          if joinOffset lo hi = 0#16 ∨
              (out ++ atLits.take litLen).length < (joinOffset lo hi).toNat then
            .error .badOffset
          else
            match ldec maxLen (loNibble tok) afterOff with
            | .error c => .error c
            | .ok (n, next) =>
              if maxLen < n + 4 then .error .overflow
              else if lim - (out ++ atLits.take litLen).length < n + 4 then .error .limit
              else
                decodeSeqs maxLen lim fuel next
                  (copyBack (joinOffset lo hi).toNat (n + 4) (out ++ atLits.take litLen))

/-- `decode(in)` of R181: the output bytes, or the cause. -/
def decodeBlock (maxLen lim : Nat) (input : List Byte) : Except Cause (List Byte) :=
  decodeSeqs maxLen lim (input.length + 1) input []

/-! ### The encoder (R223) -/

/-- The byte of the input at a position. -/
def byteOf (x : List Byte) (p : Nat) : Byte := x.getD p 0#8

/-- VERIFY: the candidate, if it is a match source (R205). -/
def verified (x : List Byte) (cur : Nat) (cand : Option Nat) : Option Nat :=
  cand.filter fun c =>
    decide (cur - c ≤ 65535) && ((x.drop c).take 4 == (x.drop cur).take 4)

/-- EXTEND from length `n` (R206). The first argument is fuel, at least `mlimit - cur`. -/
def extendMatch (x : List Byte) (mlimit cand cur : Nat) : Nat → Nat → Nat
  | 0, n => n
  | fuel + 1, n =>
    if cur + n < mlimit ∧ byteOf x (cand + n) = byteOf x (cur + n) then
      extendMatch x mlimit cand cur fuel (n + 1)
    else n

/-- The loop of R223 from `cur`, `anchor` and an index: the bytes still to be written. The first
argument is fuel, at least the number of positions left. -/
def encodeScan (c : Config) (x : List Byte) : Nat → Nat → Nat → Index → List Byte
  | 0, _, anchor, _ => lastBytes (x.drop anchor)
  | fuel + 1, cur, anchor, idx =>
    if cur + 4 ≤ x.length - c.endMargin then
      let key := keyOf c (prefix32 (byteOf x) cur)
      match verified x cur (cellsRead idx key) with
      | none => encodeScan c x fuel (cur + 1) anchor (cellsWrite idx key cur)
      | some cand =>
        let mlen := extendMatch x (x.length - c.endMargin) cand cur x.length 4
        let atStart := if c.indexMatchStart then cellsWrite idx key cur else idx
        let atEnd :=
          if c.indexMidMatch then indexRun c (byteOf x) x.length (mlen - 1) (cur + 1) atStart
          else atStart
        seqBytes ((x.drop anchor).take (cur - anchor)) (BitVec.ofNat 16 (cur - cand)) mlen ++
          encodeScan c x fuel (cur + mlen) (cur + mlen) atEnd
    else lastBytes (x.drop anchor)

/-- `encode(in)` of R223. -/
def encodeBlock (c : Config) (input : List Byte) : List Byte :=
  encodeScan c input (input.length + 1) 0 0 []

/-! ### The machine's input and result as byte lists -/

/-- `IN[0 .. in_len-1]` (R35, R71). -/
def State.input (s : State) : List Byte := s.inBytes 0 s.regs.inLen

/-- `OUT[0 .. OUT_LEN-1]` (R36, R256). -/
def State.output (s : State) : List Byte := s.outBytes 0 s.regs.outLen

end Sys2Proof.Machine
end

