-- ==== Sys2Proof/Safety.lean ====
section
/-! DEFINITION. What claims are stated with: the invariant of a run, the bounds of R77, whole runs. -/

namespace Sys2Proof.Machine

/-- Every OUT address below `n` has been written since reset (R72). -/
def State.outWritten (s : State) (n : Nat) : Prop := ∀ a < n, (cellsRead s.out a).isSome

/-- The memories are canonical and inside their spaces (R70, R73). -/
structure MemOk (s : State) : Prop where
  inpWf : s.inp.wf
  outWf : s.out.wf
  idxWf : s.idx.wf
  inpBound : ∀ p ∈ s.inp, p.1 < s.cfg.inCap
  outBound : ∀ p ∈ s.out, p.1 < s.cfg.outCap
  idxBound : ∀ p ∈ s.idx, p.1 < s.cfg.idxSlots

/-- The host registers fit their widths and agree with each other: CAUSE is 0 in every state but
ERROR (R34), OUT_LEN is 0 until DONE (R36), a result lies in OUT and was written (R256). -/
structure RegsOk (s : State) : Prop where
  inLenFits : s.regs.inLen ≤ s.cfg.maxLen
  outLimitFits : s.regs.outLimit ≤ s.cfg.maxLen
  causeIff : s.regs.status = .error ↔ s.regs.cause ≠ .none
  noResult : s.regs.status ≠ .done → s.regs.outLen = 0
  resultFits : s.regs.outLen ≤ s.cfg.outCap
  resultWritten : s.outWritten s.regs.outLen

/-- `L` and `M` are the nibbles of `tok` (R40). -/
structure TokOk (s : State) : Prop where
  high : s.dec.l = hiNibble s.dec.tok
  low : s.dec.m = loNibble s.dec.tok

/-- A running DECOMPRESS: the cursor inside the input (R41), the output inside the limit (R171) and
written (R72), a legal offset from its test to the end of the copy (R165). -/
structure DecOk (s : State) : Prop where
  inFits : s.regs.inLen ≤ s.cfg.inCap
  ipBound : s.dec.ip ≤ s.regs.inLen
  olenBound : s.olen ≤ s.lim
  written : s.outWritten s.olen
  notLast : s.dec.phase = .offset → s.dec.ip < s.regs.inLen
  legalOff :
    s.dec.phase = .matchLen ∨ s.dec.phase = .matchCopy →
      s.dec.off ≠ 0#16 ∧ s.dec.off.toNat ≤ s.olen

/-- What the encoder may have written when `covered` input bytes are covered: the size bound of R217,
sequence by sequence. -/
def outBudget (covered : Nat) : Nat := covered + covered / 255

/-- The candidate is a verified match source of `n` bytes before `mlimit` (R205, R206). -/
def goodMatch (s : State) (n : Nat) : Prop :=
  ∃ c, s.enc.cand = some c ∧ c < s.enc.cur ∧ s.enc.cur - c ≤ 65535 ∧
    s.enc.cur + n ≤ s.enc.mlimit ∧
    ∀ k < n, s.inByte (c + k) = s.inByte (s.enc.cur + k)

/-- What holds at each step of the encoder's loop (R201 to R211). -/
def stepOk (s : State) : Prop :=
  match s.enc.step with
  | .scan => s.olen ≤ outBudget s.enc.anchor ∧ ∀ p ∈ s.idx, p.2 < s.enc.cur
  | .lookup =>
    s.olen ≤ outBudget s.enc.anchor ∧ (∀ p ∈ s.idx, p.2 < s.enc.cur) ∧
      s.enc.cur + 4 ≤ s.enc.mlimit
  | .verify =>
    s.olen ≤ outBudget s.enc.anchor ∧ (∀ p ∈ s.idx, p.2 < s.enc.cur) ∧
      s.enc.cur + 4 ≤ s.enc.mlimit ∧ s.enc.key < s.cfg.idxSlots ∧
      ∀ c, s.enc.cand = some c → c < s.enc.cur
  | .update =>
    s.olen ≤ outBudget s.enc.anchor ∧ (∀ p ∈ s.idx, p.2 < s.enc.cur) ∧
      s.enc.cur + 4 ≤ s.enc.mlimit ∧ s.enc.key < s.cfg.idxSlots ∧
      (s.enc.hit = true → goodMatch s 4)
  | .extend =>
    s.olen ≤ outBudget s.enc.anchor ∧ (∀ p ∈ s.idx, p.2 ≤ s.enc.cur) ∧
      4 ≤ s.enc.mlen ∧ goodMatch s s.enc.mlen
  | .emitSeq =>
    s.olen ≤ outBudget s.enc.anchor ∧ (∀ p ∈ s.idx, p.2 ≤ s.enc.cur) ∧
      4 ≤ s.enc.mlen ∧ goodMatch s s.enc.mlen
  | .midIndex =>
    s.olen ≤ outBudget (s.enc.cur + s.enc.mlen) ∧ (∀ p ∈ s.idx, p.2 ≤ s.enc.cur) ∧
      4 ≤ s.enc.mlen ∧ s.enc.cur + s.enc.mlen ≤ s.enc.mlimit
  | .advanceMatch =>
    s.olen ≤ outBudget (s.enc.cur + s.enc.mlen) ∧
      (∀ p ∈ s.idx, p.2 < s.enc.cur + s.enc.mlen) ∧ s.enc.cur + s.enc.mlen ≤ s.enc.mlimit
  | .advanceLiteral =>
    s.olen ≤ outBudget s.enc.anchor ∧ (∀ p ∈ s.idx, p.2 ≤ s.enc.cur) ∧
      s.enc.cur + 4 ≤ s.enc.mlimit
  | .flush => s.olen ≤ outBudget s.enc.anchor

/-- A running COMPRESS: the worst-case block fits OUT (R251), the cursors are in order (R43), what is
written so far stays in the size bound (R217), and the step's own condition. -/
structure EncOk (s : State) : Prop where
  inFits : s.regs.inLen ≤ s.cfg.inCap
  outFits : sizeBound s.regs.inLen ≤ s.cfg.outCap
  limitIs : s.enc.mlimit = s.regs.inLen - s.cfg.endMargin
  anchorLe : s.enc.anchor ≤ s.enc.cur
  curLe : s.enc.cur ≤ s.regs.inLen
  written : s.outWritten s.olen
  atStep : stepOk s

/-- The invariant of every run. -/
structure Inv (s : State) : Prop where
  cfgOk : s.cfg.Ok
  mem : MemOk s
  tok : TokOk s
  regs : RegsOk s
  dec : s.regs.status = .busy → s.unit = .dec → DecOk s
  enc : s.regs.status = .busy → s.unit = .enc → EncOk s

/-- The engine's turn with nothing scripted: the host waits until the operation ends. -/
def State.hostWaits (s : State) : Prop := s.host.script = []

/-- `n` steps from `s` all answer a next state, and the last is `t`. -/
def reaches (n : Nat) (s t : State) : Prop := Host.Core.run Sys2Proof.core n s = .next t

/-- The element the decoder is about to read, by its phase (R111): none where the phase makes a move
of its own. -/
def dueContext (s : State) : Option Context :=
  match s.dec.phase with
  | .token => some .token
  | .litLen => if s.lc.loop = .more then some .escape else none
  | .litCopy =>
    if literalOverrun s ∨ overLimit s ∨ s.dec.left = 0 then none else some .literal
  | .endCheck => none
  | .offset => some .offset
  | .matchLen => if s.lc.loop = .more then some .escape else none
  | .matchCopy => none

/-- The platform keeps the input and OUT apart: the duty of D25 (R81, R309), which D25 asks to be a
named premise of every claim about the engine. -/
abbrev State.apart (s : State) : Prop := mapOverlaps s = false

/-- A running DECOMPRESS whose input lies in IN, apart from OUT. -/
def State.decoding (s : State) : Prop :=
  s.regs.status = .busy ∧ s.unit = .dec ∧ s.regs.inLen ≤ s.cfg.inCap ∧ s.apart

/-- A running COMPRESS whose input lies in IN, apart from OUT. -/
def State.encoding (s : State) : Prop :=
  s.regs.status = .busy ∧ s.unit = .enc ∧ s.regs.inLen ≤ s.cfg.inCap ∧ s.apart

/-- The host's next move reads `target`, by space and number (R70) or through the platform's map
(log 15). -/
def State.readsNext (s : State) (target : Target) (rest : List HostMove) : Prop :=
  s.host.script = .read target :: rest ∨
    ∃ addr, s.host.script = .busRead addr :: rest ∧ resolve s addr = .ok target

/-- The host's next move writes `v` to `target`, by space and number (R70) or through the platform's
map (log 15). -/
def State.writesNext (s : State) (target : Target) (v : Nat) (rest : List HostMove) : Prop :=
  s.host.script = .write target v :: rest ∨
    ∃ addr, s.host.script = .busWrite addr v :: rest ∧ resolve s addr = .ok target

/-! ### Frames: what a move leaves as it was. Memory is compared by its reads. -/

/-- Everything but the decoder's and the codec's working registers is as before. -/
structure SameButDec (s t : State) : Prop where
  cfg : t.cfg = s.cfg
  regs : t.regs = s.regs
  inp : ∀ a, t.inByte a = s.inByte a
  out : ∀ a, t.outByte a = s.outByte a
  idx : t.idx = s.idx
  enc : t.enc = s.enc
  olen : t.olen = s.olen
  unit : t.unit = s.unit
  host : t.host = s.host
  free : t.free = s.free

/-- Everything but the host registers is as before. -/
structure SameButRegs (s t : State) : Prop where
  cfg : t.cfg = s.cfg
  inp : ∀ a, t.inByte a = s.inByte a
  out : ∀ a, t.outByte a = s.outByte a
  idx : t.idx = s.idx
  dec : t.dec = s.dec
  lc : t.lc = s.lc
  enc : t.enc = s.enc
  olen : t.olen = s.olen
  unit : t.unit = s.unit
  host : t.host = s.host
  free : t.free = s.free

/-- Everything but OUT, `olen` and the decoder's registers is as before. -/
structure SameButOut (s t : State) : Prop where
  cfg : t.cfg = s.cfg
  regs : t.regs = s.regs
  inp : ∀ a, t.inByte a = s.inByte a
  idx : t.idx = s.idx
  lc : t.lc = s.lc
  enc : t.enc = s.enc
  unit : t.unit = s.unit
  host : t.host = s.host
  free : t.free = s.free

/-- `t` is `s` after a token byte with nibbles `l` and `m` was read (R161). -/
structure Latched (s t : State) (l m : Nibble) : Prop where
  frame : SameButDec s t
  ip : t.dec.ip = s.dec.ip + 1
  tok : t.dec.tok = joinNibbles l m
  high : t.dec.l = l
  low : t.dec.m = m
  phase : t.dec.phase = .litLen
  loop : t.lc.loop = .start
  acc : t.lc.acc = s.lc.acc
  b : t.lc.b = s.lc.b
  litLen : t.dec.litLen = s.dec.litLen
  off : t.dec.off = s.dec.off
  matLen : t.dec.matLen = s.dec.matLen
  left : t.dec.left = s.dec.left

/-- `t` is `s` after error entry with cause `c`; the decoder's and the codec's registers are dead
(R280). -/
structure Failed (s t : State) (c : Cause) : Prop where
  regs : t.regs = { s.regs with status := .error, cause := c, outLen := 0 }
  cfg : t.cfg = s.cfg
  inp : ∀ a, t.inByte a = s.inByte a
  out : ∀ a, t.outByte a = s.outByte a
  idx : t.idx = s.idx
  enc : t.enc = s.enc
  olen : t.olen = s.olen
  unit : t.unit = s.unit
  host : t.host = s.host
  free : t.free = s.free

/-- `t` is `s` with the bytes `xs` appended to OUT, the rest of OUT as it was (R72, R212). -/
structure Appended (s t : State) (xs : List Byte) : Prop where
  olen : t.olen = s.olen + xs.length
  written : ∀ k < xs.length, t.outByte (s.olen + k) = xs.getD k 0#8
  others : ∀ a, a < s.olen ∨ s.olen + xs.length ≤ a → t.outByte a = s.outByte a

/-- The input bytes from `ip` on. -/
def State.ahead (s : State) : List Byte := s.inBytes s.dec.ip (s.regs.inLen - s.dec.ip)

/-- The phase after a phase (R168). -/
def Phase.next : Phase → Phase
  | .token => .litLen
  | .litLen => .litCopy
  | .litCopy => .endCheck
  | .endCheck => .offset
  | .offset => .matchLen
  | .matchLen => .matchCopy
  | .matchCopy => .token

end Sys2Proof.Machine
end

