-- ==== Sys2Proof/Certificates/Slice0/Obligations.lean ====
section
/-! DEFINITION. The statements for the provers. Each docstring names the rule of spec/ it formalises;
where a clause rests on a choice of the model it names the log entry. -/

open Sys2Proof Sys2Proof.Machine

/-! ### Encoding -/

/-- R101 to R104, R111, R112: every well-formed instruction, with every operand the encoding admits,
is what its own bytes decode to in its context, whatever bytes follow. -/
def Obligations.DecodeInvertsEncode : Prop :=
  ∀ (i : Instr) (rest : List Byte), i.wellFormed = true →
    decode i.context (encode i ++ rest) = .ok i rest

/-- R101 to R104, R111, R112: no bit of the stream is lost: what the decoder takes, encoded again, is
the bytes it took. -/
def Obligations.EncodeInvertsDecode : Prop :=
  ∀ (c : Context) (bs rest : List Byte) (i : Instr), decode c bs = .ok i rest →
    encode i ++ rest = bs

/-- R109, R253: no byte value is illegal in any context; decoding fails exactly where bytes are
missing (two are due for an offset, one elsewhere). -/
def Obligations.DecodeFailsOnlyOnMissingBytes : Prop :=
  ∀ (c : Context) (bs : List Byte),
    (∃ r, decode c bs = .rejected r) ↔ bs.length < (if c = .offset then 2 else 1)

/-- R111, R112 and the classification under 95_test_vectors.md section 3: words written out from the
spec decode to what they stand for. -/
def Obligations.SampleWordsDecode : Prop :=
  decode .token [0x00#8] = .ok (.tokSS 0#4 0#4) [] ∧
    decode .token [0x16#8] = .ok (.tokSS 1#4 6#4) [] ∧
    decode .token [0xEF#8] = .ok (.tokSX 14#4) [] ∧
    decode .token [0xF6#8] = .ok (.tokXS 6#4) [] ∧
    decode .token [0xFF#8] = .ok .tokXX [] ∧
    decode .escape [0xFF#8, 0x0A#8] = .ok .escCont [0x0A#8] ∧
    decode .escape [0x0A#8] = .ok (.escStop 10#8) [] ∧
    decode .offset [0x34#8, 0x12#8] = .ok (.offset 0x1234#16) [] ∧
    decode .command [0x01#8] = .ok .cmdStartDecompress [] ∧
    decode .command [0x02#8] = .ok .cmdStartCompress [] ∧
    decode .command [0x03#8] = .ok .cmdClear [] ∧
    decode .command [0x80#8] = .ok (.cmdNop 0x80#8) []

/-! ### Whose turn it is, and what runs -/

/-- R40, R80, R111: on the engine's turn, while a DECOMPRESS runs and an element is due, the bytes at
`ip` that decode to an instruction make the step that instruction. `e` is the state the engine moves
in: `s`, or `s` with the host's one-step wait taken off its script (log 3). -/
def Obligations.StepRunsTheDueElement : Prop :=
  ∀ (s e : State) (c : Context) (i : Instr) (rest : List Byte),
    engineTurn s = some e → e.decoding → dueContext e = some c → decode c (window e) = .ok i rest →
      step s = exec i e

/-- R272, R273, R275: where an element is due and its bytes are missing, the step is error entry with
the context's cause: TRUNC_FIELD for a token byte or an offset, TRUNC_ESCAPE for an escape byte. -/
def Obligations.MissingBytesAreAnError : Prop :=
  ∀ (s e : State) (c : Context) (r : Reject),
    engineTurn s = some e → e.decoding → dueContext e = some c →
      decode c (window e) = .rejected r →
      ∃ t, step s = .next t ∧ Failed e t (missing c) ∧
        (c = .token ∨ c = .offset → t.regs.cause = .truncField) ∧
        (c = .escape → t.regs.cause = .truncEscape)

/-- R32, R112: a host write of `v` to CMD runs the command that the low eight bits of `v` encode (the
cut to eight bits is the model's choice, log 14), by the register's number or through the platform's map
(log 15); the move is taken off the script (log 3). -/
def Obligations.CmdWriteRunsItsCommand : Prop :=
  ∀ (s : State) (v : Nat) (rest : List HostMove) (i : Instr),
    s.writesNext (.reg 0) v rest → decode .command [BitVec.ofNat 8 v] = .ok i [] →
      step s = exec i (setScript rest s)

/-- R289, R302: while STATUS is not BUSY and the host makes no move, the engine does nothing. -/
def Obligations.IdleEngineDoesNothing : Prop :=
  ∀ s : State, s.hostWaits → s.regs.status ≠ .busy → step s = .next s

/-! ### Token forms -/

/-- R161, R172 to R175: each token form completes in every state; it latches tok, L and M, moves `ip`
by one, LITLEN is next, and everything else is as before. -/
def Obligations.TokenFormsLatch : Prop :=
  ∀ s : State,
    (∃ t, exec .tokXX s = .next t ∧ Latched s t 15#4 15#4) ∧
      (∀ m, ∃ t, exec (.tokXS m) s = .next t ∧ Latched s t 15#4 m) ∧
      (∀ l, ∃ t, exec (.tokSX l) s = .next t ∧ Latched s t l 15#4) ∧
      ∀ l m, ∃ t, exec (.tokSS l m) s = .next t ∧ Latched s t l m

/-- R161: phase TOKEN as a step: TRUNC_FIELD when no byte remains, else the byte at `ip` is split into
its nibbles. -/
def Obligations.TokenPhaseSplitsTheByte : Prop :=
  ∀ s : State, s.hostWaits → s.decoding → s.dec.phase = .token →
    (s.regs.inLen ≤ s.dec.ip → ∃ t, step s = .next t ∧ Failed s t .truncField) ∧
      (s.dec.ip < s.regs.inLen →
        ∃ t, step s = .next t ∧
          Latched s t (hiNibble (s.inByte s.dec.ip)) (loNibble (s.inByte s.dec.ip)) ∧
          t.dec.tok = s.inByte s.dec.ip)

/-! ### The length codec -/

/-- R143, R141: ESC.CONT completes wherever the sum fits `2^LENW - 1`: acc + 255, ip + 1, another
escape byte is due, everything else as before. -/
def Obligations.EscContAddsAndContinues : Prop :=
  ∀ s : State, s.lc.acc + 255 ≤ s.cfg.maxLen →
    ∃ t, exec .escCont s = .next t ∧ t.lc = { acc := s.lc.acc + 255, b := 255#8, loop := .more } ∧
      t.dec = { s.dec with ip := s.dec.ip + 1 } ∧ SameButDec s t

/-- R144, R141: ESC.STOP completes wherever the sum fits: acc + v, ip + 1, the loop ends, everything
else as before. -/
def Obligations.EscStopAddsAndStops : Prop :=
  ∀ (s : State) (v : Byte), s.lc.acc + v.toNat ≤ s.cfg.maxLen →
    ∃ t, exec (.escStop v) s = .next t ∧
      t.lc = { acc := s.lc.acc + v.toNat, b := v, loop := .finished } ∧
      t.dec = { s.dec with ip := s.dec.ip + 1 } ∧ SameButDec s t

/-- R146, R277: where the sum would pass `2^LENW - 1` the operation ends with OVERFLOW before the
addition: it never wraps. -/
def Obligations.EscapeSumNeverWraps : Prop :=
  ∀ s : State,
    (s.cfg.maxLen < s.lc.acc + 255 →
        ∃ t, exec .escCont s = .next t ∧ Failed s t .overflow ∧ t.lc.acc = s.lc.acc) ∧
      ∀ v : Byte, s.cfg.maxLen < s.lc.acc + v.toNat →
        ∃ t, exec (.escStop v) s = .next t ∧ Failed s t .overflow ∧ t.lc.acc = s.lc.acc

/-- R142: LDEC inverts LENC on the escape bytes followed by anything, and every nibble with a complete
escape run is LENC of the value LDEC returns (R108). R145: LENC gives `e(n)` escape bytes. -/
def Obligations.LengthCodecInverse : Prop :=
  ∀ maxLen : Nat,
    (∀ (n : Nat) (rest : List Byte), n ≤ maxLen →
        ldec maxLen (lencNibble n) (lencEscapes n ++ rest) = .ok (n, rest)) ∧
      (∀ (nib : Nibble) (bytes rest : List Byte) (n : Nat), ldec maxLen nib bytes = .ok (n, rest) →
        nib = lencNibble n ∧ bytes = lencEscapes n ++ rest) ∧
      ∀ n : Nat, (lencEscapes n).length = escapeCount n

/-- R162: phase LITLEN, run to its end while the host waits, is LDEC of `L` on the input bytes ahead:
lit_len is its value, `ip` past the escape bytes it read, LITCOPY next, and nothing but the decoder's
and the codec's registers changed; or the operation ends with LDEC's cause. LDEC is R141's listing for every LENW, below 4 too
(log 23). -/
def Obligations.LitLenPhaseIsLdec : Prop :=
  ∀ s : State, s.hostWaits → s.decoding → s.dec.phase = .litLen → s.lc.loop = .start →
    s.dec.ip ≤ s.regs.inLen →
    (∀ n rest, ldec s.cfg.maxLen s.dec.l s.ahead = .ok (n, rest) →
        ∃ k t, reaches k s t ∧ SameButDec s t ∧
          t.dec =
            { s.dec with
              ip := s.regs.inLen - rest.length, litLen := n, left := n, phase := .litCopy }) ∧
      ∀ c, ldec s.cfg.maxLen s.dec.l s.ahead = .error c →
        ∃ k t, reaches k s t ∧ Failed s t c

/-- R166: phase MATCHLEN, run to its end while the host waits: mat_len is LDEC of `M` plus 4, or the
operation ends with LDEC's cause, or with OVERFLOW where the sum would pass `2^LENW - 1`. -/
def Obligations.MatchLenPhaseIsLdecPlusFour : Prop :=
  ∀ s : State, s.hostWaits → s.decoding → s.dec.phase = .matchLen → s.lc.loop = .start →
    s.dec.ip ≤ s.regs.inLen →
    (∀ n rest, ldec s.cfg.maxLen s.dec.m s.ahead = .ok (n, rest) →
        (n + 4 ≤ s.cfg.maxLen →
            ∃ k t, reaches k s t ∧ SameButDec s t ∧
              t.dec =
                { s.dec with
                  ip := s.regs.inLen - rest.length, matLen := n + 4, left := n + 4,
                  phase := .matchCopy }) ∧
          (s.cfg.maxLen < n + 4 → ∃ k t, reaches k s t ∧ Failed s t .overflow)) ∧
      ∀ c, ldec s.cfg.maxLen s.dec.m s.ahead = .error c →
        ∃ k t, reaches k s t ∧ Failed s t c

/-! ### Literals, the offset, the match -/

/-- R176: LIT completes wherever `olen` lies in OUT: `OUT[olen]` is the byte, olen + 1, ip + 1, one
literal fewer due, every other byte of OUT and everything else as before. -/
def Obligations.LiteralIsAppended : Prop :=
  ∀ (s : State) (b : Byte), s.olen < s.cfg.outCap →
    ∃ t, exec (.lit b) s = .next t ∧ Appended s t [b] ∧ SameButOut s t ∧
      t.dec = { s.dec with ip := s.dec.ip + 1, left := s.dec.left - 1 }

/-- R163: phase LITCOPY from its beginning: TRUNC_LITERAL, then LIMIT, each before a byte is written;
else the next lit_len input bytes are appended in order, `ip` is past them, ENDCHECK next, and every
other byte of OUT and everything else is as before. -/
def Obligations.LitCopyAppendsTheLiterals : Prop :=
  ∀ s : State, s.hostWaits → s.decoding → s.dec.phase = .litCopy → s.dec.left = s.dec.litLen →
    (s.regs.inLen - s.dec.ip < s.dec.litLen → ∃ t, step s = .next t ∧ Failed s t .truncLiteral) ∧
      (s.dec.litLen ≤ s.regs.inLen - s.dec.ip → s.lim - s.olen < s.dec.litLen →
        ∃ t, step s = .next t ∧ Failed s t .limit) ∧
      (s.dec.litLen ≤ s.regs.inLen - s.dec.ip → s.dec.litLen ≤ s.lim - s.olen →
        ∃ k t, reaches k s t ∧ Appended s t (s.inBytes s.dec.ip s.dec.litLen) ∧ SameButOut s t ∧
          t.dec =
            { s.dec with ip := s.dec.ip + s.dec.litLen, left := 0, phase := .endCheck })

/-- R164, R169, R179: phase ENDCHECK: DONE with OUT_LEN = olen exactly when the input is consumed,
whatever `M` is; else OFFSET is next. -/
def Obligations.EndCheckStopsAtTheEnd : Prop :=
  ∀ s : State, s.hostWaits → s.decoding → s.dec.phase = .endCheck →
    (s.dec.ip = s.regs.inLen →
        ∃ t, step s = .next t ∧ t.regs = { s.regs with status := .done, outLen := s.olen } ∧
          SameButRegs s t) ∧
      (s.dec.ip ≠ s.regs.inLen →
        ∃ t, step s = .next t ∧ t.dec = { s.dec with phase := .offset } ∧ t.lc = s.lc ∧
          SameButDec s t)

/-- R177: OFFSET completes with a distance from 1 to `olen`: off latched, ip + 2, MATCHLEN next,
everything else as before; with 0 or a distance above `olen` it takes error entry with BAD_OFFSET. -/
def Obligations.OffsetIsValidated : Prop :=
  ∀ (s : State) (o : Offset),
    (1 ≤ o.toNat → o.toNat ≤ s.olen →
        ∃ t, exec (.offset o) s = .next t ∧ SameButDec s t ∧
          t.dec = { s.dec with ip := s.dec.ip + 2, off := o, phase := .matchLen } ∧
          t.lc = { s.lc with loop := .start }) ∧
      (o.toNat = 0 ∨ s.olen < o.toNat →
        ∃ t, exec (.offset o) s = .next t ∧ Failed s t .badOffset)

/-- R165, R74: phase OFFSET as a step: TRUNC_FIELD when fewer than two bytes remain; else the distance
is `IN[ip] + 256*IN[ip+1]`, legal from 1 to `olen`, BAD_OFFSET otherwise. -/
def Obligations.OffsetPhaseReadsLittleEndian : Prop :=
  ∀ s : State, s.hostWaits → s.decoding → s.dec.phase = .offset →
    (s.regs.inLen < s.dec.ip + 2 → ∃ t, step s = .next t ∧ Failed s t .truncField) ∧
      (s.dec.ip + 2 ≤ s.regs.inLen → ∀ d : Nat,
        d = (s.inByte s.dec.ip).toNat + 256 * (s.inByte (s.dec.ip + 1)).toNat →
          (1 ≤ d → d ≤ s.olen →
              ∃ t, step s = .next t ∧ SameButDec s t ∧ t.dec.off.toNat = d ∧
                t.dec.ip = s.dec.ip + 2 ∧ t.dec.phase = .matchLen) ∧
            (d = 0 ∨ s.olen < d → ∃ t, step s = .next t ∧ Failed s t .badOffset))

/-- R167, R180: phase MATCHCOPY from its beginning with a legal offset: LIMIT before a byte is
written; else `mat_len` bytes are appended, byte `i` of them being `h[olen - off + (i mod off)]` of the
output `h` before the copy, overlap or not; TOKEN next, every other byte of OUT and everything else as
before. -/
def Obligations.MatchCopyRepeatsTheOutput : Prop :=
  ∀ s : State, s.hostWaits → s.decoding → s.dec.phase = .matchCopy → s.dec.left = s.dec.matLen →
    1 ≤ s.dec.off.toNat → s.dec.off.toNat ≤ s.olen →
    (s.lim - s.olen < s.dec.matLen → ∃ t, step s = .next t ∧ Failed s t .limit) ∧
      (s.dec.matLen ≤ s.lim - s.olen →
        ∃ k t, reaches k s t ∧
          Appended s t
            ((List.range s.dec.matLen).map fun i =>
              s.outByte (s.olen - s.dec.off.toNat + i % s.dec.off.toNat)) ∧
          SameButOut s t ∧ t.dec = { s.dec with left := 0, phase := .token })

/-- R168: the phases run in the fixed order: while a DECOMPRESS stays BUSY, a step leaves its phase as
it is or moves to the next one, and to no other. -/
def Obligations.PhasesRunInOrder : Prop :=
  ∀ s t : State, s.hostWaits → s.decoding → step s = .next t → t.regs.status = .busy →
    t.dec.phase = s.dec.phase ∨ t.dec.phase = s.dec.phase.next

/-- R41: the program counter only increases while a DECOMPRESS runs: a token byte or an escape byte
moves it by 1, an offset by 2, a literal by 1 (lit_len in all), and no computed target is ever
written to it. -/
def Obligations.CursorOnlyAdvances : Prop :=
  ∀ s t : State, s.hostWaits → s.decoding → step s = .next t →
    t.dec.ip = s.dec.ip ∨ t.dec.ip = s.dec.ip + 1 ∨
      (t.dec.ip = s.dec.ip + 2 ∧ s.dec.phase = .offset)

/-- R169: when a step of a DECOMPRESS ends it in DONE, the whole input was consumed, OUT_LEN is the
number of bytes produced, and CAUSE is what it was. -/
def Obligations.DoneMeansInputConsumed : Prop :=
  ∀ s t : State, s.hostWaits → s.decoding → step s = .next t → t.regs.status = .done →
    t.dec.ip = t.regs.inLen ∧ t.regs.outLen = s.olen ∧ t.regs.cause = s.regs.cause

/-! ### Commands -/

/-- R250, R160: START_DECOMPRESS completes in every state. While BUSY it is ignored. Otherwise, with
IN_LEN at most IN_CAP: STATUS BUSY, CAUSE 0, OUT_LEN 0, ip 0, olen 0, phase TOKEN, everything else as
before; with IN_LEN above IN_CAP it is the start-time error LIMIT instead. -/
def Obligations.StartDecompressStarts : Prop :=
  ∀ s : State,
    (s.regs.status = .busy → exec .cmdStartDecompress s = .next s) ∧
      (s.regs.status ≠ .busy → s.regs.inLen ≤ s.cfg.inCap →
        ∃ t, exec .cmdStartDecompress s = .next t ∧
          t.regs = { s.regs with status := .busy, cause := .none, outLen := 0 } ∧
          t.unit = .dec ∧ t.olen = 0 ∧ t.dec = { s.dec with ip := 0, phase := .token } ∧
          t.cfg = s.cfg ∧ (∀ a, t.inByte a = s.inByte a) ∧ (∀ a, t.outByte a = s.outByte a) ∧
          t.idx = s.idx ∧ t.lc = s.lc ∧ t.enc = s.enc ∧ t.host = s.host ∧ t.free = s.free) ∧
      (s.regs.status ≠ .busy → s.cfg.inCap < s.regs.inLen →
        ∃ t, exec .cmdStartDecompress s = .next t ∧ Failed s t .limit ∧ t.dec = s.dec ∧
          t.lc = s.lc)

/-- R251, R200: START_COMPRESS completes in every state. While BUSY it is ignored. Otherwise, where
the input fits IN and its worst-case block `n + floor(n/255) + 2` fits OUT: STATUS BUSY, CAUSE 0,
OUT_LEN 0, cur, anchor and olen 0, mlimit set, every IDX slot NONE, everything else as before; where
one does not fit it is the start-time error LIMIT instead. -/
def Obligations.StartCompressStarts : Prop :=
  ∀ s : State,
    (s.regs.status = .busy → exec .cmdStartCompress s = .next s) ∧
      (s.regs.status ≠ .busy → s.regs.inLen ≤ s.cfg.inCap →
        s.regs.inLen + s.regs.inLen / 255 + 2 ≤ s.cfg.outCap →
        ∃ t, exec .cmdStartCompress s = .next t ∧
          t.regs = { s.regs with status := .busy, cause := .none, outLen := 0 } ∧
          t.unit = .enc ∧ t.olen = 0 ∧ (∀ slot, cellsRead t.idx slot = none) ∧
          t.enc =
            { s.enc with
              cur := 0, anchor := 0, step := .scan,
              mlimit :=
                if s.cfg.endMargin ≤ s.regs.inLen then s.regs.inLen - s.cfg.endMargin else 0 } ∧
          t.cfg = s.cfg ∧ (∀ a, t.inByte a = s.inByte a) ∧ (∀ a, t.outByte a = s.outByte a) ∧
          t.dec = s.dec ∧ t.lc = s.lc ∧ t.host = s.host ∧ t.free = s.free) ∧
      (s.regs.status ≠ .busy →
        s.cfg.inCap < s.regs.inLen ∨ s.cfg.outCap < s.regs.inLen + s.regs.inLen / 255 + 2 →
        ∃ t, exec .cmdStartCompress s = .next t ∧ Failed s t .limit ∧ t.dec = s.dec ∧
          t.lc = s.lc)

/-- R252: CLEAR completes in every state. While BUSY it is ignored. Otherwise STATUS IDLE, CAUSE 0,
OUT_LEN 0, everything else as before. -/
def Obligations.ClearAcknowledges : Prop :=
  ∀ s : State,
    (s.regs.status = .busy → exec .cmdClear s = .next s) ∧
      (s.regs.status ≠ .busy →
        ∃ t, exec .cmdClear s = .next t ∧
          t.regs = { s.regs with status := .idle, cause := .none, outLen := 0 } ∧ SameButRegs s t)

/-- R253: a write of 0 or of a reserved value 4 to 255 to CMD changes nothing in any state: exec
completes with the state as it was, and the step does nothing but take the move off the script
(log 3). -/
def Obligations.NopAndReservedChangeNothing : Prop :=
  ∀ s : State,
    (∀ v : Byte, exec (.cmdNop v) s = .next s) ∧
      ∀ (v : Nat) (rest : List HostMove), v = 0 ∨ (4 ≤ v ∧ v ≤ 255) →
        s.host.script = .write (.reg 0) v :: rest → step s = .next (setScript rest s)

/-- R254: every write to CMD while BUSY is ignored, whatever its value: the step does nothing but take
the move off the script (log 3). -/
def Obligations.CommandsIgnoredWhileBusy : Prop :=
  ∀ (s : State) (v : Nat) (rest : List HostMove), s.regs.status = .busy →
    s.host.script = .write (.reg 0) v :: rest → step s = .next (setScript rest s)

/-! ### Errors and status -/

/-- R280: error entry sets CAUSE, OUT_LEN and STATUS and leaves everything else, also every byte of
memory, as it was; the operation is over: while the host makes no move, nothing happens after it. -/
def Obligations.ErrorEntry : Prop :=
  ∀ (s : State) (c : Cause),
    (raise c s).regs = { s.regs with cause := c, outLen := 0, status := .error } ∧
      SameButRegs s (raise c s) ∧
      (s.hostWaits → step (raise c s) = .next (raise c s))

/-- R34, R36: CAUSE is 0 in every state but ERROR and not 0 in ERROR, and OUT_LEN is 0 unless DONE: an
invariant of every step, from any state in which it holds. -/
def Obligations.StatusAndCauseAgree : Prop :=
  ∀ s t : State,
    ((s.regs.status = .error ↔ s.regs.cause ≠ .none) ∧
      (s.regs.status ≠ .done → s.regs.outLen = 0)) →
    step s = .next t →
    ((t.regs.status = .error ↔ t.regs.cause ≠ .none) ∧
      (t.regs.status ≠ .done → t.regs.outLen = 0))

/-- R282: ERROR is left only by START or CLEAR, or by the platform's reset (R301). The model's choices
in it: a write to CMD counts by its low eight bits, 1, 2 or 3 (log 14), and it may come by the
register's number or through the platform's map (log 15). -/
def Obligations.ErrorLeftOnlyByTheHost : Prop :=
  ∀ s t : State, s.regs.status = .error → step s = .next t → t.regs.status ≠ .error →
    ∃ rest,
      s.host.script = .reset :: rest ∨
        ∃ v, (v % 256 = 1 ∨ v % 256 = 2 ∨ v % 256 = 3) ∧ s.writesNext (.reg 0) v rest

/-- R215, R290: no step of a COMPRESS ends in ERROR or touches CAUSE. -/
def Obligations.EncoderNeverRaises : Prop :=
  ∀ s t : State, s.hostWaits → s.encoding → step s = .next t →
    t.regs.status ≠ .error ∧ t.regs.cause = s.regs.cause

/-! ### The encoder's steps -/

/-- R203: LOOKUP: the key is `H` of the four bytes at `cur` as a little-endian number, the candidate
what its slot holds; nothing else changes. -/
def Obligations.LookupReadsThePrefixSlot : Prop :=
  ∀ s : State, s.hostWaits → s.encoding → s.enc.step = .lookup → s.enc.cur + 4 ≤ s.regs.inLen →
    ∃ k : Word32,
      k.toNat =
          (s.inByte s.enc.cur).toNat + 256 * (s.inByte (s.enc.cur + 1)).toNat +
            65536 * (s.inByte (s.enc.cur + 2)).toNat +
            16777216 * (s.inByte (s.enc.cur + 3)).toNat ∧
        step s =
          .next
            { s with
              enc :=
                { s.enc with
                  key := keyOf s.cfg k, cand := cellsRead s.idx (keyOf s.cfg k), step := .verify } }

/-- R205: VERIFY: a hit is a candidate at most 65535 back whose four bytes agree with those at `cur`;
nothing else changes. -/
def Obligations.VerifyDecidesTheHit : Prop :=
  ∀ s : State, s.hostWaits → s.encoding → s.enc.step = .verify → s.enc.cur + 4 ≤ s.regs.inLen →
    (∀ c, s.enc.cand = some c → c < s.enc.cur) →
    ∃ hit : Bool,
      step s = .next { s with enc := { s.enc with hit := hit, step := .update } } ∧
        (hit = true ↔
          ∃ c, s.enc.cand = some c ∧ s.enc.cur - c ≤ 65535 ∧
            ∀ k < 4, s.inByte (c + k) = s.inByte (s.enc.cur + k))

/-- R204, R308: UPDATE, after the lookup: the slot just read gets `cur`, unless a match starts here
and INDEX_MATCH_START is off; every other slot, and everything but the index and the step, is as
before (`mlen` is set to 4 on a hit, the first line of EXTEND). -/
def Obligations.UpdateWritesTheSlotRead : Prop :=
  ∀ s : State, s.hostWaits → s.encoding → s.enc.step = .update →
    ∃ t, step s = .next t ∧
      (∀ slot,
        cellsRead t.idx slot =
          if slot = s.enc.key ∧ (s.enc.hit = false ∨ s.cfg.indexMatchStart = true) then
            some s.enc.cur
          else cellsRead s.idx slot) ∧
      t.enc =
        (if s.enc.hit then { s.enc with mlen := 4, step := .extend }
        else { s.enc with step := .advanceLiteral }) ∧
      t = { s with idx := t.idx, enc := t.enc }

/-- R206: EXTEND, run to its end from `mlen = 4` with a verified candidate: the bytes agree over
`mlen`, `mlen` is at least 4 and stays before `mlimit`, and it cannot be longer; nothing but `mlen` and
the step changes. -/
def Obligations.ExtendFindsTheWholeMatch : Prop :=
  ∀ (s : State) (c : Nat), s.hostWaits → s.encoding → s.enc.step = .extend → s.enc.mlen = 4 →
    s.enc.cand = some c → c < s.enc.cur → s.enc.cur + 4 ≤ s.enc.mlimit →
    s.enc.mlimit ≤ s.regs.inLen →
    (∀ k < 4, s.inByte (c + k) = s.inByte (s.enc.cur + k)) →
    ∃ k n, 4 ≤ n ∧ s.enc.cur + n ≤ s.enc.mlimit ∧
      (∀ j < n, s.inByte (c + j) = s.inByte (s.enc.cur + j)) ∧
      (s.enc.cur + n = s.enc.mlimit ∨ s.inByte (c + n) ≠ s.inByte (s.enc.cur + n)) ∧
      reaches k s { s with enc := { s.enc with mlen := n, step := .emitSeq } }

/-- R207, R212: EMIT_SEQ appends the sequence of the literals `IN[anchor .. cur-1]`, the offset
`cur - cand` and the match length `mlen`, where it fits OUT: the token byte, the literal-length escape
bytes, the literals, the offset's low and high byte, the match-length escape bytes. Every other byte
of OUT, and everything but OUT, `olen`, the scratch `acc` and the step, is as before. -/
def Obligations.EmitSeqAppendsTheSequence : Prop :=
  ∀ (s : State) (c : Nat), s.hostWaits → s.encoding → s.enc.step = .emitSeq →
    s.enc.cand = some c → c < s.enc.cur → s.enc.anchor ≤ s.enc.cur → s.enc.cur ≤ s.regs.inLen →
    ∀ lits xs, lits = s.inBytes s.enc.anchor (s.enc.cur - s.enc.anchor) →
      xs =
        joinNibbles (lencNibble lits.length) (lencNibble (s.enc.mlen - 4)) ::
          (lencEscapes lits.length ++ lits ++
            [BitVec.ofNat 8 (s.enc.cur - c), BitVec.ofNat 8 ((s.enc.cur - c) / 256)] ++
            lencEscapes (s.enc.mlen - 4)) →
      s.olen + xs.length ≤ s.cfg.outCap →
      ∃ t, step s = .next t ∧ Appended s t xs ∧ t.enc = { s.enc with step := .midIndex } ∧
        t.lc.b = s.lc.b ∧ t.lc.loop = s.lc.loop ∧
        t = { s with out := t.out, olen := t.olen, enc := t.enc, lc := t.lc }

/-- R208: MIDINDEX writes nothing with INDEX_MID_MATCH off; with it on, every slot afterwards holds
the last position strictly inside the match that has it (a whole prefix lying in the input), and what
it held before if none does; nothing else changes. -/
def Obligations.MidIndexWritesThePositionsInside : Prop :=
  ∀ s : State, s.hostWaits → s.encoding → s.enc.step = .midIndex →
    ∃ t, step s = .next t ∧ t.enc = { s.enc with step := .advanceMatch } ∧
      t = { s with idx := t.idx, enc := t.enc } ∧
      (s.cfg.indexMidMatch = false → t.idx = s.idx) ∧
      (s.cfg.indexMidMatch = true → ∀ slot,
        cellsRead t.idx slot =
          (((List.range' (s.enc.cur + 1) (s.enc.mlen - 1)).filter fun p =>
              decide (p + 4 ≤ s.regs.inLen) &&
                decide (keyOf s.cfg (prefix32 s.inByte p) = slot)).getLast?).or
            (cellsRead s.idx slot))

/-- R202, R209, R210: the loop's test and the two advances: a whole prefix before `mlimit` is looked
up, otherwise the scan ends; a match is stepped over and the literal run starts anew; a literal moves
`cur` by one. -/
def Obligations.ScanAndAdvance : Prop :=
  ∀ s : State, s.hostWaits → s.encoding →
    (s.enc.step = .scan →
        step s =
          .next
            { s with
              enc :=
                { s.enc with
                  step := if s.enc.cur + 4 ≤ s.enc.mlimit then .lookup else .flush } }) ∧
      (s.enc.step = .advanceMatch →
        step s =
          .next
            { s with
              enc :=
                { s.enc with
                  cur := s.enc.cur + s.enc.mlen, anchor := s.enc.cur + s.enc.mlen,
                  step := .scan } }) ∧
      (s.enc.step = .advanceLiteral →
        step s = .next { s with enc := { s.enc with cur := s.enc.cur + 1, step := .scan } })

/-- R211, R213, R214: FLUSH appends the last sequence with the literals `IN[anchor .. in_len-1]`
(token byte with low nibble 0, escape bytes, literals), where it fits OUT, and ends the operation in DONE with OUT_LEN the bytes written; every other byte of
OUT, and everything but the registers, OUT, `olen` and the scratch `acc`, is as before. -/
def Obligations.FlushEndsTheBlock : Prop :=
  ∀ s : State, s.hostWaits → s.encoding → s.enc.step = .flush → s.enc.anchor ≤ s.regs.inLen →
    ∀ lits xs, lits = s.inBytes s.enc.anchor (s.regs.inLen - s.enc.anchor) →
      xs = joinNibbles (lencNibble lits.length) 0#4 :: (lencEscapes lits.length ++ lits) →
      s.olen + xs.length ≤ s.cfg.outCap →
      ∃ t, step s = .next t ∧ Appended s t xs ∧
        t.regs = { s.regs with status := .done, outLen := s.olen + xs.length } ∧
        t.lc.b = s.lc.b ∧ t.lc.loop = s.lc.loop ∧
        t = { s with out := t.out, olen := t.olen, regs := t.regs, lc := t.lc }

/-! ### The host's accesses -/

/-- R257, R255, R31: a host read of CMD gives 0 and of STATUS its code, always; of the other registers
their values while not BUSY, also before the host has read that STATUS (R79; the model's choice,
log 21); nothing else changes. A register number above 6 is refused (U7; the model's choice, log 12).
The read may come by number or through the platform's map, which has register `n` at REG_BASE + n (the
model's choice, log 15). -/
def Obligations.RegisterReads : Prop :=
  ∀ (s : State) (n : Nat),
    (n < 7 → resolve s (s.cfg.regBase + n) = .ok (.reg n)) ∧
      ∀ rest : List HostMove, s.readsNext (.reg n) rest →
        let read (v : Nat) : Prop :=
          step s = .next { s with host := { script := rest, rdata := v } }
        (n = 0 → read 0) ∧
          (n = 1 → read s.regs.status.code) ∧
          (s.regs.status ≠ .busy →
            (n = 2 → read s.regs.cause.code) ∧ (n = 3 → read s.regs.inLen) ∧
              (n = 4 → read s.regs.outLen) ∧ (n = 5 → read s.regs.outLimit) ∧
              (n = 6 → read (if s.regs.limitEn then 1 else 0))) ∧
          (7 ≤ n → step s = .refused (.noSuchRegister n))

/-- R257, R38: a host write to a read-only register is ignored, also while BUSY; while not BUSY,
IN_LEN and OUT_LIMIT store the value (as many bits as they have, log 14) and CTRL its bit 0; nothing
else changes. Stops, the model's choices: a write to IN_LEN, OUT_LIMIT or CTRL while BUSY is refused
(R306, U4; log 11), and so is any write to a register number above 6 (U7; log 12). The write may come by
number or through the platform's map (log 15). -/
def Obligations.RegisterWrites : Prop :=
  ∀ (s : State) (n v : Nat) (rest : List HostMove), s.writesNext (.reg n) v rest →
    (n = 1 ∨ n = 2 ∨ n = 4 → step s = .next (setScript rest s)) ∧
      (s.regs.status ≠ .busy →
        (n = 3 →
            step s =
              .next
                { setScript rest s with
                  regs := { s.regs with inLen := v % 2 ^ s.cfg.lenw } }) ∧
          (n = 5 →
            step s =
              .next
                { setScript rest s with
                  regs := { s.regs with outLimit := v % 2 ^ s.cfg.lenw } }) ∧
          (n = 6 →
            step s =
              .next
                { setScript rest s with
                  regs := { s.regs with limitEn := decide (v % 2 = 1) } })) ∧
      (s.regs.status = .busy → n = 3 ∨ n = 5 ∨ n = 6 →
        step s = .refused (.hostWriteWhileBusy (.reg n))) ∧
      (7 ≤ n → step s = .refused (.noSuchRegister n))

/-- R70, R71: a host write to IN while not BUSY stores its byte at the address and leaves every other
byte, and everything else, as it was; that a value above 255 counts by its low eight bits is the model's
choice (log 22). Stops, the model's choices: a write at or above IN_CAP, where R70 has no address, is
the fault noSuchAddress (log 16); a write to IN while BUSY (R306, U4) and a write to OUT, in every state
(R70), are refused (log 11). Through the platform's map, IN[a] stands at IN_BASE + a where the map
has no register and no byte of OUT (log 15). -/
def Obligations.HostWritesInput : Prop :=
  ∀ (s : State) (a : Nat),
    (a < s.cfg.inCap → s.cfg.inBase + a < s.cfg.regBase ∨ s.cfg.regBase + 7 ≤ s.cfg.inBase + a →
        s.cfg.inBase + a < s.cfg.outBase ∨ s.cfg.outBase + s.cfg.outCap ≤ s.cfg.inBase + a →
        resolve s (s.cfg.inBase + a) = .ok (.inp a)) ∧
      ∀ (v : Nat) (rest : List HostMove),
        (s.writesNext (.inp a) v rest →
            (a < s.cfg.inCap → s.regs.status ≠ .busy →
                ∃ t, step s = .next t ∧ (t.inByte a).toNat = v % 256 ∧
                  (∀ x, x ≠ a → t.inByte x = s.inByte x) ∧
                  t = { setScript rest s with inp := t.inp }) ∧
              (a < s.cfg.inCap → s.regs.status = .busy →
                step s = .refused (.hostWriteWhileBusy (.inp a))) ∧
              (s.cfg.inCap ≤ a → step s = .fault (.noSuchAddress (.inp a)))) ∧
          (s.writesNext (.out a) v rest → step s = .refused (.hostWriteToOut a))

/-- R83: a host read, of whatever target and at whatever address of the platform's map, that answers
at all changes nothing but the value read and the model's own read counter (log 7). -/
def Obligations.ReadsHaveNoSideEffect : Prop :=
  ∀ (s t : State) (m : HostMove) (rest : List HostMove),
    (∃ target, m = .read target) ∨ (∃ addr, m = .busRead addr) →
    s.host.script = m :: rest → step s = .next t →
    t =
      { s with
        host := { script := rest, rdata := t.host.rdata }
        free := { s.free with reads := t.free.reads } }

/-- R256: after DONE a host read of OUT below OUT_LEN gives the result byte, also before the host has
read that STATUS (R79; the model's choice, log 21). Through the platform's map, OUT[a] stands at
OUT_BASE + a where the map has no register; where a byte of the input has the same address, the access
is refused (R81, U12; log 15). -/
def Obligations.ResultIsReadable : Prop :=
  ∀ (s : State) (a : Nat), a < s.cfg.outCap →
    (s.cfg.outBase + a < s.cfg.regBase ∨ s.cfg.regBase + 7 ≤ s.cfg.outBase + a →
        resolve s (s.cfg.outBase + a) =
          if s.cfg.inBase ≤ s.cfg.outBase + a ∧
              s.cfg.outBase + a < s.cfg.inBase + min s.regs.inLen s.cfg.inCap then
            .error .overlappingMap
          else .ok (.out a)) ∧
      ∀ rest : List HostMove, s.readsNext (.out a) rest → s.regs.status = .done →
        a < s.regs.outLen →
        step s = .next { s with host := { script := rest, rdata := (s.outByte a).toNat } }

/-! ### Reset -/

/-- R47, R300: after reset every host register is 0 (STATUS IDLE), at power-on and when the platform
applies reset in any state, BUSY included (R301); the parameters stay. -/
def Obligations.ResetClearsTheHostRegisters : Prop :=
  (State.reset.regs.status.code = 0 ∧ State.reset.regs.cause.code = 0 ∧
      State.reset.regs.inLen = 0 ∧ State.reset.regs.outLen = 0 ∧ State.reset.regs.outLimit = 0 ∧
      State.reset.regs.limitEn = false) ∧
    ∀ (s : State) (rest : List HostMove), s.host.script = .reset :: rest →
      ∃ t, step s = .next t ∧ t.regs = State.reset.regs ∧ t.cfg = s.cfg

/-- The model's invariant holds after reset (R47; the working registers' and memories' values are the
model's own, log 6, log 8). -/
def Obligations.ResetMeetsTheInvariant : Prop := Inv State.reset

/-! ### Invariants of every step -/

/-- The invariant of 20_memory.md and 10_state.md: memories in their canonical form and inside their
spaces, `ip` within the input (R41), `olen` within the limit (R171) and everything below it written
(R72), offsets legal (R165), index positions below the cursor (R201), the block in the size bound
(R217), CAUSE and OUT_LEN as STATUS says (R34, R36): every step from any state that meets it, the
host's moves and reset among them, gives a state that meets it. The case of reset (log 13) rests on the
model's choice of the working registers' and IDX's values after it (log 8), which R47 leaves
unspecified. -/
def Obligations.StepKeepsTheInvariant : Prop :=
  ∀ s t : State, Inv s → step s = .next t → Inv t

/-- R77: from every state that meets the invariant, the engine's own step answers a next state: none
of the model's faults, which guard R77's bounds, is ever reached by it. The premise of D25 is named: the
platform keeps the input and OUT apart. Where it does not, the step of a running operation is refused
(U12; log 15). -/
def Obligations.EngineStaysInBounds : Prop :=
  ∀ s e : State, Inv s → engineTurn s = some e →
    (e.apart → ∃ t, step s = .next t) ∧
      (¬e.apart → e.regs.status = .busy → step s = .refused .overlappingMap)

/-- R71, R80, R256: no step of the engine, whatever it runs, changes IN, IN_LEN, OUT_LIMIT or CTRL. -/
def Obligations.EngineNeverWritesItsInput : Prop :=
  ∀ s e t : State, engineTurn s = some e → step s = .next t →
    t.inp = s.inp ∧ t.regs.inLen = s.regs.inLen ∧ t.regs.outLimit = s.regs.outLimit ∧
      t.regs.limitEn = s.regs.limitEn

/-- R72: OUT is append-only: a step of the engine never lowers `olen` and leaves every byte below it
as it was. -/
def Obligations.OutIsAppendOnly : Prop :=
  ∀ s e t : State, engineTurn s = some e → step s = .next t →
    s.olen ≤ t.olen ∧ ∀ a, a < s.olen → t.outByte a = s.outByte a

/-! ### Whole operations -/

/-- R313, R178, R222: every operation ends: from every state that meets the invariant, while the host
waits and the platform keeps the input and OUT apart (D25), a running operation reaches DONE or ERROR in
finitely many steps. -/
def Obligations.EveryOperationEnds : Prop :=
  ∀ s : State, Inv s → s.hostWaits → s.apart → s.regs.status = .busy →
    ∃ n t, reaches n s t ∧ (t.regs.status = .done ∨ t.regs.status = .error)

/-- R181, R160 to R171: a DECOMPRESS that the host starts, the platform keeping the input and OUT apart
(D25), is the function `decode`: once the host's write is made it ends in DONE with exactly its bytes, or
in ERROR with exactly its cause and OUT_LEN 0; IN is unchanged. LDEC is R141's listing for every LENW,
below 4 too (log 23). -/
def Obligations.DecompressIsDecode : Prop :=
  ∀ s : State, s.regs.status ≠ .busy → s.regs.inLen ≤ s.cfg.inCap → s.apart →
    s.host.script = [.write (.reg 0) 1] →
    (∀ out, decodeBlock s.cfg.maxLen s.lim s.input = .ok out →
        ∃ n t, reaches n s t ∧ t.hostWaits ∧ t.regs.status = .done ∧ t.regs.cause = .none ∧
          t.output = out ∧ t.inp = s.inp) ∧
      ∀ c, decodeBlock s.cfg.maxLen s.lim s.input = .error c →
        ∃ n t, reaches n s t ∧ t.hostWaits ∧ t.regs.status = .error ∧ t.regs.cause = c ∧
          t.regs.outLen = 0 ∧ t.inp = s.inp

/-- R223, R200 to R214: a COMPRESS that the host starts, the platform keeping the input and OUT apart
(D25), is the function `encode`, for every value of the parameters: once the host's write is made it ends
in DONE with exactly its bytes; IN is unchanged. -/
def Obligations.CompressIsEncode : Prop :=
  ∀ s : State, s.regs.status ≠ .busy → s.regs.inLen ≤ s.cfg.inCap → s.apart →
    s.regs.inLen + s.regs.inLen / 255 + 2 ≤ s.cfg.outCap →
    s.host.script = [.write (.reg 0) 2] →
    ∃ n t, reaches n s t ∧ t.hostWaits ∧ t.regs.status = .done ∧ t.regs.cause = .none ∧
      t.output = encodeBlock s.cfg s.input ∧ t.inp = s.inp

/-- R7, R216: the round-trip law of the two functions, for every byte sequence and every value of the
parameters, under any limit that admits the sequence. -/
def Obligations.DecodeInvertsEncodeBlock : Prop :=
  ∀ (c : Config) (maxLen lim : Nat) (x : List Byte), x.length ≤ maxLen → x.length ≤ lim →
    decodeBlock maxLen lim (encodeBlock c x) = .ok x

/-- R7: the round-trip law on the machine: a COMPRESS of `x` ends, after the host's write, in DONE with
some `c`, and a DECOMPRESS of `c`, started in any state of the same engine whose input is `c` and whose
limit admits `x`, ends, after the host's write, in DONE with `x`. In both operations the platform keeps
the input and OUT apart (D25). -/
def Obligations.MachineRoundTrip : Prop :=
  ∀ s : State, s.cfg.Ok → s.regs.status ≠ .busy → s.regs.inLen ≤ s.cfg.inCap → s.apart →
    s.regs.inLen + s.regs.inLen / 255 + 2 ≤ s.cfg.outCap →
    s.host.script = [.write (.reg 0) 2] →
    ∃ n t, reaches n s t ∧ t.hostWaits ∧ t.regs.status = .done ∧
      ∀ u : State, u.cfg = s.cfg → u.regs.status ≠ .busy → u.input = t.output →
        u.regs.inLen ≤ u.cfg.inCap → u.apart → s.regs.inLen ≤ u.lim →
        u.host.script = [.write (.reg 0) 1] →
        ∃ m v, reaches m u v ∧ v.hostWaits ∧ v.regs.status = .done ∧ v.output = s.input

/-- R217: the size bound: a compressed block is at most `n + floor(n/255) + 2` bytes, for every input
and every value of the parameters. -/
def Obligations.BlockSizeBound : Prop :=
  ∀ (c : Config) (x : List Byte),
    (encodeBlock c x).length ≤ x.length + x.length / 255 + 2

/-- R8: determinism: two engines with the same parameters, the same input bytes, CTRL and OUT_LIMIT,
whatever else they hold (earlier results, working registers, stale memories), started with the same
command under a map that keeps the input and OUT apart (D25), end, the host's write made and the
operation over, with the same STATUS, CAUSE and result. -/
def Obligations.SameInputSameOutcome : Prop :=
  ∀ (s s' : State) (v : Nat), v = 1 ∨ v = 2 → s.cfg = s'.cfg → s.input = s'.input → s.apart →
    s.regs.limitEn = s'.regs.limitEn → s.regs.outLimit = s'.regs.outLimit →
    s.regs.status ≠ .busy → s'.regs.status ≠ .busy →
    s.host.script = [.write (.reg 0) v] → s'.host.script = [.write (.reg 0) v] →
    ∃ n n' t t', reaches n s t ∧ reaches n' s' t' ∧ t.hostWaits ∧ t'.hostWaits ∧
      (t.regs.status = .done ∨ t.regs.status = .error) ∧ t.regs.status = t'.regs.status ∧
      t.regs.cause = t'.regs.cause ∧ t.regs.outLen = t'.regs.outLen ∧ t.output = t'.output
end

