-- ==== Sys2Proof/Laws/Memory.lean ====
section
/-! SUPPORT. The laws of memories and of the index: a read after a write, and the canonical form kept
by every operation that changes a memory. -/

namespace Sys2Proof.Machine

variable {α : Type}

/-- A read after a write: the value written there, and what was there before everywhere else. -/
theorem cellsRead_cellsWrite (m : List (Nat × α)) (x y : Nat) (w : α) :
    cellsRead (cellsWrite m x w) y = if x = y then some w else cellsRead m y := by
  induction m with
  | nil => simp [cellsWrite, cellsRead]
  | cons p m ih =>
    obtain ⟨a, v⟩ := p
    unfold cellsWrite
    split
    · simp [cellsRead]
    · split
      · next h => subst h; simp only [cellsRead]; split <;> rfl
      · next h => simp only [cellsRead, ih]; split <;> split <;> simp_all

@[simp] theorem cellsRead_cellsWrite_self (m : List (Nat × α)) (x : Nat) (w : α) :
    cellsRead (cellsWrite m x w) x = some w := by simp [cellsRead_cellsWrite]

theorem cellsRead_cellsWrite_ne (m : List (Nat × α)) {x y : Nat} (w : α) (h : x ≠ y) :
    cellsRead (cellsWrite m x w) y = cellsRead m y := by simp [cellsRead_cellsWrite, h]

/-- The entries after a write are the new one and old ones. -/
theorem mem_cellsWrite {m : List (Nat × α)} {x : Nat} {w : α} {p : Nat × α}
    (h : p ∈ cellsWrite m x w) : p = (x, w) ∨ p ∈ m := by
  induction m with
  | nil => simpa [cellsWrite] using h
  | cons q m ih =>
    obtain ⟨a, v⟩ := q
    unfold cellsWrite at h
    split at h
    · simpa using h
    · split at h
      · rcases List.mem_cons.1 h with h | h
        · exact .inl h
        · exact .inr (List.mem_cons_of_mem _ h)
      · rcases List.mem_cons.1 h with h | h
        · exact .inr (h ▸ List.mem_cons_self ..)
        · exact (ih h).imp_right (List.mem_cons_of_mem _)

/-- What a read returns is an entry. -/
theorem mem_of_cellsRead {m : List (Nat × α)} {x : Nat} {v : α} (h : cellsRead m x = some v) :
    (x, v) ∈ m := by
  induction m with
  | nil => simp [cellsRead] at h
  | cons p m ih =>
    obtain ⟨a, u⟩ := p
    simp only [cellsRead] at h
    split at h
    · next e => cases h; subst e; exact List.mem_cons_self ..
    · exact List.mem_cons_of_mem _ (ih h)

/-- The canonical form says that addresses rise. -/
theorem cellsWf_iff {m : List (Nat × α)} : cellsWf m = true ↔ m.Pairwise (·.1 < ·.1) := by
  induction m with
  | nil => simp [cellsWf]
  | cons p m ih =>
    cases m with
    | nil => simp [cellsWf]
    | cons q m =>
      simp only [cellsWf, Bool.and_eq_true, decide_eq_true_eq, ih, List.pairwise_cons,
        List.mem_cons, forall_eq_or_imp]
      constructor
      · rintro ⟨h, hq, hm⟩
        exact ⟨⟨h, fun r hr => h.trans (hq r hr)⟩, hq, hm⟩
      · rintro ⟨⟨h, -⟩, hq, hm⟩
        exact ⟨h, hq, hm⟩

/-- Every write keeps the canonical form. -/
theorem cellsWf_cellsWrite {m : List (Nat × α)} (x : Nat) (w : α) (h : cellsWf m = true) :
    cellsWf (cellsWrite m x w) = true := by
  rw [cellsWf_iff] at h ⊢
  induction m with
  | nil => simp [cellsWrite]
  | cons p m ih =>
    obtain ⟨a, v⟩ := p
    obtain ⟨ha, hm⟩ := List.pairwise_cons.1 h
    unfold cellsWrite
    split
    · next hx =>
      refine List.pairwise_cons.2 ⟨fun q hq => ?_, h⟩
      rcases List.mem_cons.1 hq with rfl | hq
      · exact hx
      · exact hx.trans (ha q hq)
    · split
      · next hx => subst hx; exact List.pairwise_cons.2 ⟨ha, hm⟩
      · refine List.pairwise_cons.2 ⟨fun q hq => ?_, ih hm⟩
        rcases mem_cellsWrite hq with rfl | hq
        · simp only; omega
        · exact ha q hq

/-- In a canonical list two entries at one address are one. -/
theorem cellsRead_of_mem {m : List (Nat × α)} {x : Nat} {v : α} (hw : cellsWf m = true)
    (h : (x, v) ∈ m) : cellsRead m x = some v := by
  rw [cellsWf_iff] at hw
  induction m with
  | nil => simp at h
  | cons p m ih =>
    obtain ⟨a, u⟩ := p
    obtain ⟨ha, hm⟩ := List.pairwise_cons.1 hw
    rcases List.mem_cons.1 h with e | h
    · cases e; simp [cellsRead]
    · have : a ≠ x := (ha _ h).ne
      simpa [cellsRead, this] using ih hm h

/-- Equal contents are equal data: canonical lists that read alike are the same list. -/
theorem cells_ext {m n : List (Nat × α)} (hm : cellsWf m = true) (hn : cellsWf n = true)
    (h : ∀ x, cellsRead m x = cellsRead n x) : m = n := by
  rw [cellsWf_iff] at hm hn
  refine List.Pairwise.eq_of_mem_iff hm hn fun p => ?_
  constructor
  · intro hp
    exact mem_of_cellsRead (h p.1 ▸ cellsRead_of_mem (cellsWf_iff.2 hm) hp)
  · intro hp
    exact mem_of_cellsRead ((h p.1).symm ▸ cellsRead_of_mem (cellsWf_iff.2 hn) hp)

/-! ### The operations that change a memory -/

/-- A byte written to IN by the host keeps the canonical form. -/
theorem memory_wf_write {m : Memory} (a : Nat) (x : Byte) (h : m.wf = true) :
    Memory.wf (cellsWrite m a x) = true := cellsWf_cellsWrite a x h

/-- A position written to IDX keeps the canonical form. -/
theorem index_wf_write {x : Index} (k p : Nat) (h : x.wf = true) :
    Index.wf (cellsWrite x k p) = true := cellsWf_cellsWrite k p h

/-- Placing a word keeps the canonical form. -/
theorem memory_wf_storeBytes {m : Memory} (xs : List Byte) (a : Nat) (h : m.wf = true) :
    Memory.wf (storeBytes xs a m) = true := by
  induction xs generalizing a m with
  | nil => exact h
  | cons x xs ih => exact ih (a + 1) (memory_wf_write a x h)

/-- One position of MIDINDEX keeps the canonical form. -/
theorem index_wf_indexAt (c : Config) (byte : Nat → Byte) (len : Nat) {x : Index} (p : Nat)
    (h : x.wf = true) : Index.wf (indexAt c byte len x p) = true := by
  unfold indexAt
  split
  · exact index_wf_write _ _ h
  · exact h

/-- MIDINDEX keeps the canonical form. -/
theorem index_wf_indexRun (c : Config) (byte : Nat → Byte) (len n p : Nat) {x : Index}
    (h : x.wf = true) : Index.wf (indexRun c byte len n p x) = true := by
  induction n generalizing p x with
  | zero => exact h
  | succ n ih => exact ih (p + 1) (index_wf_indexAt c byte len p h)

/-- UPDATE keeps the canonical form. -/
theorem index_wf_updatedIndex (s : State) (h : s.idx.wf = true) :
    Index.wf (updatedIndex s) = true := by
  unfold updatedIndex
  split
  · exact index_wf_write _ _ h
  · exact h

end Sys2Proof.Machine
end

