-- ==== Sys2Proof/Laws/State.lean ====
section
/-! SUPPORT. One lemma per field of State for each named update, so that no proof unfolds an update,
and what the reads of memory see of it. -/

namespace Sys2Proof.Machine

variable (s : State)

/-! ### raise -/

@[simp] theorem raise_cfg (c : Cause) : (raise c s).cfg = s.cfg := rfl
@[simp] theorem raise_regs (c : Cause) :
    (raise c s).regs =
      { s.regs with cause := c, outLen := 0, status := .error } := rfl
@[simp] theorem raise_inp (c : Cause) : (raise c s).inp = s.inp := rfl
@[simp] theorem raise_out (c : Cause) : (raise c s).out = s.out := rfl
@[simp] theorem raise_idx (c : Cause) : (raise c s).idx = s.idx := rfl
@[simp] theorem raise_dec (c : Cause) : (raise c s).dec = s.dec := rfl
@[simp] theorem raise_lc (c : Cause) : (raise c s).lc = s.lc := rfl
@[simp] theorem raise_enc (c : Cause) : (raise c s).enc = s.enc := rfl
@[simp] theorem raise_olen (c : Cause) : (raise c s).olen = s.olen := rfl
@[simp] theorem raise_unit (c : Cause) : (raise c s).unit = s.unit := rfl
@[simp] theorem raise_host (c : Cause) : (raise c s).host = s.host := rfl
@[simp] theorem raise_free (c : Cause) : (raise c s).free = s.free := rfl
@[simp] theorem raise_inByte (c : Cause) (a : Nat) : (raise c s).inByte a = s.inByte a := rfl
@[simp] theorem raise_outByte (c : Cause) (a : Nat) : (raise c s).outByte a = s.outByte a := rfl

/-! ### stopDone -/

@[simp] theorem stopDone_cfg : (stopDone s).cfg = s.cfg := rfl
@[simp] theorem stopDone_regs : (stopDone s).regs = { s.regs with status := .done, outLen := s.olen } := rfl
@[simp] theorem stopDone_inp : (stopDone s).inp = s.inp := rfl
@[simp] theorem stopDone_out : (stopDone s).out = s.out := rfl
@[simp] theorem stopDone_idx : (stopDone s).idx = s.idx := rfl
@[simp] theorem stopDone_dec : (stopDone s).dec = s.dec := rfl
@[simp] theorem stopDone_lc : (stopDone s).lc = s.lc := rfl
@[simp] theorem stopDone_enc : (stopDone s).enc = s.enc := rfl
@[simp] theorem stopDone_olen : (stopDone s).olen = s.olen := rfl
@[simp] theorem stopDone_unit : (stopDone s).unit = s.unit := rfl
@[simp] theorem stopDone_host : (stopDone s).host = s.host := rfl
@[simp] theorem stopDone_free : (stopDone s).free = s.free := rfl
@[simp] theorem stopDone_inByte (a : Nat) : (stopDone s).inByte a = s.inByte a := rfl
@[simp] theorem stopDone_outByte (a : Nat) : (stopDone s).outByte a = s.outByte a := rfl

/-! ### putCell -/

@[simp] theorem putCell_cfg (x : Byte) : (putCell x s).cfg = s.cfg := rfl
@[simp] theorem putCell_regs (x : Byte) : (putCell x s).regs = s.regs := rfl
@[simp] theorem putCell_inp (x : Byte) : (putCell x s).inp = s.inp := rfl
@[simp] theorem putCell_out (x : Byte) : (putCell x s).out = cellsWrite s.out s.olen x := rfl
@[simp] theorem putCell_idx (x : Byte) : (putCell x s).idx = s.idx := rfl
@[simp] theorem putCell_dec (x : Byte) : (putCell x s).dec = s.dec := rfl
@[simp] theorem putCell_lc (x : Byte) : (putCell x s).lc = s.lc := rfl
@[simp] theorem putCell_enc (x : Byte) : (putCell x s).enc = s.enc := rfl
@[simp] theorem putCell_olen (x : Byte) : (putCell x s).olen = s.olen + 1 := rfl
@[simp] theorem putCell_unit (x : Byte) : (putCell x s).unit = s.unit := rfl
@[simp] theorem putCell_host (x : Byte) : (putCell x s).host = s.host := rfl
@[simp] theorem putCell_free (x : Byte) : (putCell x s).free = s.free := rfl
@[simp] theorem putCell_inByte (x : Byte) (a : Nat) : (putCell x s).inByte a = s.inByte a := rfl

/-! ### setPhase -/

@[simp] theorem setPhase_cfg (p : Phase) : (setPhase p s).cfg = s.cfg := rfl
@[simp] theorem setPhase_regs (p : Phase) : (setPhase p s).regs = s.regs := rfl
@[simp] theorem setPhase_inp (p : Phase) : (setPhase p s).inp = s.inp := rfl
@[simp] theorem setPhase_out (p : Phase) : (setPhase p s).out = s.out := rfl
@[simp] theorem setPhase_idx (p : Phase) : (setPhase p s).idx = s.idx := rfl
@[simp] theorem setPhase_dec (p : Phase) : (setPhase p s).dec = { s.dec with phase := p } := rfl
@[simp] theorem setPhase_lc (p : Phase) : (setPhase p s).lc = s.lc := rfl
@[simp] theorem setPhase_enc (p : Phase) : (setPhase p s).enc = s.enc := rfl
@[simp] theorem setPhase_olen (p : Phase) : (setPhase p s).olen = s.olen := rfl
@[simp] theorem setPhase_unit (p : Phase) : (setPhase p s).unit = s.unit := rfl
@[simp] theorem setPhase_host (p : Phase) : (setPhase p s).host = s.host := rfl
@[simp] theorem setPhase_free (p : Phase) : (setPhase p s).free = s.free := rfl
@[simp] theorem setPhase_inByte (p : Phase) (a : Nat) : (setPhase p s).inByte a = s.inByte a := rfl
@[simp] theorem setPhase_outByte (p : Phase) (a : Nat) : (setPhase p s).outByte a = s.outByte a := rfl

/-! ### setStep -/

@[simp] theorem setStep_cfg (e : EncStep) : (setStep e s).cfg = s.cfg := rfl
@[simp] theorem setStep_regs (e : EncStep) : (setStep e s).regs = s.regs := rfl
@[simp] theorem setStep_inp (e : EncStep) : (setStep e s).inp = s.inp := rfl
@[simp] theorem setStep_out (e : EncStep) : (setStep e s).out = s.out := rfl
@[simp] theorem setStep_idx (e : EncStep) : (setStep e s).idx = s.idx := rfl
@[simp] theorem setStep_dec (e : EncStep) : (setStep e s).dec = s.dec := rfl
@[simp] theorem setStep_lc (e : EncStep) : (setStep e s).lc = s.lc := rfl
@[simp] theorem setStep_enc (e : EncStep) : (setStep e s).enc = { s.enc with step := e } := rfl
@[simp] theorem setStep_olen (e : EncStep) : (setStep e s).olen = s.olen := rfl
@[simp] theorem setStep_unit (e : EncStep) : (setStep e s).unit = s.unit := rfl
@[simp] theorem setStep_host (e : EncStep) : (setStep e s).host = s.host := rfl
@[simp] theorem setStep_free (e : EncStep) : (setStep e s).free = s.free := rfl
@[simp] theorem setStep_inByte (e : EncStep) (a : Nat) : (setStep e s).inByte a = s.inByte a := rfl
@[simp] theorem setStep_outByte (e : EncStep) (a : Nat) : (setStep e s).outByte a = s.outByte a := rfl

/-! ### setScript -/

@[simp] theorem setScript_cfg (ms : List HostMove) : (setScript ms s).cfg = s.cfg := rfl
@[simp] theorem setScript_regs (ms : List HostMove) : (setScript ms s).regs = s.regs := rfl
@[simp] theorem setScript_inp (ms : List HostMove) : (setScript ms s).inp = s.inp := rfl
@[simp] theorem setScript_out (ms : List HostMove) : (setScript ms s).out = s.out := rfl
@[simp] theorem setScript_idx (ms : List HostMove) : (setScript ms s).idx = s.idx := rfl
@[simp] theorem setScript_dec (ms : List HostMove) : (setScript ms s).dec = s.dec := rfl
@[simp] theorem setScript_lc (ms : List HostMove) : (setScript ms s).lc = s.lc := rfl
@[simp] theorem setScript_enc (ms : List HostMove) : (setScript ms s).enc = s.enc := rfl
@[simp] theorem setScript_olen (ms : List HostMove) : (setScript ms s).olen = s.olen := rfl
@[simp] theorem setScript_unit (ms : List HostMove) : (setScript ms s).unit = s.unit := rfl
@[simp] theorem setScript_host (ms : List HostMove) :
    (setScript ms s).host =
      { s.host with script := ms } := rfl
@[simp] theorem setScript_free (ms : List HostMove) : (setScript ms s).free = s.free := rfl
@[simp] theorem setScript_inByte (ms : List HostMove) (a : Nat) : (setScript ms s).inByte a = s.inByte a := rfl
@[simp] theorem setScript_outByte (ms : List HostMove) (a : Nat) : (setScript ms s).outByte a = s.outByte a := rfl

/-! ### latchToken -/

@[simp] theorem latchToken_cfg (l m : Nibble) : (latchToken l m s).cfg = s.cfg := rfl
@[simp] theorem latchToken_regs (l m : Nibble) : (latchToken l m s).regs = s.regs := rfl
@[simp] theorem latchToken_inp (l m : Nibble) : (latchToken l m s).inp = s.inp := rfl
@[simp] theorem latchToken_out (l m : Nibble) : (latchToken l m s).out = s.out := rfl
@[simp] theorem latchToken_idx (l m : Nibble) : (latchToken l m s).idx = s.idx := rfl
@[simp] theorem latchToken_dec (l m : Nibble) :
    (latchToken l m s).dec =
      { s.dec with ip := s.dec.ip + 1, tok := joinNibbles l m, l := l, m := m, phase := .litLen } := rfl
@[simp] theorem latchToken_lc (l m : Nibble) : (latchToken l m s).lc = { s.lc with loop := .start } := rfl
@[simp] theorem latchToken_enc (l m : Nibble) : (latchToken l m s).enc = s.enc := rfl
@[simp] theorem latchToken_olen (l m : Nibble) : (latchToken l m s).olen = s.olen := rfl
@[simp] theorem latchToken_unit (l m : Nibble) : (latchToken l m s).unit = s.unit := rfl
@[simp] theorem latchToken_host (l m : Nibble) : (latchToken l m s).host = s.host := rfl
@[simp] theorem latchToken_free (l m : Nibble) : (latchToken l m s).free = s.free := rfl
@[simp] theorem latchToken_inByte (l m : Nibble) (a : Nat) : (latchToken l m s).inByte a = s.inByte a := rfl
@[simp] theorem latchToken_outByte (l m : Nibble) (a : Nat) : (latchToken l m s).outByte a = s.outByte a := rfl

/-! ### latchOffset -/

@[simp] theorem latchOffset_cfg (o : Offset) : (latchOffset o s).cfg = s.cfg := rfl
@[simp] theorem latchOffset_regs (o : Offset) : (latchOffset o s).regs = s.regs := rfl
@[simp] theorem latchOffset_inp (o : Offset) : (latchOffset o s).inp = s.inp := rfl
@[simp] theorem latchOffset_out (o : Offset) : (latchOffset o s).out = s.out := rfl
@[simp] theorem latchOffset_idx (o : Offset) : (latchOffset o s).idx = s.idx := rfl
@[simp] theorem latchOffset_dec (o : Offset) :
    (latchOffset o s).dec =
      { s.dec with ip := s.dec.ip + 2, off := o } := rfl
@[simp] theorem latchOffset_lc (o : Offset) : (latchOffset o s).lc = s.lc := rfl
@[simp] theorem latchOffset_enc (o : Offset) : (latchOffset o s).enc = s.enc := rfl
@[simp] theorem latchOffset_olen (o : Offset) : (latchOffset o s).olen = s.olen := rfl
@[simp] theorem latchOffset_unit (o : Offset) : (latchOffset o s).unit = s.unit := rfl
@[simp] theorem latchOffset_host (o : Offset) : (latchOffset o s).host = s.host := rfl
@[simp] theorem latchOffset_free (o : Offset) : (latchOffset o s).free = s.free := rfl
@[simp] theorem latchOffset_inByte (o : Offset) (a : Nat) : (latchOffset o s).inByte a = s.inByte a := rfl
@[simp] theorem latchOffset_outByte (o : Offset) (a : Nat) : (latchOffset o s).outByte a = s.outByte a := rfl

/-! ### ldecEnter -/

@[simp] theorem ldecEnter_cfg (nib : Nibble) : (ldecEnter nib s).cfg = s.cfg := rfl
@[simp] theorem ldecEnter_regs (nib : Nibble) : (ldecEnter nib s).regs = s.regs := rfl
@[simp] theorem ldecEnter_inp (nib : Nibble) : (ldecEnter nib s).inp = s.inp := rfl
@[simp] theorem ldecEnter_out (nib : Nibble) : (ldecEnter nib s).out = s.out := rfl
@[simp] theorem ldecEnter_idx (nib : Nibble) : (ldecEnter nib s).idx = s.idx := rfl
@[simp] theorem ldecEnter_dec (nib : Nibble) : (ldecEnter nib s).dec = s.dec := rfl
@[simp] theorem ldecEnter_lc (nib : Nibble) :
    (ldecEnter nib s).lc =
      { s.lc with acc := nib.toNat, loop := if nib = 15#4 then .more else .finished } := rfl
@[simp] theorem ldecEnter_enc (nib : Nibble) : (ldecEnter nib s).enc = s.enc := rfl
@[simp] theorem ldecEnter_olen (nib : Nibble) : (ldecEnter nib s).olen = s.olen := rfl
@[simp] theorem ldecEnter_unit (nib : Nibble) : (ldecEnter nib s).unit = s.unit := rfl
@[simp] theorem ldecEnter_host (nib : Nibble) : (ldecEnter nib s).host = s.host := rfl
@[simp] theorem ldecEnter_free (nib : Nibble) : (ldecEnter nib s).free = s.free := rfl
@[simp] theorem ldecEnter_inByte (nib : Nibble) (a : Nat) : (ldecEnter nib s).inByte a = s.inByte a := rfl
@[simp] theorem ldecEnter_outByte (nib : Nibble) (a : Nat) : (ldecEnter nib s).outByte a = s.outByte a := rfl

/-! ### commitLitLen -/

@[simp] theorem commitLitLen_cfg : (commitLitLen s).cfg = s.cfg := rfl
@[simp] theorem commitLitLen_regs : (commitLitLen s).regs = s.regs := rfl
@[simp] theorem commitLitLen_inp : (commitLitLen s).inp = s.inp := rfl
@[simp] theorem commitLitLen_out : (commitLitLen s).out = s.out := rfl
@[simp] theorem commitLitLen_idx : (commitLitLen s).idx = s.idx := rfl
@[simp] theorem commitLitLen_dec :
    (commitLitLen s).dec =
      { s.dec with litLen := s.lc.acc, left := s.lc.acc, phase := .litCopy } := rfl
@[simp] theorem commitLitLen_lc : (commitLitLen s).lc = s.lc := rfl
@[simp] theorem commitLitLen_enc : (commitLitLen s).enc = s.enc := rfl
@[simp] theorem commitLitLen_olen : (commitLitLen s).olen = s.olen := rfl
@[simp] theorem commitLitLen_unit : (commitLitLen s).unit = s.unit := rfl
@[simp] theorem commitLitLen_host : (commitLitLen s).host = s.host := rfl
@[simp] theorem commitLitLen_free : (commitLitLen s).free = s.free := rfl
@[simp] theorem commitLitLen_inByte (a : Nat) : (commitLitLen s).inByte a = s.inByte a := rfl
@[simp] theorem commitLitLen_outByte (a : Nat) : (commitLitLen s).outByte a = s.outByte a := rfl

/-! ### refuseStart -/

@[simp] theorem refuseStart_cfg : (refuseStart s).cfg = s.cfg := rfl
@[simp] theorem refuseStart_regs :
    (refuseStart s).regs =
      { s.regs with cause := .limit, outLen := 0, status := .error } := rfl
@[simp] theorem refuseStart_inp : (refuseStart s).inp = s.inp := rfl
@[simp] theorem refuseStart_out : (refuseStart s).out = s.out := rfl
@[simp] theorem refuseStart_idx : (refuseStart s).idx = s.idx := rfl
@[simp] theorem refuseStart_dec : (refuseStart s).dec = s.dec := rfl
@[simp] theorem refuseStart_lc : (refuseStart s).lc = s.lc := rfl
@[simp] theorem refuseStart_enc : (refuseStart s).enc = s.enc := rfl
@[simp] theorem refuseStart_olen : (refuseStart s).olen = s.olen := rfl
@[simp] theorem refuseStart_unit : (refuseStart s).unit = s.unit := rfl
@[simp] theorem refuseStart_host : (refuseStart s).host = s.host := rfl
@[simp] theorem refuseStart_free : (refuseStart s).free = s.free := rfl
@[simp] theorem refuseStart_inByte (a : Nat) : (refuseStart s).inByte a = s.inByte a := rfl
@[simp] theorem refuseStart_outByte (a : Nat) : (refuseStart s).outByte a = s.outByte a := rfl

/-! ### startDecoder -/

@[simp] theorem startDecoder_cfg : (startDecoder s).cfg = s.cfg := rfl
@[simp] theorem startDecoder_regs :
    (startDecoder s).regs =
      { s.regs with cause := .none, outLen := 0, status := .busy } := rfl
@[simp] theorem startDecoder_inp : (startDecoder s).inp = s.inp := rfl
@[simp] theorem startDecoder_out : (startDecoder s).out = s.out := rfl
@[simp] theorem startDecoder_idx : (startDecoder s).idx = s.idx := rfl
@[simp] theorem startDecoder_dec : (startDecoder s).dec = { s.dec with ip := 0, phase := .token } := rfl
@[simp] theorem startDecoder_lc : (startDecoder s).lc = s.lc := rfl
@[simp] theorem startDecoder_enc : (startDecoder s).enc = s.enc := rfl
@[simp] theorem startDecoder_olen : (startDecoder s).olen = 0 := rfl
@[simp] theorem startDecoder_unit : (startDecoder s).unit = .dec := rfl
@[simp] theorem startDecoder_host : (startDecoder s).host = s.host := rfl
@[simp] theorem startDecoder_free : (startDecoder s).free = s.free := rfl
@[simp] theorem startDecoder_inByte (a : Nat) : (startDecoder s).inByte a = s.inByte a := rfl
@[simp] theorem startDecoder_outByte (a : Nat) : (startDecoder s).outByte a = s.outByte a := rfl

/-! ### startEncoder -/

@[simp] theorem startEncoder_cfg : (startEncoder s).cfg = s.cfg := rfl
@[simp] theorem startEncoder_regs :
    (startEncoder s).regs =
      { s.regs with cause := .none, outLen := 0, status := .busy } := rfl
@[simp] theorem startEncoder_inp : (startEncoder s).inp = s.inp := rfl
@[simp] theorem startEncoder_out : (startEncoder s).out = s.out := rfl
@[simp] theorem startEncoder_idx : (startEncoder s).idx = [] := rfl
@[simp] theorem startEncoder_dec : (startEncoder s).dec = s.dec := rfl
@[simp] theorem startEncoder_lc : (startEncoder s).lc = s.lc := rfl
@[simp] theorem startEncoder_enc :
    (startEncoder s).enc =
      { s.enc with cur := 0, anchor := 0, mlimit := s.regs.inLen - s.cfg.endMargin, step := .scan } := rfl
@[simp] theorem startEncoder_olen : (startEncoder s).olen = 0 := rfl
@[simp] theorem startEncoder_unit : (startEncoder s).unit = .enc := rfl
@[simp] theorem startEncoder_host : (startEncoder s).host = s.host := rfl
@[simp] theorem startEncoder_free : (startEncoder s).free = s.free := rfl
@[simp] theorem startEncoder_inByte (a : Nat) : (startEncoder s).inByte a = s.inByte a := rfl
@[simp] theorem startEncoder_outByte (a : Nat) : (startEncoder s).outByte a = s.outByte a := rfl

/-! ### answer -/

@[simp] theorem answer_cfg (v : Nat) : (answer v s).cfg = s.cfg := rfl
@[simp] theorem answer_regs (v : Nat) : (answer v s).regs = s.regs := rfl
@[simp] theorem answer_inp (v : Nat) : (answer v s).inp = s.inp := rfl
@[simp] theorem answer_out (v : Nat) : (answer v s).out = s.out := rfl
@[simp] theorem answer_idx (v : Nat) : (answer v s).idx = s.idx := rfl
@[simp] theorem answer_dec (v : Nat) : (answer v s).dec = s.dec := rfl
@[simp] theorem answer_lc (v : Nat) : (answer v s).lc = s.lc := rfl
@[simp] theorem answer_enc (v : Nat) : (answer v s).enc = s.enc := rfl
@[simp] theorem answer_olen (v : Nat) : (answer v s).olen = s.olen := rfl
@[simp] theorem answer_unit (v : Nat) : (answer v s).unit = s.unit := rfl
@[simp] theorem answer_host (v : Nat) : (answer v s).host = { s.host with rdata := v } := rfl
@[simp] theorem answer_free (v : Nat) : (answer v s).free = s.free := rfl
@[simp] theorem answer_inByte (v : Nat) (a : Nat) : (answer v s).inByte a = s.inByte a := rfl
@[simp] theorem answer_outByte (v : Nat) (a : Nat) : (answer v s).outByte a = s.outByte a := rfl

end Sys2Proof.Machine
end

