-- ==== Sys2Proof/Laws/Ops.lean ====
section
/-! SUPPORT. For each shared operation, everything it can do: the provers cite these instead of
unfolding. -/

namespace Sys2Proof.Machine

/-! ### Results in sequence -/

@[simp] theorem andThen_next (s : State) (f : State → Result) : andThen (.next s) f = f s := rfl

/-- `andThen` answers a next state only through one. -/
theorem andThen_eq_next {r : Result} {f : State → Result} {t : State} :
    andThen r f = .next t ↔ ∃ s, r = .next s ∧ f s = .next t := by
  cases r <;> simp [andThen]

/-- `needIn` answers a next state only within IN_LEN. -/
theorem needIn_eq_next {n : Nat} {s t : State} {r : Result} :
    needIn n s r = .next t ↔ n ≤ s.regs.inLen ∧ r = .next t := by
  unfold needIn
  split <;> simp_all

theorem needIn_of_le {n : Nat} {s : State} {r : Result} (h : n ≤ s.regs.inLen) :
    needIn n s r = r := by simp [needIn, h]

/-- `withCand` answers a next state only with a candidate below `cur`. -/
theorem withCand_eq_next {s t : State} {f : Nat → Result} :
    withCand s f = .next t ↔ ∃ c, s.enc.cand = some c ∧ c < s.enc.cur ∧ f c = .next t := by
  unfold withCand
  split
  · next c h => split <;> simp_all
  · next h => simp [h]

theorem withCand_of_some {s : State} {f : Nat → Result} {c : Nat} (h : s.enc.cand = some c)
    (hc : c < s.enc.cur) : withCand s f = f c := by simp [withCand, h, hc]

/-! ### OUT -/

/-- OUT after one `put`. -/
@[simp] theorem putCell_outByte (x : Byte) (s : State) (a : Nat) :
    (putCell x s).outByte a = if a = s.olen then x else s.outByte a := by
  by_cases h : a = s.olen
  · simp [State.outByte, h]
  · simp [State.outByte, cellsRead_cellsWrite, h, Ne.symm h]

/-- `put` answers a next state exactly below OUT_CAP. -/
theorem put_eq_next {x : Byte} {s t : State} :
    put x s = .next t ↔ s.olen < s.cfg.outCap ∧ putCell x s = t := by
  unfold put
  split <;> simp_all

theorem put_of_lt {x : Byte} {s : State} (h : s.olen < s.cfg.outCap) :
    put x s = .next (putCell x s) := by simp [put, h]

/-- All the bytes put, whatever the capacity. -/
def putCells (xs : List Byte) (s : State) : State := xs.foldl (fun s x => putCell x s) s

@[simp] theorem putCells_nil (s : State) : putCells [] s = s := rfl

@[simp] theorem putCells_cons (x : Byte) (xs : List Byte) (s : State) :
    putCells (x :: xs) s = putCells xs (putCell x s) := rfl

/-- `putAll` answers the state with all the bytes put, exactly where they fit OUT. -/
theorem putAll_of_le {xs : List Byte} {s : State} (h : s.olen + xs.length ≤ s.cfg.outCap) :
    putAll xs s = .next (putCells xs s) := by
  induction xs generalizing s with
  | nil => rfl
  | cons x xs ih =>
    simp only [List.length_cons] at h
    rw [putAll, put_of_lt (by omega), andThen_next, ih (by simp; omega), putCells_cons]

theorem putAll_eq_next {xs : List Byte} {s t : State} (h : putAll xs s = .next t) :
    t = putCells xs s ∧ (xs = [] ∨ s.olen + xs.length ≤ s.cfg.outCap) := by
  induction xs generalizing s with
  | nil => simp [putAll] at h; simp [h]
  | cons x xs ih =>
    obtain ⟨u, hu, ht⟩ := andThen_eq_next.1 h
    obtain ⟨hlt, rfl⟩ := put_eq_next.1 hu
    obtain ⟨rfl, hcap⟩ := ih ht
    refine ⟨rfl, .inr ?_⟩
    rcases hcap with rfl | hcap
    · simpa using hlt
    · simp only [putCell_olen, putCell_cfg] at hcap
      simp only [List.length_cons]; omega

/-- Putting bytes changes OUT and `olen` alone. -/
theorem putCells_fields (xs : List Byte) (s : State) :
    putCells xs s = { s with out := (putCells xs s).out, olen := s.olen + xs.length } := by
  induction xs generalizing s with
  | nil => rfl
  | cons x xs ih =>
    rw [putCells_cons, ih]
    simp only [putCell, List.length_cons, State.mk.injEq, true_and, and_true]
    omega

@[simp] theorem putCells_cfg (xs : List Byte) (s : State) : (putCells xs s).cfg = s.cfg := by
  rw [putCells_fields]
@[simp] theorem putCells_regs (xs : List Byte) (s : State) : (putCells xs s).regs = s.regs := by
  rw [putCells_fields]
@[simp] theorem putCells_inp (xs : List Byte) (s : State) : (putCells xs s).inp = s.inp := by
  rw [putCells_fields]
@[simp] theorem putCells_idx (xs : List Byte) (s : State) : (putCells xs s).idx = s.idx := by
  rw [putCells_fields]
@[simp] theorem putCells_dec (xs : List Byte) (s : State) : (putCells xs s).dec = s.dec := by
  rw [putCells_fields]
@[simp] theorem putCells_lc (xs : List Byte) (s : State) : (putCells xs s).lc = s.lc := by
  rw [putCells_fields]
@[simp] theorem putCells_enc (xs : List Byte) (s : State) : (putCells xs s).enc = s.enc := by
  rw [putCells_fields]
@[simp] theorem putCells_olen (xs : List Byte) (s : State) :
    (putCells xs s).olen = s.olen + xs.length := by rw [putCells_fields]
@[simp] theorem putCells_unit (xs : List Byte) (s : State) : (putCells xs s).unit = s.unit := by
  rw [putCells_fields]
@[simp] theorem putCells_host (xs : List Byte) (s : State) : (putCells xs s).host = s.host := by
  rw [putCells_fields]
@[simp] theorem putCells_free (xs : List Byte) (s : State) : (putCells xs s).free = s.free := by
  rw [putCells_fields]

@[simp] theorem putCells_inByte (xs : List Byte) (s : State) (a : Nat) :
    (putCells xs s).inByte a = s.inByte a := by rw [putCells_fields]; rfl

/-- OUT after many `put`s: the bytes in order from `olen` on, and nothing else (R72, R212). -/
theorem putCells_outByte (xs : List Byte) (s : State) (a : Nat) :
    (putCells xs s).outByte a =
      if s.olen ≤ a ∧ a < s.olen + xs.length then xs.getD (a - s.olen) 0#8 else s.outByte a := by
  induction xs generalizing s with
  | nil => simp only [putCells_nil, List.length_nil]; rw [if_neg (by omega)]
  | cons x xs ih =>
    rw [putCells_cons, ih]
    simp only [putCell_olen, putCell_outByte, List.length_cons]
    by_cases h0 : a = s.olen
    · subst h0
      rw [if_neg (by omega), if_pos rfl, if_pos (by omega)]
      simp
    · rw [if_neg h0]
      by_cases h1 : s.olen + 1 ≤ a ∧ a < s.olen + 1 + xs.length
      · rw [if_pos h1, if_pos (by omega), show a - s.olen = (a - (s.olen + 1)) + 1 by omega,
          List.getD_cons_succ]
      · rw [if_neg h1, if_neg (by omega)]

/-- The canonical form of OUT is kept by `put`. -/
theorem memory_wf_putCells (xs : List Byte) (s : State) (h : s.out.wf = true) :
    (putCells xs s).out.wf = true := by
  induction xs generalizing s with
  | nil => exact h
  | cons x xs ih => exact ih _ (memory_wf_write _ _ h)

/-- Every address `put` lists is an old one or one of those written. -/
theorem putCells_bound {xs : List Byte} {s : State} {p : Host.Cell} (h : p ∈ (putCells xs s).out) :
    p ∈ s.out ∨ (s.olen ≤ p.1 ∧ p.1 < s.olen + xs.length) := by
  induction xs generalizing s with
  | nil => exact .inl h
  | cons x xs ih =>
    rcases ih h with h | ⟨h, h'⟩
    · rcases mem_cellsWrite h with rfl | h
      · exact .inr (by simp)
      · exact .inl h
    · simp only [putCell_olen] at h h'
      simp only [List.length_cons]
      exact .inr (by omega)

/-- What was written below `olen` stays written, and `put` writes the next bytes. -/
theorem outWritten_putCells {xs : List Byte} {s : State}
    (hw : ∀ a < s.olen, (cellsRead s.out a).isSome) :
    ∀ a < s.olen + xs.length, (cellsRead (putCells xs s).out a).isSome := by
  induction xs generalizing s with
  | nil => simpa using hw
  | cons x xs ih =>
    have key : ∀ a < (putCell x s).olen, (cellsRead (putCell x s).out a).isSome := by
      intro a ha
      simp only [putCell_olen] at ha
      simp only [putCell_out, cellsRead_cellsWrite]
      split
      · rfl
      · exact hw a (by omega)
    intro a ha
    exact ih key a (by simp only [putCell_olen]; simp only [List.length_cons] at ha; omega)

end Sys2Proof.Machine
end

