-- ==== Sys2Proof/Laws/Codec.lean ====
section
/-! SUPPORT. The length codec: the closed form of LENC's loop, one turn of LDEC's, and what a sequence
costs in bytes. -/

namespace Sys2Proof.Machine

/-- LENC's loop in closed form: `acc / 255` bytes 255 and the remainder (R108, R140). -/
theorem lencLoop_eq {fuel acc : Nat} (h : acc ≤ fuel) :
    lencLoop fuel acc =
      List.replicate (acc / 255) 255#8 ++ [BitVec.ofNat 8 (acc % 255)] := by
  induction fuel generalizing acc with
  | zero =>
    obtain rfl : acc = 0 := by omega
    rfl
  | succ fuel ih =>
    unfold lencLoop
    split
    · next h255 =>
      rw [ih (by omega)]
      have hd : acc / 255 = (acc - 255) / 255 + 1 := by omega
      have hm : acc % 255 = (acc - 255) % 255 := by omega
      rw [hd, hm, List.replicate_succ, List.cons_append]
    · next h255 =>
      have hd : acc / 255 = 0 := by omega
      have hm : acc % 255 = acc := by omega
      simp [hd, hm]

theorem lencEscapes_of_lt {n : Nat} (h : n < 15) : lencEscapes n = [] := by
  simp [lencEscapes, h]

theorem lencEscapes_of_le {n : Nat} (h : 15 ≤ n) :
    lencEscapes n =
      List.replicate ((n - 15) / 255) 255#8 ++ [BitVec.ofNat 8 ((n - 15) % 255)] := by
  rw [lencEscapes, if_neg (by omega), lencLoop_eq (by omega)]

/-- The nibble LENC gives is `min(n, 15)` (R101). -/
theorem lencNibble_toNat (n : Nat) : (lencNibble n).toNat = min n 15 := by
  unfold lencNibble
  split
  · simp only [BitVec.toNat_ofNat]; omega
  · simp only [BitVec.toNat_ofNat]; omega

/-- One turn of LDEC's loop on a byte below 255. -/
theorem ldecLoop_stop {maxLen acc : Nat} {x : Byte} {rest : List Byte} (hx : x ≠ 255#8)
    (h : acc + x.toNat ≤ maxLen) :
    ldecLoop maxLen (x :: rest) acc = .ok (acc + x.toNat, rest) := by
  rw [ldecLoop, if_neg (by omega), if_neg hx]

/-- One turn of LDEC's loop on the byte 255. -/
theorem ldecLoop_cont {maxLen acc : Nat} {rest : List Byte} (h : acc + 255 ≤ maxLen) :
    ldecLoop maxLen (255#8 :: rest) acc = ldecLoop maxLen rest (acc + 255) := by
  rw [ldecLoop, if_neg (by simpa using h), if_pos rfl]
  rfl

/-- A sequence with a match is `1 + e(l) + l + 2 + e(m-4)` bytes (R105, R217). -/
theorem seqBytes_length (lits : List Byte) (off : Offset) (m : Nat) :
    (seqBytes lits off m).length =
      3 + (lencEscapes lits.length).length + lits.length + (lencEscapes (m - 4)).length := by
  simp only [seqBytes, List.length_cons, List.length_append, List.length_nil]
  omega

/-- The last sequence is `1 + e(l) + l` bytes (R105, R217). -/
theorem lastBytes_length (lits : List Byte) :
    (lastBytes lits).length = 1 + (lencEscapes lits.length).length + lits.length := by
  simp only [lastBytes, List.length_cons, List.length_append]
  omega

@[simp] theorem inBytes_length (s : State) (a n : Nat) : (s.inBytes a n).length = n := by
  simp [State.inBytes]

@[simp] theorem outBytes_length (s : State) (a n : Nat) : (s.outBytes a n).length = n := by
  simp [State.outBytes]

end Sys2Proof.Machine
end

