-- ==== Sys2Proof/Laws/Decode.lean ====
section
/-! SUPPORT. What the decoder can answer, and the bit facts of nibbles and offsets. -/

namespace Sys2Proof

/-- The nibbles of a byte made of two nibbles are these. -/
@[simp] theorem hiNibble_joinNibbles (h l : Nibble) : hiNibble (joinNibbles h l) = h := by
  revert h l; decide

@[simp] theorem loNibble_joinNibbles (h l : Nibble) : loNibble (joinNibbles h l) = l := by
  revert h l; decide

/-- A byte is made of its nibbles. -/
@[simp] theorem joinNibbles_nibbles (b : Byte) : joinNibbles (hiNibble b) (loNibble b) = b := by
  revert b; decide

/-- An offset is `lo + 256*hi` (R74, R104). -/
theorem joinOffset_toNat (lo hi : Byte) : (joinOffset lo hi).toNat = lo.toNat + 256 * hi.toNat := by
  have h := lo.isLt
  rw [joinOffset, BitVec.toNat_append, ← Nat.shiftLeft_add_eq_or_of_lt h, Nat.shiftLeft_eq]
  omega

/-- Everything the decoder can answer: one element of the context's row, from the bytes of its
width. -/
theorem decode_cases {c : Context} {bs rest : List Byte} {i : Instr} (h : decode c bs = .ok i rest) :
    (c = .token ∧ ∃ b, bs = b :: rest ∧ i = decodeToken b) ∨
      (c = .escape ∧ ∃ b, bs = b :: rest ∧ i = decodeEscape b) ∨
      (c = .literal ∧ ∃ b, bs = b :: rest ∧ i = .lit b) ∨
      (c = .command ∧ ∃ b, bs = b :: rest ∧ i = decodeCommand b) ∨
      (c = .offset ∧ ∃ lo hi, bs = lo :: hi :: rest ∧ i = .offset (joinOffset lo hi)) := by
  match c, bs with
  | .token, [] => simp [decode] at h
  | .token, b :: r => simp only [decode, Decoded.ok.injEq] at h; simp [h.1, h.2]
  | .escape, [] => simp [decode] at h
  | .escape, b :: r => simp only [decode, Decoded.ok.injEq] at h; simp [h.1, h.2]
  | .literal, [] => simp [decode] at h
  | .literal, b :: r => simp only [decode, Decoded.ok.injEq] at h; simp [h.1, h.2]
  | .command, [] => simp [decode] at h
  | .command, b :: r => simp only [decode, Decoded.ok.injEq] at h; simp [h.1, h.2]
  | .offset, [] => simp [decode] at h
  | .offset, [_] => simp [decode] at h
  | .offset, lo :: hi :: r => simp only [decode, Decoded.ok.injEq] at h; simp [h.1, h.2]

/-- A token byte decodes to a well-formed token form (R101: all 256 are legal). -/
theorem decodeToken_sound (b : Byte) :
    (decodeToken b).wellFormed = true ∧ (decodeToken b).context = .token := by
  revert b; decide

/-- An escape byte decodes to a well-formed escape form (R102). -/
theorem decodeEscape_sound (b : Byte) :
    (decodeEscape b).wellFormed = true ∧ (decodeEscape b).context = .escape := by
  revert b; decide

/-- A byte written to CMD decodes to a well-formed command (R112). -/
theorem decodeCommand_sound (b : Byte) :
    (decodeCommand b).wellFormed = true ∧ (decodeCommand b).context = .command := by
  revert b; decide

end Sys2Proof
end

