-- ==== Sys2Proof/Laws/Step.lean ====
section
/-! SUPPORT. What one step can be: the engine's move or the host's, and what each of them can do. -/

namespace Sys2Proof.Machine

/-- The result of a move. -/
def runMove : Move → Result
  | .instr i t => exec i t
  | .internal r => r

@[simp] theorem runMove_instr (i : Instr) (t : State) : runMove (.instr i t) = exec i t := rfl
@[simp] theorem runMove_internal (r : Result) : runMove (.internal r) = r := rfl

/-- A step is the next move made. -/
theorem step_eq (s : State) : step s = runMove (nextMove s) := by
  unfold step runMove; cases nextMove s <;> rfl

/-- On the engine's turn a step is the engine's move. -/
theorem step_engine {s e : State} (h : engineTurn s = some e) : step s = runMove (engineMove e) := by
  rw [step_eq, nextMove, h]

/-- Otherwise it is the host's next move. -/
theorem step_host {s : State} {m : HostMove} {rest : List HostMove} (h : engineTurn s = none)
    (hs : s.host.script = m :: rest) : step s = runMove (hostMove m (setScript rest s)) := by
  rw [step_eq, nextMove, h]
  simp only [hs]

/-- It is the engine's turn, or the host has a move. -/
theorem turn_cases (s : State) :
    (∃ e, engineTurn s = some e ∧ (e = s ∨ ∃ rest, s.host.script = .run :: rest ∧ e = setScript rest s)) ∨
      (engineTurn s = none ∧ ∃ m rest, s.host.script = m :: rest) := by
  unfold engineTurn
  split
  · exact .inl ⟨s, rfl, .inl rfl⟩
  · next rest h => exact .inl ⟨_, rfl, .inr ⟨rest, h, rfl⟩⟩
  · next rest h =>
    split
    · exact .inl ⟨s, rfl, .inl rfl⟩
    · exact .inr ⟨rfl, _, _, h⟩
  · next h1 h2 h3 =>
    refine .inr ⟨rfl, ?_⟩
    cases hs : s.host.script with
    | nil => exact absurd hs h1
    | cons m rest => exact ⟨m, rest, rfl⟩

/-- While the host waits it is the engine's turn. -/
theorem engineTurn_of_waits {s : State} (h : s.hostWaits) : engineTurn s = some s := by
  unfold engineTurn
  rw [show s.host.script = [] from h]

/-- The engine's move while a DECOMPRESS runs. -/
theorem engineMove_decoding {s : State} (h : s.decoding) : engineMove s = decoderMove s := by
  obtain ⟨hb, hu, hc, ha⟩ := h
  simp [engineMove, hb, hu, hc, ha]

/-- The engine's move while a COMPRESS runs. -/
theorem engineMove_encoding {s : State} (h : s.encoding) :
    engineMove s = .internal (encoderStep s) := by
  obtain ⟨hb, hu, hc, ha⟩ := h
  simp [engineMove, hb, hu, hc, ha]

/-- An operation under a map that lets its input and OUT overlap is refused (U12). -/
theorem engineMove_overlap {s : State} (hb : s.regs.status = .busy)
    (hc : s.regs.inLen ≤ s.cfg.inCap) (ha : ¬s.apart) :
    engineMove s = .internal (.refused .overlappingMap) := by simp [engineMove, hb, hc, ha]

/-- The engine does nothing while not BUSY (R289, R302). -/
theorem engineMove_idle {s : State} (h : s.regs.status ≠ .busy) :
    engineMove s = .internal (.next s) := by simp [engineMove, h]

/-- Every engine move is one of these. -/
theorem engineMove_cases (s : State) :
    (s.regs.status ≠ .busy ∧ engineMove s = .internal (.next s)) ∨
      (s.decoding ∧ engineMove s = decoderMove s) ∨
      (s.encoding ∧ engineMove s = .internal (encoderStep s)) ∨
      (s.regs.status = .busy ∧ s.regs.inLen ≤ s.cfg.inCap ∧ ¬s.apart ∧
        engineMove s = .internal (.refused .overlappingMap)) ∨
      (s.regs.status = .busy ∧ s.cfg.inCap < s.regs.inLen ∧
        engineMove s = .internal (.fault .inputBeyondMemory)) := by
  by_cases hb : s.regs.status = .busy
  · by_cases hc : s.regs.inLen ≤ s.cfg.inCap
    · by_cases ha : s.apart
      · cases hu : s.unit
        · exact .inr (.inl ⟨⟨hb, hu, hc, ha⟩, engineMove_decoding ⟨hb, hu, hc, ha⟩⟩)
        · exact .inr (.inr (.inl ⟨⟨hb, hu, hc, ha⟩, engineMove_encoding ⟨hb, hu, hc, ha⟩⟩))
      · exact .inr (.inr (.inr (.inl ⟨hb, hc, ha, engineMove_overlap hb hc ha⟩)))
    · exact .inr (.inr (.inr (.inr ⟨hb, by omega, by simp [engineMove, hb, hc]⟩)))
  · exact .inl ⟨hb, engineMove_idle hb⟩

/-! ### The host's reads and writes, by number and through the map -/

/-- The input and OUT overlap exactly where one address has a byte of both (R81, R309). -/
theorem mapOverlaps_iff {s : State} :
    mapOverlaps s = true ↔
      ∃ addr, (s.cfg.inBase ≤ addr ∧ addr < s.cfg.inBase + s.inputBytes) ∧
        s.cfg.outBase ≤ addr ∧ addr < s.cfg.outBase + s.cfg.outCap := by
  rw [mapOverlaps, decide_eq_true_iff]
  exact ⟨fun h => ⟨max s.cfg.inBase s.cfg.outBase, by omega, by omega⟩, fun ⟨a, h, h'⟩ => by omega⟩

/-- Without an overlap the map refuses no address for one. -/
theorem resolve_ne_overlap {s : State} (h : s.apart) (addr : Nat) :
    resolve s addr ≠ .error .overlappingMap := by
  unfold resolve
  split
  · simp
  · split
    · next ho =>
      split
      · next hi => exact absurd (mapOverlaps_iff.2 ⟨addr, hi, ho⟩) (by simp [h])
      · simp
    · split <;> simp

@[simp] theorem resolve_setScript (ms : List HostMove) (s : State) (addr : Nat) :
    resolve (setScript ms s) addr = resolve s addr := rfl

/-- What a move through the map is: the move on the target, or the refusal. -/
theorem onBus_of_resolve {s : State} {addr : Nat} {t : Target} (h : resolve s addr = .ok t)
    (f : Target → Move) : onBus addr s f = f t := by rw [onBus, h]

/-- A host read of a target is that read, whichever way it comes. -/
theorem step_of_readsNext {s : State} {t : Target} {rest : List HostMove} (h : s.readsNext t rest) :
    step s = hostRead t (setScript rest s) := by
  rcases h with h | ⟨addr, h, hr⟩
  · rw [step_host (by simp [engineTurn, h]) h]; rfl
  · rw [step_host (by simp [engineTurn, h]) h, hostMove, onBus_of_resolve (t := t) (by simpa using hr)]
    rfl

/-- A host write of a target is that write, whichever way it comes. -/
theorem step_of_writesNext {s : State} {t : Target} {v : Nat} {rest : List HostMove}
    (h : s.writesNext t v rest) : step s = runMove (hostWrite t v (setScript rest s)) := by
  rcases h with h | ⟨addr, h, hr⟩
  · rw [step_host (by simp [engineTurn, h]) h]; rfl
  · rw [step_host (by simp [engineTurn, h]) h, hostMove, onBus_of_resolve (t := t) (by simpa using hr)]

/-! ### The window and the elements read from it -/

/-- The window is the next two bytes, one, or none (R71). -/
theorem window_cases (s : State) :
    (s.regs.inLen ≤ s.dec.ip ∧ window s = []) ∨
      (s.regs.inLen = s.dec.ip + 1 ∧ window s = [s.inByte s.dec.ip]) ∨
      (s.dec.ip + 2 ≤ s.regs.inLen ∧
        window s = [s.inByte s.dec.ip, s.inByte (s.dec.ip + 1)]) := by
  rcases Nat.lt_or_ge s.dec.ip s.regs.inLen with h | h
  · rcases Nat.lt_or_ge (s.dec.ip + 1) s.regs.inLen with h' | h'
    · refine .inr (.inr ⟨by omega, ?_⟩)
      rw [window, show min 2 (s.regs.inLen - s.dec.ip) = 2 by omega]
      rfl
    · refine .inr (.inl ⟨by omega, ?_⟩)
      rw [window, show min 2 (s.regs.inLen - s.dec.ip) = 1 by omega]
      rfl
  · refine .inl ⟨h, ?_⟩
    rw [window, show min 2 (s.regs.inLen - s.dec.ip) = 0 by omega]
    rfl

/-- Reading an element in a one-byte context: the error if no byte is left, else the element of the
byte at `ip`. -/
theorem readElement_token (s : State) :
    (s.regs.inLen ≤ s.dec.ip ∧ readElement .token s = .internal (.next (raise .truncField s))) ∨
      (s.dec.ip < s.regs.inLen ∧
        readElement .token s = .instr (decodeToken (s.inByte s.dec.ip)) s) := by
  rcases window_cases s with ⟨h, w⟩ | ⟨h, w⟩ | ⟨h, w⟩
  · exact .inl ⟨h, by simp [readElement, w, decode, missing]⟩
  · exact .inr ⟨by omega, by simp [readElement, w, decode]⟩
  · exact .inr ⟨by omega, by simp [readElement, w, decode]⟩

theorem readElement_escape (s : State) :
    (s.regs.inLen ≤ s.dec.ip ∧ readElement .escape s = .internal (.next (raise .truncEscape s))) ∨
      (s.dec.ip < s.regs.inLen ∧
        readElement .escape s = .instr (decodeEscape (s.inByte s.dec.ip)) s) := by
  rcases window_cases s with ⟨h, w⟩ | ⟨h, w⟩ | ⟨h, w⟩
  · exact .inl ⟨h, by simp [readElement, w, decode, missing]⟩
  · exact .inr ⟨by omega, by simp [readElement, w, decode]⟩
  · exact .inr ⟨by omega, by simp [readElement, w, decode]⟩

theorem readElement_literal (s : State) :
    (s.regs.inLen ≤ s.dec.ip ∧ readElement .literal s = .internal (.next (raise .truncLiteral s))) ∨
      (s.dec.ip < s.regs.inLen ∧ readElement .literal s = .instr (.lit (s.inByte s.dec.ip)) s) := by
  rcases window_cases s with ⟨h, w⟩ | ⟨h, w⟩ | ⟨h, w⟩
  · exact .inl ⟨h, by simp [readElement, w, decode, missing]⟩
  · exact .inr ⟨by omega, by simp [readElement, w, decode]⟩
  · exact .inr ⟨by omega, by simp [readElement, w, decode]⟩

/-- Reading the offset: the error if fewer than two bytes are left (R165). -/
theorem readElement_offset (s : State) :
    (s.regs.inLen < s.dec.ip + 2 ∧
        readElement .offset s = .internal (.next (raise .truncField s))) ∨
      (s.dec.ip + 2 ≤ s.regs.inLen ∧
        readElement .offset s =
          .instr (.offset (joinOffset (s.inByte s.dec.ip) (s.inByte (s.dec.ip + 1)))) s) := by
  rcases window_cases s with ⟨h, w⟩ | ⟨h, w⟩ | ⟨h, w⟩
  · exact .inl ⟨by omega, by simp [readElement, w, decode, missing]⟩
  · exact .inl ⟨by omega, by simp [readElement, w, decode, missing]⟩
  · exact .inr ⟨h, by simp [readElement, w, decode]⟩

/-- A token byte runs as the latch of its nibbles, whatever row it matches (R161). -/
theorem exec_decodeToken (x : Byte) (s : State) :
    exec (decodeToken x) s = .next (latchToken (hiNibble x) (loNibble x) s) := by
  have hxx : x &&& 0xFF#8 = 0xFF#8 → hiNibble x = 15#4 ∧ loNibble x = 15#4 := by
    revert x; decide
  have hxs : x &&& 0xF0#8 = 0xF0#8 → hiNibble x = 15#4 := by revert x; decide
  have hsx : x &&& 0x0F#8 = 0x0F#8 → loNibble x = 15#4 := by revert x; decide
  unfold decodeToken
  split
  · next h => obtain ⟨h1, h2⟩ := hxx h; rw [h1, h2]; rfl
  · split
    · next h => rw [hxs h]; rfl
    · split
      · next h => rw [hsx h]; rfl
      · rfl

/-- An escape byte runs as one turn of LDEC's loop (R143, R144). -/
theorem exec_decodeEscape (x : Byte) (s : State) :
    exec (decodeEscape x) s = .next (escapeByte x (if x = 255#8 then .more else .finished) s) := by
  have h : x &&& 0xFF#8 = x := by revert x; decide
  unfold decodeEscape
  rw [h]
  split
  · next e => subst e; rfl
  · rfl

/-! ### The two outcomes of the operations that test -/

/-- One turn of LDEC's loop: OVERFLOW, or the sum (R141, R146). -/
theorem escapeByte_cases (x : Byte) (next : LdecLoop) (s : State) :
    (s.cfg.maxLen < s.lc.acc + x.toNat ∧
        escapeByte x next s =
          raise .overflow
            { s with dec := { s.dec with ip := s.dec.ip + 1 }, lc := { s.lc with b := x } }) ∨
      (s.lc.acc + x.toNat ≤ s.cfg.maxLen ∧
        escapeByte x next s =
          { s with
            dec := { s.dec with ip := s.dec.ip + 1 }
            lc := { acc := s.lc.acc + x.toNat, b := x, loop := next } }) := by
  unfold escapeByte overflows
  by_cases h : s.cfg.maxLen < s.lc.acc + x.toNat
  · exact .inl ⟨h, by simp [h]⟩
  · exact .inr ⟨by omega, by simp [h]⟩

/-- The end of MATCHLEN: OVERFLOW, or the length (R166). -/
theorem commitMatLen_cases (s : State) :
    (s.cfg.maxLen < s.lc.acc + 4 ∧ commitMatLen s = raise .overflow s) ∨
      (s.lc.acc + 4 ≤ s.cfg.maxLen ∧
        commitMatLen s =
          { s with
            dec := { s.dec with matLen := s.lc.acc + 4, left := s.lc.acc + 4, phase := .matchCopy } }) := by
  unfold commitMatLen overflows
  by_cases h : s.cfg.maxLen < s.lc.acc + 4
  · exact .inl ⟨h, by simp [h]⟩
  · exact .inr ⟨by omega, by simp [h]⟩

/-- A literal: within OUT_CAP its byte is appended and one fewer is due (R176). -/
theorem execLit_of_lt {b : Byte} {s : State} (h : s.olen < s.cfg.outCap) :
    exec (.lit b) s =
      .next
        { putCell b s with dec := { s.dec with ip := s.dec.ip + 1, left := s.dec.left - 1 } } := by
  show execLit b s = _
  rw [execLit, put_of_lt h]
  rfl

/-- An offset: BAD_OFFSET, or MATCHLEN is next (R165). -/
theorem execOffset_cases (o : Offset) (s : State) :
    ((o = 0#16 ∨ s.olen < o.toNat) ∧
        exec (.offset o) s = .next (raise .badOffset (latchOffset o s))) ∨
      (o ≠ 0#16 ∧ o.toNat ≤ s.olen ∧
        exec (.offset o) s =
          .next
            { s with
              dec := { s.dec with ip := s.dec.ip + 2, off := o, phase := .matchLen }
              lc := { s.lc with loop := .start } }) := by
  by_cases h0 : o = 0#16
  · exact .inl ⟨.inl h0, by simp [exec, execOffset, h0]⟩
  · by_cases h1 : s.olen < o.toNat
    · exact .inl ⟨.inr h1, by simp [exec, execOffset, h0, h1]⟩
    · refine .inr ⟨h0, by omega, ?_⟩
      simp only [exec, execOffset, h0, h1, if_false]
      rfl

end Sys2Proof.Machine
end

