-- ==== Sys2Proof/Laws/Keeps.lean ====
section
/-! SUPPORT. The invariant under the updates the engine makes: a step that changes only a unit's
working registers, that appends a byte, or that ends the operation. Also the bounds the encoder's
steps live on. -/

namespace Sys2Proof.Machine

/-- `lim` never exceeds OUT_CAP (R171). -/
theorem lim_le (s : State) : s.lim ≤ s.cfg.outCap := by unfold State.lim; split <;> omega

/-- A slot of the index is below IDX_SLOTS (R77 d). -/
theorem keyOf_lt {c : Config} (h : 1 ≤ c.idxSlots) (k : Word32) : keyOf c k < c.idxSlots := by
  unfold keyOf; split <;> exact Nat.mod_lt _ h

/-- LENC writes `e(n)` escape bytes (used for R217's count). -/
theorem lencEscapes_length_eq (n : Nat) :
    (lencEscapes n).length = if n < 15 then 0 else (n - 15) / 255 + 1 := by
  split
  · next h => simp [lencEscapes_of_lt h]
  · next h => simp [lencEscapes_of_le (Nat.le_of_not_lt h)]

/-- A sequence with a match stays in the budget of the bytes it covers (R217). -/
theorem seqBytes_budget {lits : List Byte} {off : Offset} {m a o : Nat} (hm : 4 ≤ m)
    (ho : o ≤ outBudget a) :
    o + (seqBytes lits off m).length ≤ outBudget (a + lits.length + m) := by
  rw [seqBytes_length, lencEscapes_length_eq, lencEscapes_length_eq]
  unfold outBudget at *
  split <;> split <;> omega

/-- The last sequence stays in the size bound of the whole (R217). -/
theorem lastBytes_budget {lits : List Byte} {a o : Nat} (ho : o ≤ outBudget a) :
    o + (lastBytes lits).length ≤ sizeBound (a + lits.length) := by
  rw [lastBytes_length, lencEscapes_length_eq]
  unfold outBudget at ho
  unfold sizeBound
  split <;> omega

/-- MIDINDEX adds positions strictly inside the match, at slots of the index, and nothing else
(R208). -/
theorem mem_indexRun {c : Config} {byte : Nat → Byte} {len n p : Nat} {x : Index} {q : Nat × Nat}
    (h : q ∈ indexRun c byte len n p x) :
    q ∈ x ∨ (p ≤ q.2 ∧ q.2 < p + n ∧ ∃ k, q.1 = keyOf c k) := by
  induction n generalizing p x with
  | zero => exact .inl h
  | succ n ih =>
    rcases ih h with h | ⟨h1, h2, h3⟩
    · unfold indexAt at h
      split at h
      · rcases mem_cellsWrite h with rfl | h
        · exact .inr ⟨le_refl _, by simp, _, rfl⟩
        · exact .inl h
      · exact .inl h
    · exact .inr ⟨by omega, by omega, h3⟩

/-- UPDATE adds `cur` at the slot `key`, and nothing else (R204). -/
theorem mem_updatedIndex {s : State} {q : Nat × Nat} (h : q ∈ updatedIndex s) :
    q = (s.enc.key, s.enc.cur) ∨ q ∈ s.idx := by
  unfold updatedIndex at h
  split at h
  · exact mem_cellsWrite h
  · exact .inr h

/-! ### Updates that keep the invariant -/

/-- A state that is not BUSY, with memories and registers in order, needs no more. -/
theorem Inv.notBusy {t : State} (hcfg : t.cfg.Ok) (hmem : MemOk t) (htok : TokOk t)
    (hregs : RegsOk t) (hb : t.regs.status ≠ .busy) : Inv t :=
  ⟨hcfg, hmem, htok, hregs, fun h => absurd h hb, fun h => absurd h hb⟩

/-- Error entry keeps the invariant, also after a change of decoder and codec registers alone. -/
theorem Inv.raise {s t : State} (h : Inv s) {c : Cause} (hc : c ≠ .none) (hcfg : t.cfg = s.cfg)
    (hregs : t.regs = s.regs) (hinp : t.inp = s.inp) (hout : t.out = s.out) (hidx : t.idx = s.idx)
    (htok : TokOk t) : Inv (Machine.raise c t) := by
  refine Inv.notBusy (by simpa [hcfg] using h.cfgOk) ?_ ⟨htok.high, htok.low⟩ ?_ (by simp)
  · exact ⟨by simpa [hinp] using h.mem.inpWf, by simpa [hout] using h.mem.outWf,
      by simpa [hidx] using h.mem.idxWf, by simpa [hinp, hcfg] using h.mem.inpBound,
      by simpa [hout, hcfg] using h.mem.outBound, by simpa [hidx, hcfg] using h.mem.idxBound⟩
  · exact ⟨by simpa [hregs, hcfg] using h.regs.inLenFits,
      by simpa [hregs, hcfg] using h.regs.outLimitFits, by simp [hc], by simp, by simp,
      fun a ha => by simp at ha⟩

/-- A step of the decoder that changes its own and the codec's registers alone. -/
theorem Inv.ofDec {s t : State} (h : Inv s) (hb : s.decoding) (hcfg : t.cfg = s.cfg)
    (hregs : t.regs = s.regs) (hinp : t.inp = s.inp) (hout : t.out = s.out) (hidx : t.idx = s.idx)
    (holen : t.olen = s.olen) (hunit : t.unit = s.unit) (htok : TokOk t)
    (hip : t.dec.ip ≤ s.regs.inLen) (hlast : t.dec.phase = .offset → t.dec.ip < s.regs.inLen)
    (hoff : t.dec.phase = .matchLen ∨ t.dec.phase = .matchCopy →
      t.dec.off ≠ 0#16 ∧ t.dec.off.toNat ≤ s.olen) : Inv t := by
  have hd := h.dec hb.1 hb.2.1
  have hlim : t.lim = s.lim := by simp [State.lim, hregs, hcfg]
  refine ⟨hcfg ▸ h.cfgOk, ?_, htok, ?_, fun _ _ => ?_, fun _ hu => ?_⟩
  · exact ⟨hinp ▸ h.mem.inpWf, hout ▸ h.mem.outWf, hidx ▸ h.mem.idxWf,
      by rw [hinp, hcfg]; exact h.mem.inpBound, by rw [hout, hcfg]; exact h.mem.outBound,
      by rw [hidx, hcfg]; exact h.mem.idxBound⟩
  · refine ⟨?_, ?_, ?_, ?_, ?_, ?_⟩
    · rw [hregs, hcfg]; exact h.regs.inLenFits
    · rw [hregs, hcfg]; exact h.regs.outLimitFits
    · rw [hregs]; exact h.regs.causeIff
    · rw [hregs]; exact h.regs.noResult
    · rw [hregs, hcfg]; exact h.regs.resultFits
    · intro a ha; rw [hout]; exact h.regs.resultWritten a (hregs ▸ ha)
  · refine ⟨?_, ?_, ?_, ?_, ?_, ?_⟩
    · rw [hregs, hcfg]; exact hd.inFits
    · rw [hregs]; exact hip
    · rw [hlim, holen]; exact hd.olenBound
    · intro a ha; rw [hout]; exact hd.written a (holen ▸ ha)
    · rw [hregs]; exact hlast
    · rw [holen]; exact hoff
  · rw [hunit, hb.2.1] at hu; cases hu

/-- A step of the decoder that appends one byte inside the limit. -/
theorem Inv.putDec {s : State} (h : Inv s) (hb : s.decoding) (x : Byte) (hl : s.olen < s.lim)
    {d : DecRegs} (hphase : d.phase = s.dec.phase) (htok : d.tok = s.dec.tok) (hdl : d.l = s.dec.l)
    (hdm : d.m = s.dec.m) (hoff : d.off = s.dec.off) (hp : s.dec.phase ≠ .offset)
    (hip : d.ip ≤ s.regs.inLen) : Inv { putCell x s with dec := d } := by
  have hd := h.dec hb.1 hb.2.1
  have hlim := lim_le s
  refine ⟨h.cfgOk, ?_, ⟨by simp [htok, hdl, h.tok.high], by simp [htok, hdm, h.tok.low]⟩, ?_,
    fun _ _ => ?_, fun _ hu => ?_⟩
  · refine ⟨h.mem.inpWf, memory_wf_write _ _ h.mem.outWf, h.mem.idxWf, h.mem.inpBound, ?_,
      h.mem.idxBound⟩
    intro p hp
    rcases mem_cellsWrite hp with rfl | hp
    · show s.olen < s.cfg.outCap
      omega
    · exact h.mem.outBound p hp
  · refine ⟨h.regs.inLenFits, h.regs.outLimitFits, h.regs.causeIff, h.regs.noResult,
      h.regs.resultFits, ?_⟩
    have h0 : s.regs.outLen = 0 := h.regs.noResult (by rw [hb.1]; decide)
    intro a ha
    simp [h0] at ha
  · refine ⟨hd.inFits, hip, ?_, outWritten_putCells (xs := [x]) hd.written, ?_, ?_⟩
    · show s.olen + 1 ≤ s.lim
      omega
    · intro hq; exact absurd (hphase ▸ hq) hp
    · intro hq
      have := hd.legalOff (by simpa only [hphase] using hq)
      show d.off ≠ 0#16 ∧ d.off.toNat ≤ s.olen + 1
      rw [hoff]
      exact ⟨this.1, by omega⟩
  · exact absurd (hb.2.1.symm.trans hu) (by decide)

/-- A step of the encoder that changes its own registers and the index alone. -/
theorem Inv.ofEnc {s t : State} (h : Inv s) (hb : s.encoding) (hcfg : t.cfg = s.cfg)
    (hregs : t.regs = s.regs) (hinp : t.inp = s.inp) (hdec : t.dec = s.dec) (hout : t.out = s.out)
    (holen : t.olen = s.olen) (hunit : t.unit = s.unit) (hwf : t.idx.wf = true)
    (hslots : ∀ p ∈ t.idx, p.1 < s.cfg.idxSlots) (hlim : t.enc.mlimit = s.enc.mlimit)
    (hanchor : t.enc.anchor ≤ t.enc.cur) (hcur : t.enc.cur ≤ s.regs.inLen) (hst : stepOk t) :
    Inv t := by
  have he := h.enc hb.1 hb.2.1
  refine ⟨hcfg ▸ h.cfgOk, ?_, ⟨by rw [hdec]; exact h.tok.high, by rw [hdec]; exact h.tok.low⟩, ?_,
    fun _ hu => ?_, fun _ _ => ?_⟩
  · exact ⟨hinp ▸ h.mem.inpWf, hout ▸ h.mem.outWf, hwf, by rw [hinp, hcfg]; exact h.mem.inpBound,
      by rw [hout, hcfg]; exact h.mem.outBound, by rw [hcfg]; exact hslots⟩
  · refine ⟨?_, ?_, ?_, ?_, ?_, ?_⟩
    · rw [hregs, hcfg]; exact h.regs.inLenFits
    · rw [hregs, hcfg]; exact h.regs.outLimitFits
    · rw [hregs]; exact h.regs.causeIff
    · rw [hregs]; exact h.regs.noResult
    · rw [hregs, hcfg]; exact h.regs.resultFits
    · intro a ha; rw [hout]; exact h.regs.resultWritten a (hregs ▸ ha)
  · rw [hunit, hb.2.1] at hu; cases hu
  · refine ⟨?_, ?_, ?_, hanchor, ?_, ?_, hst⟩
    · rw [hregs, hcfg]; exact he.inFits
    · rw [hregs, hcfg]; exact he.outFits
    · rw [hregs, hcfg, hlim]; exact he.limitIs
    · rw [hregs]; exact hcur
    · intro a ha; rw [hout]; exact he.written a (holen ▸ ha)

/-- Taking a move off the script keeps the invariant. -/
theorem Inv.setScript {s : State} (h : Inv s) (ms : List HostMove) : Inv (Machine.setScript ms s) :=
  ⟨h.cfgOk, ⟨h.mem.inpWf, h.mem.outWf, h.mem.idxWf, h.mem.inpBound, h.mem.outBound, h.mem.idxBound⟩,
    ⟨h.tok.high, h.tok.low⟩,
    ⟨h.regs.inLenFits, h.regs.outLimitFits, h.regs.causeIff, h.regs.noResult, h.regs.resultFits,
      h.regs.resultWritten⟩,
    fun hb hu =>
      let d := h.dec hb hu
      ⟨d.inFits, d.ipBound, d.olenBound, d.written, d.notLast, d.legalOff⟩,
    fun hb hu =>
      let e := h.enc hb hu
      ⟨e.inFits, e.outFits, e.limitIs, e.anchorLe, e.curLe, e.written, e.atStep⟩⟩

end Sys2Proof.Machine
end

