-- ==== Sys2Proof/Laws/PerInstr.lean ====
section
/-! SUPPORT. The per-instruction family DecodeSound: an instruction that the decoder answers is well
formed and belongs to the context it was read in. -/

namespace Sys2Proof.Laws.DecodeSound

/-- Whatever bytes the decoder reads as `i`, `i` is well formed and of the context it was read in. -/
def Statement (i : Instr) : Prop :=
  ∀ c bs rest, decode c bs = .ok i rest → i.wellFormed = true ∧ i.context = c

/-- The family holds of every instruction, because it holds of every row. -/
theorem of_decode (i : Instr) : Statement i := by
  intro c bs rest h
  rcases decode_cases h with ⟨rfl, b, -, rfl⟩ | ⟨rfl, b, -, rfl⟩ | ⟨rfl, b, -, rfl⟩ |
    ⟨rfl, b, -, rfl⟩ | ⟨rfl, lo, hi, -, rfl⟩
  · exact decodeToken_sound b
  · exact decodeEscape_sound b
  · exact ⟨rfl, rfl⟩
  · exact decodeCommand_sound b
  · exact ⟨rfl, rfl⟩

theorem tokXX : Statement .tokXX := of_decode _

theorem tokXS (m : Nibble) : Statement (.tokXS m) := of_decode _

theorem tokSX (l : Nibble) : Statement (.tokSX l) := of_decode _

theorem tokSS (l m : Nibble) : Statement (.tokSS l m) := of_decode _

theorem escCont : Statement .escCont := of_decode _

theorem escStop (v : Byte) : Statement (.escStop v) := of_decode _

theorem lit (b : Byte) : Statement (.lit b) := of_decode _

theorem offset (o : Offset) : Statement (.offset o) := of_decode _

theorem cmdNop (v : Byte) : Statement (.cmdNop v) := of_decode _

theorem cmdStartDecompress : Statement .cmdStartDecompress := of_decode _

theorem cmdStartCompress : Statement .cmdStartCompress := of_decode _

theorem cmdClear : Statement .cmdClear := of_decode _

end Sys2Proof.Laws.DecodeSound
end

