-- ==== Sys2Proof/Laws/Run.lean ====
section
/-! SUPPORT. Runs of several steps: how they compose, and induction packaged once. -/

namespace Sys2Proof.Machine

@[simp] theorem reaches_zero {s t : State} : reaches 0 s t ↔ s = t :=
  ⟨fun h => Host.Outcome.next.inj h, fun h => congrArg Host.Outcome.next h⟩

theorem run_of_next {M : Host.Core} {n : Nat} {s u : M.State} (h : M.step s = .next u) :
    M.run (n + 1) s = M.run n u := by simp [Host.Core.run, h]

theorem run_of_fault {M : Host.Core} {n : Nat} {s : M.State} {r : M.Fault} (h : M.step s = .fault r) :
    M.run (n + 1) s = .fault r := by simp [Host.Core.run, h]

theorem run_of_refused {M : Host.Core} {n : Nat} {s : M.State} {r : M.Refusal}
    (h : M.step s = .refused r) : M.run (n + 1) s = .refused r := by simp [Host.Core.run, h]

/-- One step and then the rest. -/
theorem reaches_succ {n : Nat} {s t : State} :
    reaches (n + 1) s t ↔ ∃ u, step s = .next u ∧ reaches n u t := by
  unfold reaches
  cases h : step s with
  | next u =>
    rw [run_of_next (M := Sys2Proof.core) (u := u) h]
    exact ⟨fun h => ⟨u, rfl, h⟩, fun ⟨v, hv, h⟩ => by cases hv; exact h⟩
  | fault r =>
    rw [run_of_fault (M := Sys2Proof.core) h]
    exact ⟨fun h => (nomatch h), fun ⟨v, hv, _⟩ => (nomatch hv)⟩
  | refused r =>
    rw [run_of_refused (M := Sys2Proof.core) h]
    exact ⟨fun h => (nomatch h), fun ⟨v, hv, _⟩ => (nomatch hv)⟩

theorem reaches_of_step {n : Nat} {s u t : State} (h : step s = .next u) (hr : reaches n u t) :
    reaches (n + 1) s t := reaches_succ.2 ⟨u, h, hr⟩

theorem reaches_one {s t : State} (h : step s = .next t) : reaches 1 s t :=
  reaches_of_step h (reaches_zero.2 rfl)

/-- Two runs in sequence are one. -/
theorem reaches_trans {m n : Nat} {s u t : State} (h : reaches m s u) (h' : reaches n u t) :
    reaches (m + n) s t := by
  induction m generalizing s with
  | zero => rw [reaches_zero] at h; subst h; simpa using h'
  | succ m ih =>
    obtain ⟨v, hv, hr⟩ := reaches_succ.1 h
    rw [Nat.succ_add]
    exact reaches_of_step hv (ih hr)

/-- What every step keeps holds at the end of every run. -/
theorem reaches_induction {P : State → Prop} (hstep : ∀ s t, P s → step s = .next t → P t) {n : Nat}
    {s t : State} (hs : P s) (h : reaches n s t) : P t := by
  induction n generalizing s with
  | zero => rw [reaches_zero] at h; exact h ▸ hs
  | succ n ih =>
    obtain ⟨u, hu, hr⟩ := reaches_succ.1 h
    exact ih (hstep s u hs hu) hr

/-- While the host waits, a step is the engine's move. -/
theorem step_of_waits {s : State} (h : s.hostWaits) : step s = runMove (engineMove s) :=
  step_engine (engineTurn_of_waits h)

/-- While the host waits and a DECOMPRESS runs, a step is the decoder's move. -/
theorem step_decoding {s : State} (h : s.hostWaits) (hd : s.decoding) :
    step s = runMove (decoderMove s) := by rw [step_of_waits h, engineMove_decoding hd]

/-- While the host waits and a COMPRESS runs, a step is the encoder's. -/
theorem step_encoding {s : State} (h : s.hostWaits) (he : s.encoding) : step s = encoderStep s := by
  rw [step_of_waits h, engineMove_encoding he]; rfl

end Sys2Proof.Machine
end

