-- ==== Sys2Proof/Tests/Slice0.lean ====
section
/-! SUPPORT. The model's own tests: expected values are the spec's (the vector or rule is named), and
for every obligation with hypotheses a state that meets them all. -/

namespace Sys2Proof.Tests

open Sys2Proof.Machine

/-! ### States the tests start from -/

/-- A small engine: LENW 8, IN_CAP 200, OUT_CAP 220, an address map without overlap. -/
def tiny : Config :=
  { Config.reference with lenw := 8, inCap := 200, outCap := 220, inBase := 1000, outBase := 2000 }

/-- Bytes at the addresses from 0 on. -/
def cells (xs : List Byte) : Memory := (List.range xs.length).zip xs

/-- A tiny engine with an input, in a status, the host waiting. -/
def withInput (st : Status) (xs : List Byte) : State :=
  { State.reset with
    cfg := tiny
    regs := { State.reset.regs with status := st, inLen := xs.length }
    inp := cells xs }

/-- The host's next moves. -/
def scripted (ms : List HostMove) (s : State) : State := setScript ms s

/-- A running DECOMPRESS of `xs`, `out` produced, at `ip` in phase `p`. -/
def decAt (xs out : List Byte) (ip : Nat) (p : Phase) : State :=
  { withInput .busy xs with
    out := cells out
    olen := out.length
    dec := { State.reset.dec with ip := ip, phase := p } }

/-- The same inside LDEC's loop with `acc`. -/
def escAt (xs out : List Byte) (ip : Nat) (p : Phase) (acc : Nat) : State :=
  { decAt xs out ip p with lc := { acc := acc, b := 0#8, loop := .more } }

/-- The same with nibbles `l` and `m` latched. -/
def nibAt (xs out : List Byte) (ip : Nat) (p : Phase) (l m : Nibble) : State :=
  let s := decAt xs out ip p
  { s with dec := { s.dec with tok := joinNibbles l m, l := l, m := m } }

/-- The same at the start of a copy: lit_len or mat_len `n`, offset `o`. -/
def copyAt (xs out : List Byte) (ip : Nat) (p : Phase) (n : Nat) (o : Offset) : State :=
  let s := decAt xs out ip p
  { s with dec := { s.dec with litLen := n, matLen := n, left := n, off := o } }

/-- A running COMPRESS of `xs` at `cur`, literals from `anchor`, before a step. -/
def encAt (xs : List Byte) (cur anchor : Nat) (e : EncStep) : State :=
  { withInput .busy xs with
    unit := .enc
    enc := { State.reset.enc with cur := cur, anchor := anchor, mlimit := xs.length, step := e } }

/-- The same with a candidate, a match length and VERIFY's answer. -/
def candAt (xs : List Byte) (cur anchor : Nat) (e : EncStep) (c : Option Nat) (n : Nat) (hit : Bool) :
    State :=
  let s := encAt xs cur anchor e
  { s with enc := { s.enc with cand := c, mlen := n, hit := hit, key := 0x61616161 } }

/-- The result is a next state with a property. -/
def nextIs (r : Result) (p : State → Bool) : Bool :=
  match r with
  | .next t => p t
  | .fault _ => false
  | .refused _ => false

/-- A tiny idle engine with IN_LEN `n`. -/
def idleWith (n : Nat) : State :=
  { withInput .idle [] with regs := { State.reset.regs with inLen := n } }

/-- Five bytes 61. -/
def fiveA : List Byte := [0x61#8, 0x61#8, 0x61#8, 0x61#8, 0x61#8]

/-! ### Well-formedness: an ill-formed term for each check -/

/-- R111: M below 15 in TOK.XS. -/
theorem test_illFormed_tokXS : (Instr.tokXS 15#4).wellFormed = false := by decide

/-- R111: L below 15 in TOK.SX. -/
theorem test_illFormed_tokSX : (Instr.tokSX 15#4).wellFormed = false := by decide

/-- R111: L below 15 in TOK.SS. -/
theorem test_illFormed_tokSS_high : (Instr.tokSS 15#4 0#4).wellFormed = false := by decide

/-- R111: M below 15 in TOK.SS. -/
theorem test_illFormed_tokSS_low : (Instr.tokSS 0#4 15#4).wellFormed = false := by decide

/-- R102: v below 255 in ESC.STOP. -/
theorem test_illFormed_escStop : (Instr.escStop 255#8).wellFormed = false := by decide

/-- R112: 1, 2 and 3 are not CMD.NOP. -/
theorem test_illFormed_cmdNop :
    (Instr.cmdNop 1#8).wellFormed = false ∧ (Instr.cmdNop 2#8).wellFormed = false ∧
      (Instr.cmdNop 3#8).wellFormed = false := by decide

/-- The largest operands that are well formed. -/
theorem test_wellFormed_edges :
    (Instr.tokSS 14#4 14#4).wellFormed = true ∧ (Instr.escStop 254#8).wellFormed = true ∧
      (Instr.cmdNop 4#8).wellFormed = true ∧ (Instr.cmdNop 255#8).wellFormed = true := by decide

/-! ### Decoding: a word of every row, its bits as R111, R104 and R112 print them -/

theorem test_decode_tokXX : decode .token [0b11111111#8] = .ok .tokXX [] := by decide

theorem test_decode_tokXS : decode .token [0b11111110#8] = .ok (.tokXS 14#4) [] := by decide

theorem test_decode_tokSX : decode .token [0b00011111#8] = .ok (.tokSX 1#4) [] := by decide

/-- A high nibble is the literal length, a low nibble the match length (R101). -/
theorem test_decode_tokSS : decode .token [0b00010110#8] = .ok (.tokSS 1#4 6#4) [] := by decide

theorem test_decode_escCont : decode .escape [0b11111111#8] = .ok .escCont [] := by decide

theorem test_decode_escStop : decode .escape [0b11111110#8] = .ok (.escStop 254#8) [] := by decide

theorem test_decode_lit : decode .literal [0b01100001#8] = .ok (.lit 0x61#8) [] := by decide

/-- R177: the bytes 00 01 are 256: the second is the high one. -/
theorem test_decode_offset :
    decode .offset [0b00000000#8, 0b00000001#8] = .ok (.offset 256#16) [] := by decide

theorem test_decode_cmdNop : decode .command [0b00000000#8] = .ok (.cmdNop 0#8) [] := by decide

/-- R112: a reserved value acts as CMD.NOP. -/
theorem test_decode_reserved : decode .command [0b00000100#8] = .ok (.cmdNop 4#8) [] := by decide

theorem test_decode_startDecompress :
    decode .command [0b00000001#8] = .ok .cmdStartDecompress [] := by decide

theorem test_decode_startCompress :
    decode .command [0b00000010#8] = .ok .cmdStartCompress [] := by decide

theorem test_decode_clear : decode .command [0b00000011#8] = .ok .cmdClear [] := by decide

/-- R165: one byte is no offset. -/
theorem test_decode_halfOffset : decode .offset [0x01#8] = .rejected .halfOffset := by decide

/-! ### Words of the opcode table, decoded and run as the first instruction after reset (log 4, 5) -/

theorem test_tableWords :
    decodeTableWord 8 0xFF = some .tokXX ∧ decodeTableWord 8 0xF0 = some (.tokXS 0#4) ∧
      decodeTableWord 8 0x0F = some (.tokSX 0#4) ∧ decodeTableWord 8 0x16 = some (.tokSS 1#4 6#4) ∧
      decodeTableWord 16 0x1234 = some (.offset 0x1234#16) ∧
      decodeTableWord 8 0 = some (.cmdNop 0#8) ∧ decodeTableWord 8 1 = some .cmdStartDecompress ∧
      decodeTableWord 8 2 = some .cmdStartCompress ∧ decodeTableWord 8 3 = some .cmdClear := by
  decide

theorem test_fetch_token :
    nextIs (step (State.reset.withFetchWord 8 0xFF)) (fun t =>
      t.dec.tok == 0xFF#8 && t.dec.ip == 1 && t.dec.phase == .litLen) = true := by decide

/-- Nothing has been produced after reset, so every offset is BAD_OFFSET (V15). -/
theorem test_fetch_offset :
    nextIs (step (State.reset.withFetchWord 16 0x0001)) (fun t =>
      t.dec.off == 1#16 && t.dec.ip == 2 && t.regs.cause == .badOffset) = true := by decide

theorem test_fetch_command :
    nextIs (step (State.reset.withFetchWord 8 1)) (fun t => t.regs.status == .busy) = true := by
  decide

/-! ### The instructions, one step each -/

/-- R175, R161. -/
theorem test_tokXX :
    nextIs (step (decAt [0xFF#8, 0x00#8] [] 0 .token)) (fun t =>
      t.dec.l == 15#4 && t.dec.m == 15#4 && t.dec.ip == 1 && t.dec.phase == .litLen) = true := by
  decide

/-- R174's example F0. -/
theorem test_tokXS :
    nextIs (step (decAt [0xF0#8, 0x00#8] [] 0 .token)) (fun t =>
      t.dec.l == 15#4 && t.dec.m == 0#4 && t.dec.ip == 1) = true := by decide

/-- R173's example 1F. -/
theorem test_tokSX :
    nextIs (step (decAt [0x1F#8, 0x61#8] [] 0 .token)) (fun t =>
      t.dec.l == 1#4 && t.dec.m == 15#4 && t.dec.ip == 1) = true := by decide

/-- R172's example 16. -/
theorem test_tokSS :
    nextIs (step (decAt [0x16#8, 0x61#8] [] 0 .token)) (fun t =>
      t.dec.l == 1#4 && t.dec.m == 6#4 && t.dec.tok == 0x16#8) = true := by decide

/-- R272: no token byte (V5). -/
theorem test_token_missing :
    nextIs (step (decAt [] [] 0 .token)) (fun t =>
      t.regs.status == .error && t.regs.cause == .truncField && t.regs.outLen == 0) = true := by
  decide

/-- L28: LENW 8, 15 + 255 = 270 does not fit. -/
theorem test_escCont_overflow :
    nextIs (step (escAt [0xF0#8, 0xFF#8, 0x00#8] [] 1 .litLen 15)) (fun t =>
      t.regs.cause == .overflow && t.lc.acc == 15 && t.dec.ip == 2) = true := by decide

/-- 0 + 255 = 255 fits LENW 8, and another byte is due (R143). -/
theorem test_escCont :
    nextIs (exec .escCont (escAt [] [] 0 .litLen 0)) (fun t =>
      t.lc.acc == 255 && t.lc.loop == .more && t.regs.status == .busy) = true := by decide

/-- L26: 15 + 240 = 255 fits exactly. -/
theorem test_escStop :
    nextIs (step (escAt [0xF0#8, 0xF0#8] [] 1 .litLen 15)) (fun t =>
      t.lc.acc == 255 && t.lc.loop == .finished && t.dec.ip == 2) = true := by decide

/-- L27: 15 + 241 = 256 does not. -/
theorem test_escStop_overflow :
    nextIs (step (escAt [0xF0#8, 0xF1#8] [] 1 .litLen 15)) (fun t =>
      t.regs.cause == .overflow && t.regs.status == .error) = true := by decide

/-- L23: no escape byte follows. -/
theorem test_escape_missing :
    nextIs (step (escAt [0xF0#8] [] 1 .litLen 15)) (fun t => t.regs.cause == .truncEscape) = true := by
  decide

/-- R176: the byte is appended at `olen`. -/
theorem test_lit :
    nextIs (step (copyAt [0x10#8, 0x78#8] [0x61#8] 1 .litCopy 1 0#16)) (fun t =>
      t.outByte 1 == 0x78#8 && t.outByte 0 == 0x61#8 && t.olen == 2 && t.dec.ip == 2) = true := by
  decide

/-- V8: 2 literals announced, 1 present, and nothing is written. -/
theorem test_lit_truncated :
    nextIs (step (copyAt [0x20#8, 0x61#8] [] 1 .litCopy 2 0#16)) (fun t =>
      t.regs.cause == .truncLiteral && t.olen == 0) = true := by decide

/-- V28: the offset 3 equals `olen`, which is legal. -/
theorem test_offset :
    nextIs (step (decAt [0x03#8, 0x00#8, 0x00#8] [0x61#8, 0x62#8, 0x63#8] 0 .offset)) (fun t =>
      t.dec.off == 3#16 && t.dec.ip == 2 && t.dec.phase == .matchLen) = true := by decide

/-- V11: the offset 2 is above `olen` 1. -/
theorem test_offset_tooFar :
    nextIs (step (decAt [0x02#8, 0x00#8, 0x00#8] [0x61#8] 0 .offset)) (fun t =>
      t.regs.cause == .badOffset && t.regs.status == .error) = true := by decide

/-- R254: a write to CMD while BUSY changes nothing but the host's script. -/
theorem test_command_busy :
    nextIs (step (scripted [.write (.reg 0) 3] (decAt [] [] 0 .token))) (fun t =>
      t == decAt [] [] 0 .token) = true := by decide

/-- R253: a reserved value changes nothing. -/
theorem test_cmdNop :
    nextIs (step (scripted [.write (.reg 0) 0x80] (withInput .done []))) (fun t =>
      t == withInput .done []) = true := by decide

/-- R250: START_DECOMPRESS. -/
theorem test_startDecompress :
    nextIs (step (scripted [.write (.reg 0) 1] (withInput .error [0x00#8]))) (fun t =>
      t.regs.status == .busy && t.regs.cause == .none && t.dec.ip == 0 && t.unit == .dec) = true := by
  decide

/-- V37: IN_LEN above IN_CAP is LIMIT at START. -/
theorem test_startDecompress_tooLong :
    nextIs
      (exec .cmdStartDecompress
        { withInput .idle [] with regs := { State.reset.regs with inLen := 201 } })
      (fun t => t.regs.status == .error && t.regs.cause == .limit) = true := by decide

/-- R251: B(200) = 202 fits OUT_CAP 220. -/
theorem test_startCompress :
    nextIs
      (exec .cmdStartCompress
        { withInput .idle [] with regs := { State.reset.regs with inLen := 200 } })
      (fun t => t.regs.status == .busy && t.enc.mlimit == 200 && t.unit == .enc) = true := by decide

/-- R251's corner case: IN_LEN 0 needs OUT_CAP 2. -/
theorem test_startCompress_noRoom :
    nextIs (exec .cmdStartCompress { withInput .idle [] with cfg := { tiny with outCap := 1 } })
      (fun t => t.regs.status == .error && t.regs.cause == .limit) = true := by decide

/-- R252's example: CLEAR after an ERROR. -/
theorem test_clear :
    nextIs
      (exec .cmdClear
        { withInput .error [] with
          regs := { State.reset.regs with status := .error, cause := .limit } })
      (fun t => t.regs.status == .idle && t.regs.cause == .none) = true := by decide

/-! ### The phases and steps without an element -/

/-- R164: the input is consumed, and M = 15 is ignored (V16). -/
theorem test_endCheck_done :
    nextIs (step (nibAt [0x1F#8, 0x78#8] [0x78#8] 2 .endCheck 1#4 15#4)) (fun t =>
      t.regs.status == .done && t.regs.outLen == 1 && t.output == [0x78#8]) = true := by decide

/-- V34: 252 + 4 = 256 does not fit LENW 8. -/
theorem test_matchLen_overflow :
    nextIs
      (step { decAt [] [] 0 .matchLen with lc := { acc := 252, b := 0#8, loop := .finished } })
      (fun t => t.regs.cause == .overflow) = true := by decide

/-- R167: one byte of the copy with offset 1 repeats the last byte. -/
theorem test_matchCopy :
    nextIs (step (copyAt [] [0x61#8, 0x62#8] 0 .matchCopy 10 1#16)) (fun t =>
      t.outByte 2 == 0x62#8 && t.olen == 3 && t.dec.left == 9) = true := by decide

/-- V23: OUT_LIMIT 10 does not admit one literal and ten more. -/
theorem test_matchCopy_limit :
    nextIs
      (step
        { copyAt [] [0x61#8] 0 .matchCopy 10 1#16 with
          regs :=
            { State.reset.regs with status := .busy, outLimit := 10, limitEn := true } })
      (fun t => t.regs.cause == .limit && t.olen == 1) = true := by decide

/-- R213, E1: the empty input is the block 00. -/
theorem test_flush_empty :
    nextIs (step (encAt [] 0 0 .flush)) (fun t =>
      t.regs.status == .done && t.output == [0x00#8]) = true := by decide

/-- E7: five bytes 61: at `cur` 1 the match is 4 long, offset 1: 10 61 01 00. -/
theorem test_emitSeq :
    nextIs (step (candAt fiveA 1 0 .emitSeq (some 0) 4 true)) (fun t =>
      t.outBytes 0 4 == [0x10#8, 0x61#8, 0x01#8, 0x00#8] && t.olen == 4) = true := by decide

/-- R205: a candidate whose four bytes agree is a hit. -/
theorem test_verify :
    nextIs (step (candAt fiveA 1 0 .verify (some 0) 0 false)) (fun t => t.enc.hit) = true := by decide

/-- L8: LENC(270) is F with FF 00. -/
theorem test_lenc_270 : lencNibble 270 = 15#4 ∧ lencEscapes 270 = [0xFF#8, 0x00#8] := by decide

/-- L22: LDEC(15) of FF FF 03 is 528. -/
theorem test_ldec_528 :
    (match ldec (2 ^ 64 - 1) 15#4 [0xFF#8, 0xFF#8, 0x03#8] with
      | .ok r => decide (r = (528, []))
      | .error _ => false) = true := by decide

/-! ### The host -/

/-- R255, R257: STATUS reads BUSY while an operation runs. -/
theorem test_read_status :
    nextIs (step (scripted [.read (.reg 1)] (decAt [] [] 0 .token))) (fun t =>
      t.host.rdata == 1) = true := by decide

/-- R38: CTRL stores bit 0 only. -/
theorem test_write_ctrl :
    nextIs (step (scripted [.write (.reg 6) 0xFE] (withInput .idle []))) (fun t =>
      t.regs.limitEn == false) = true := by decide

/-- D25: register 0 through the platform's map. -/
theorem test_bus_command :
    nextIs (step (scripted [.busWrite 0 3] (withInput .done []))) (fun t =>
      t.regs.status == .idle) = true := by decide

/-- R81: IN 0 to 999 and OUT from 500 with 500 input bytes are apart, and address 500 is OUT's. -/
theorem test_map_share :
    let s : State :=
      { withInput .idle [] with
        cfg := { Config.reference with regBase := 5000, inBase := 0, inCap := 1000, outBase := 500 }
        regs := { State.reset.regs with inLen := 500 } }
    s.apart ∧ (resolve s 500 matches .ok (.out 0)) ∧ resolve s 499 matches .ok (.inp 499) := by
  decide

/-- R81, R309: with one input byte more they overlap; with no input byte they do not. -/
theorem test_map_overlap :
    let c : Config := { tiny with outBase := 1100 }
    mapOverlaps { idleWith 101 with cfg := c } = true ∧
      mapOverlaps { idleWith 100 with cfg := c } = false ∧
      mapOverlaps { idleWith 0 with cfg := { c with outBase := 1000 } } = false ∧
      mapOverlaps { idleWith 101 with cfg := { c with outCap := 0 } } = false := by decide

/-- R257: IN_LEN above IN_CAP, OUT right after IN: the map still reaches CMD, and START is LIMIT (R250). -/
theorem test_map_command :
    nextIs
      (step
        (scripted [.busWrite 0 1]
          { idleWith 201 with cfg := { tiny with outBase := 1200 } }))
      (fun t => t.regs.status == .error && t.regs.cause == .limit) = true := by decide

/-- R306, U4: a host write to IN while BUSY is refused. -/
theorem test_write_busy :
    (match step (scripted [.write (.inp 0) 0] (decAt [] [] 0 .token)) with
      | .refused r => decide (r = .hostWriteWhileBusy (.inp 0))
      | .next _ => false
      | .fault _ => false) = true := by decide

/-! ### Witnesses: for each obligation with hypotheses, states and operands that meet them together,
and for each of its clauses a value at the edge of its range -/

/-- DecodeInvertsEncode: the largest operands of each limited row. -/
theorem test_witness_DecodeInvertsEncode :
    (Instr.tokXS 14#4).wellFormed = true ∧ (Instr.tokSX 14#4).wellFormed = true ∧
      (Instr.offset 0xFFFF#16).wellFormed = true ∧ (Instr.cmdNop 0#8).wellFormed = true := by decide

/-- EncodeInvertsDecode: a row of each context, a byte left over. -/
theorem test_witness_EncodeInvertsDecode :
    decode .offset [0x34#8, 0x12#8, 0xAA#8] = .ok (.offset 0x1234#16) [0xAA#8] ∧
      decode .token [0xEF#8, 0xAA#8] = .ok (.tokSX 14#4) [0xAA#8] ∧
      decode .command [0xFF#8] = .ok (.cmdNop 0xFF#8) [] := by decide

/-- StepRunsTheDueElement: the host waits, or makes a one-step wait; an offset, a literal, an escape. -/
theorem test_witness_StepRunsTheDueElement :
    (engineTurn (decAt [0x03#8, 0x00#8] [] 0 .offset) = some (decAt [0x03#8, 0x00#8] [] 0 .offset) ∧
        (decAt [0x03#8, 0x00#8] [] 0 .offset).decoding ∧
        dueContext (decAt [0x03#8, 0x00#8] [] 0 .offset) = some .offset ∧
        decode .offset (window (decAt [0x03#8, 0x00#8] [] 0 .offset)) = .ok (.offset 3#16) []) ∧
      (engineTurn (scripted [.run] (copyAt [0x78#8] [] 0 .litCopy 1 0#16)) =
          some (copyAt [0x78#8] [] 0 .litCopy 1 0#16) ∧
        (copyAt [0x78#8] [] 0 .litCopy 1 0#16).decoding ∧
        dueContext (copyAt [0x78#8] [] 0 .litCopy 1 0#16) = some .literal ∧
        decode .literal (window (copyAt [0x78#8] [] 0 .litCopy 1 0#16)) = .ok (.lit 0x78#8) []) ∧
      dueContext (escAt [0xFF#8] [] 0 .matchLen 15) = some .escape := by
  unfold State.decoding; decide

/-- MissingBytesAreAnError: no token byte, half an offset, no escape byte. -/
theorem test_witness_MissingBytesAreAnError :
    (engineTurn (decAt [] [] 0 .token) = some (decAt [] [] 0 .token) ∧
        (decAt [] [] 0 .token).decoding ∧ dueContext (decAt [] [] 0 .token) = some .token ∧
        decode .token (window (decAt [] [] 0 .token)) = .rejected .noByte) ∧
      ((decAt [0x01#8] [] 0 .offset).decoding ∧
        dueContext (decAt [0x01#8] [] 0 .offset) = some .offset ∧
        decode .offset (window (decAt [0x01#8] [] 0 .offset)) = .rejected .halfOffset) ∧
      (dueContext (escAt [0xF0#8] [] 1 .litLen 15) = some .escape ∧
        decode .escape (window (escAt [0xF0#8] [] 1 .litLen 15)) = .rejected .noByte) := by
  unfold State.decoding; decide

/-- CmdWriteRunsItsCommand: by number, and at REG_BASE through the map. -/
theorem test_witness_CmdWriteRunsItsCommand :
    (scripted [.write (.reg 0) 0x103, .run] (withInput .done [])).writesNext (.reg 0) 0x103 [.run] ∧
      (scripted [.busWrite 0 0x103, .run] (withInput .done [])).writesNext (.reg 0) 0x103 [.run] ∧
      decode .command [BitVec.ofNat 8 0x103] = .ok .cmdClear [] :=
  ⟨.inl rfl, .inr ⟨0, rfl, rfl⟩, rfl⟩

/-- IdleEngineDoesNothing. -/
theorem test_witness_IdleEngineDoesNothing :
    State.reset.hostWaits ∧ State.reset.regs.status ≠ .busy := by unfold State.hostWaits; decide

/-- TokenPhaseSplitsTheByte: `ip` at the input's end, and one before it. -/
theorem test_witness_TokenPhaseSplitsTheByte :
    ((decAt [0x16#8] [] 1 .token).hostWaits ∧ (decAt [0x16#8] [] 1 .token).decoding ∧
        (decAt [0x16#8] [] 1 .token).dec.phase = .token ∧
        (decAt [0x16#8] [] 1 .token).regs.inLen ≤ (decAt [0x16#8] [] 1 .token).dec.ip) ∧
      (decAt [0x16#8] [] 0 .token).hostWaits ∧ (decAt [0x16#8] [] 0 .token).decoding ∧
        (decAt [0x16#8] [] 0 .token).dec.ip < (decAt [0x16#8] [] 0 .token).regs.inLen := by
  unfold State.hostWaits State.decoding; decide

/-- EscContAddsAndContinues, EscStopAddsAndStops, EscapeSumNeverWraps: the last sum that fits LENW 8
and the first that does not. -/
theorem test_witness_escapes :
    (escAt [] [] 0 .litLen 0).lc.acc + 255 ≤ (escAt [] [] 0 .litLen 0).cfg.maxLen ∧
      (escAt [] [] 0 .litLen 15).lc.acc + (240#8).toNat ≤ (escAt [] [] 0 .litLen 15).cfg.maxLen ∧
      (escAt [] [] 0 .litLen 1).cfg.maxLen < (escAt [] [] 0 .litLen 1).lc.acc + 255 ∧
      (escAt [] [] 0 .litLen 15).cfg.maxLen <
        (escAt [] [] 0 .litLen 15).lc.acc + (241#8).toNat := by decide

/-- LengthCodecInverse: the largest length of LENW 8; a nibble with its run. -/
theorem test_witness_LengthCodecInverse :
    (255 : Nat) ≤ 255 ∧ ldec 255 15#4 [0xF0#8, 0xAA#8] = .ok (255, [0xAA#8]) := ⟨le_refl _, rfl⟩

/-- LitLenPhaseIsLdec: a length, and a run that is cut off. -/
theorem test_witness_LitLenPhaseIsLdec :
    ((nibAt [0xF0#8, 0x00#8] [] 1 .litLen 15#4 0#4).hostWaits ∧
        (nibAt [0xF0#8, 0x00#8] [] 1 .litLen 15#4 0#4).decoding ∧
        (nibAt [0xF0#8, 0x00#8] [] 1 .litLen 15#4 0#4).dec.phase = .litLen ∧
        (nibAt [0xF0#8, 0x00#8] [] 1 .litLen 15#4 0#4).lc.loop = .start ∧
        (nibAt [0xF0#8, 0x00#8] [] 1 .litLen 15#4 0#4).dec.ip ≤ 2) ∧
      ldec 255 15#4 (nibAt [0xF0#8, 0x00#8] [] 1 .litLen 15#4 0#4).ahead = .ok (15, []) ∧
      ldec 255 15#4 (nibAt [0xF0#8] [] 1 .litLen 15#4 0#4).ahead = .error .truncEscape :=
  ⟨by unfold State.hostWaits State.decoding; decide, rfl, rfl⟩

/-- MatchLenPhaseIsLdecPlusFour: 251 + 4 fits LENW 8, 252 + 4 does not (V34, V35); a run cut off. -/
theorem test_witness_MatchLenPhaseIsLdecPlusFour :
    ((nibAt [0xEC#8] [] 0 .matchLen 1#4 15#4).hostWaits ∧
        (nibAt [0xEC#8] [] 0 .matchLen 1#4 15#4).decoding ∧
        (nibAt [0xEC#8] [] 0 .matchLen 1#4 15#4).dec.phase = .matchLen ∧
        (nibAt [0xEC#8] [] 0 .matchLen 1#4 15#4).lc.loop = .start ∧
        (nibAt [0xEC#8] [] 0 .matchLen 1#4 15#4).dec.ip ≤ 1) ∧
      (ldec 255 15#4 (nibAt [0xEC#8] [] 0 .matchLen 1#4 15#4).ahead = .ok (251, []) ∧
        251 + 4 ≤ tiny.maxLen) ∧
      (ldec 255 15#4 (nibAt [0xED#8] [] 0 .matchLen 1#4 15#4).ahead = .ok (252, []) ∧
        tiny.maxLen < 252 + 4) ∧
      ldec 255 15#4 (nibAt [] [] 0 .matchLen 1#4 15#4).ahead = .error .truncEscape :=
  ⟨by unfold State.hostWaits State.decoding; decide, ⟨rfl, by decide⟩, ⟨rfl, by decide⟩, rfl⟩

/-- LiteralIsAppended: the last address of OUT. -/
theorem test_witness_LiteralIsAppended :
    ({ decAt [] [] 0 .litCopy with olen := 219 } : State).olen < tiny.outCap := by decide

/-- LitCopyAppendsTheLiterals: one literal too many, a limit one too low, both exactly met. -/
theorem test_witness_LitCopyAppendsTheLiterals :
    ((copyAt [0x61#8, 0x62#8] [] 0 .litCopy 2 0#16).hostWaits ∧
        (copyAt [0x61#8, 0x62#8] [] 0 .litCopy 2 0#16).decoding ∧
        (copyAt [0x61#8, 0x62#8] [] 0 .litCopy 2 0#16).dec.phase = .litCopy ∧
        (copyAt [0x61#8, 0x62#8] [] 0 .litCopy 2 0#16).dec.left =
          (copyAt [0x61#8, 0x62#8] [] 0 .litCopy 2 0#16).dec.litLen) ∧
      (copyAt [0x61#8, 0x62#8] [] 0 .litCopy 3 0#16).regs.inLen - 0 < 3 ∧
      2 ≤ (copyAt [0x61#8, 0x62#8] [] 0 .litCopy 2 0#16).regs.inLen - 0 ∧
      2 ≤ (copyAt [0x61#8, 0x62#8] [] 0 .litCopy 2 0#16).lim - 0 ∧
      ({ copyAt [0x61#8, 0x62#8] [] 0 .litCopy 2 0#16 with cfg := { tiny with outCap := 1 } } :
          State).lim - 0 < 2 := by
  unfold State.hostWaits State.decoding; decide

/-- EndCheckStopsAtTheEnd: the input consumed, and one byte left. -/
theorem test_witness_EndCheckStopsAtTheEnd :
    ((decAt [0x00#8] [] 1 .endCheck).hostWaits ∧ (decAt [0x00#8] [] 1 .endCheck).decoding ∧
        (decAt [0x00#8] [] 1 .endCheck).dec.phase = .endCheck ∧
        (decAt [0x00#8] [] 1 .endCheck).dec.ip = (decAt [0x00#8] [] 1 .endCheck).regs.inLen) ∧
      (decAt [0x00#8, 0x00#8] [] 1 .endCheck).hostWaits ∧
        (decAt [0x00#8, 0x00#8] [] 1 .endCheck).decoding ∧
        (decAt [0x00#8, 0x00#8] [] 1 .endCheck).dec.ip ≠
          (decAt [0x00#8, 0x00#8] [] 1 .endCheck).regs.inLen := by
  unfold State.hostWaits State.decoding; decide

/-- OffsetIsValidated: 1 and `olen` are legal, 0 and `olen + 1` are not. -/
theorem test_witness_OffsetIsValidated :
    (1 ≤ (1#16).toNat ∧ (1#16).toNat ≤ (decAt [] [0x61#8, 0x62#8] 0 .offset).olen) ∧
      (1 ≤ (2#16).toNat ∧ (2#16).toNat ≤ (decAt [] [0x61#8, 0x62#8] 0 .offset).olen) ∧
      (0#16).toNat = 0 ∧ (decAt [] [0x61#8, 0x62#8] 0 .offset).olen < (3#16).toNat := by decide

/-- OffsetPhaseReadsLittleEndian: one byte left; two left with a legal distance and with 0 and one too
far. -/
theorem test_witness_OffsetPhaseReadsLittleEndian :
    ((decAt [0x02#8] [0x61#8, 0x62#8] 0 .offset).hostWaits ∧
        (decAt [0x02#8] [0x61#8, 0x62#8] 0 .offset).decoding ∧
        (decAt [0x02#8] [0x61#8, 0x62#8] 0 .offset).dec.phase = .offset ∧
        (decAt [0x02#8] [0x61#8, 0x62#8] 0 .offset).regs.inLen < 0 + 2) ∧
      ((decAt [0x02#8, 0x00#8] [0x61#8, 0x62#8] 0 .offset).decoding ∧
        0 + 2 ≤ (decAt [0x02#8, 0x00#8] [0x61#8, 0x62#8] 0 .offset).regs.inLen ∧
        2 = ((decAt [0x02#8, 0x00#8] [0x61#8, 0x62#8] 0 .offset).inByte 0).toNat +
          256 * ((decAt [0x02#8, 0x00#8] [0x61#8, 0x62#8] 0 .offset).inByte 1).toNat ∧
        2 ≤ (decAt [0x02#8, 0x00#8] [0x61#8, 0x62#8] 0 .offset).olen) ∧
      0 = ((decAt [0x00#8, 0x00#8] [0x61#8, 0x62#8] 0 .offset).inByte 0).toNat +
          256 * ((decAt [0x00#8, 0x00#8] [0x61#8, 0x62#8] 0 .offset).inByte 1).toNat ∧
      (decAt [0x03#8, 0x00#8] [0x61#8, 0x62#8] 0 .offset).olen <
        ((decAt [0x03#8, 0x00#8] [0x61#8, 0x62#8] 0 .offset).inByte 0).toNat +
          256 * ((decAt [0x03#8, 0x00#8] [0x61#8, 0x62#8] 0 .offset).inByte 1).toNat := by
  unfold State.hostWaits State.decoding; decide

/-- MatchCopyRepeatsTheOutput: the offset equal to `olen`; the room exactly enough, and one short. -/
theorem test_witness_MatchCopyRepeatsTheOutput :
    ((copyAt [] [0x61#8] 0 .matchCopy 219 1#16).hostWaits ∧
        (copyAt [] [0x61#8] 0 .matchCopy 219 1#16).decoding ∧
        (copyAt [] [0x61#8] 0 .matchCopy 219 1#16).dec.phase = .matchCopy ∧
        (copyAt [] [0x61#8] 0 .matchCopy 219 1#16).dec.left =
          (copyAt [] [0x61#8] 0 .matchCopy 219 1#16).dec.matLen ∧
        1 ≤ (1#16).toNat ∧ (1#16).toNat ≤ (copyAt [] [0x61#8] 0 .matchCopy 219 1#16).olen) ∧
      219 ≤ (copyAt [] [0x61#8] 0 .matchCopy 219 1#16).lim - 1 ∧
      (copyAt [] [0x61#8] 0 .matchCopy 220 1#16).lim - 1 < 220 := by
  unfold State.hostWaits State.decoding; decide

/-- PhasesRunInOrder and CursorOnlyAdvances: a step of a DECOMPRESS that stays BUSY. -/
theorem test_witness_PhasesRunInOrder :
    ((decAt [0x16#8] [] 0 .token).hostWaits ∧ (decAt [0x16#8] [] 0 .token).decoding) ∧
      ∃ t, step (decAt [0x16#8] [] 0 .token) = .next t ∧ t.regs.status = .busy :=
  ⟨by unfold State.hostWaits State.decoding; decide, _, rfl, by decide⟩

/-- DoneMeansInputConsumed: the last step of V2. -/
theorem test_witness_DoneMeansInputConsumed :
    ((decAt [0x10#8, 0x78#8] [0x78#8] 2 .endCheck).hostWaits ∧
        (decAt [0x10#8, 0x78#8] [0x78#8] 2 .endCheck).decoding) ∧
      ∃ t, step (decAt [0x10#8, 0x78#8] [0x78#8] 2 .endCheck) = .next t ∧ t.regs.status = .done :=
  ⟨by unfold State.hostWaits State.decoding; decide, _, rfl, by decide⟩

/-- StartDecompressStarts: IN_LEN equal to IN_CAP, and one above. -/
theorem test_witness_StartDecompressStarts :
    (idleWith 200).regs.status ≠ .busy ∧ (idleWith 200).regs.inLen ≤ (idleWith 200).cfg.inCap ∧
      (idleWith 201).regs.status ≠ .busy ∧ (idleWith 201).cfg.inCap < (idleWith 201).regs.inLen := by
  decide

/-- StartCompressStarts: the worst-case block exactly fits OUT, and is one too long. -/
theorem test_witness_StartCompressStarts :
    ((idleWith 200).regs.status ≠ .busy ∧ (idleWith 200).regs.inLen ≤ 200 ∧
        200 + 200 / 255 + 2 ≤ ({ tiny with outCap := 202 } : Config).outCap) ∧
      ({ tiny with outCap := 201 } : Config).outCap < 200 + 200 / 255 + 2 ∧
      (idleWith 201).cfg.inCap < (idleWith 201).regs.inLen := by decide

/-- ClearAcknowledges: from DONE and from ERROR. -/
theorem test_witness_ClearAcknowledges :
    (withInput .done []).regs.status ≠ .busy ∧ (withInput .error []).regs.status ≠ .busy := by decide

/-- NopAndReservedChangeNothing and CommandsIgnoredWhileBusy: the edge values of the reserved range. -/
theorem test_witness_NopAndReserved :
    ((4 : Nat) ≤ 4 ∧ (4 : Nat) ≤ 255 ∧ (4 : Nat) ≤ 255 ∧ (255 : Nat) ≤ 255) ∧
      (scripted [.write (.reg 0) 255] (decAt [] [] 0 .token)).regs.status = .busy ∧
      (scripted [.write (.reg 0) 255] (decAt [] [] 0 .token)).host.script =
        [.write (.reg 0) 255] := by decide

/-- StatusAndCauseAgree: a step into ERROR from a state that agrees. -/
theorem test_witness_StatusAndCauseAgree :
    (((decAt [] [] 0 .token).regs.status = .error ↔ (decAt [] [] 0 .token).regs.cause ≠ .none) ∧
        ((decAt [] [] 0 .token).regs.status ≠ .done → (decAt [] [] 0 .token).regs.outLen = 0)) ∧
      ∃ t, step (decAt [] [] 0 .token) = .next t ∧ t.regs.status = .error :=
  ⟨by decide, _, rfl, by decide⟩

/-- ErrorLeftOnlyByTheHost: CLEAR at its number and through the map, and reset. -/
theorem test_witness_ErrorLeftOnlyByTheHost :
    (∃ t, step (scripted [.write (.reg 0) 3] (withInput .error [])) = .next t ∧
        t.regs.status ≠ .error) ∧
      (∃ t, step (scripted [.busWrite 0 3] (withInput .error [])) = .next t ∧
        t.regs.status ≠ .error) ∧
      (∃ t, step (scripted [.reset] (withInput .error [])) = .next t ∧ t.regs.status ≠ .error) ∧
      (withInput .error []).regs.status = .error :=
  ⟨⟨_, rfl, by decide⟩, ⟨_, rfl, by decide⟩, ⟨_, rfl, by decide⟩, rfl⟩

/-- EncoderNeverRaises and ScanAndAdvance: each of the three steps. -/
theorem test_witness_encoderSteps :
    ((encAt fiveA 1 0 .scan).hostWaits ∧ (encAt fiveA 1 0 .scan).encoding ∧
        (encAt fiveA 1 0 .scan).enc.step = .scan) ∧
      (encAt fiveA 1 0 .advanceMatch).encoding ∧ (encAt fiveA 1 0 .advanceLiteral).encoding ∧
      ∃ t, step (encAt fiveA 1 0 .scan) = .next t ∧ t.enc.step = .lookup :=
  ⟨by unfold State.hostWaits State.encoding; decide, by unfold State.encoding; decide,
    by unfold State.encoding; decide, _, rfl, by decide⟩

/-- LookupReadsThePrefixSlot: the last whole prefix of the input. -/
theorem test_witness_LookupReadsThePrefixSlot :
    (encAt fiveA 1 0 .lookup).hostWaits ∧ (encAt fiveA 1 0 .lookup).encoding ∧
      (encAt fiveA 1 0 .lookup).enc.step = .lookup ∧
      (encAt fiveA 1 0 .lookup).enc.cur + 4 ≤ (encAt fiveA 1 0 .lookup).regs.inLen := by
  unfold State.hostWaits State.encoding; decide

/-- VerifyDecidesTheHit: a candidate just below `cur`, and none. -/
theorem test_witness_VerifyDecidesTheHit :
    (candAt fiveA 1 0 .verify (some 0) 0 false).hostWaits ∧
      (candAt fiveA 1 0 .verify (some 0) 0 false).encoding ∧
      (candAt fiveA 1 0 .verify (some 0) 0 false).enc.step = .verify ∧ 1 + 4 ≤ fiveA.length ∧
      (∀ c, (some 0 : Option Nat) = some c → c < 1) ∧ ∀ c, (none : Option Nat) = some c → c < 1 := by
  refine ⟨by unfold State.hostWaits; decide, by unfold State.encoding; decide, rfl, by decide,
    ?_, ?_⟩
  · intro c h; cases h; decide
  · intro c h; cases h

/-- UpdateWritesTheSlotRead: with a hit and without. -/
theorem test_witness_UpdateWritesTheSlotRead :
    ((candAt fiveA 1 0 .update (some 0) 0 true).hostWaits ∧
        (candAt fiveA 1 0 .update (some 0) 0 true).encoding ∧
        (candAt fiveA 1 0 .update (some 0) 0 true).enc.step = .update) ∧
      (candAt fiveA 1 0 .update none 0 false).encoding := by
  unfold State.hostWaits State.encoding; decide

/-- ExtendFindsTheWholeMatch: E7, where four bytes reach `mlimit`. -/
theorem test_witness_ExtendFindsTheWholeMatch :
    (candAt fiveA 1 0 .extend (some 0) 4 true).hostWaits ∧
      (candAt fiveA 1 0 .extend (some 0) 4 true).encoding ∧
      (candAt fiveA 1 0 .extend (some 0) 4 true).enc.step = .extend ∧
      (candAt fiveA 1 0 .extend (some 0) 4 true).enc.mlen = 4 ∧
      (candAt fiveA 1 0 .extend (some 0) 4 true).enc.cand = some 0 ∧ 0 < 1 ∧
      1 + 4 ≤ (candAt fiveA 1 0 .extend (some 0) 4 true).enc.mlimit ∧
      (candAt fiveA 1 0 .extend (some 0) 4 true).enc.mlimit ≤ fiveA.length ∧
      ∀ k < 4, (candAt fiveA 1 0 .extend (some 0) 4 true).inByte (0 + k) =
        (candAt fiveA 1 0 .extend (some 0) 4 true).inByte (1 + k) := by
  unfold State.hostWaits State.encoding; decide

/-- EmitSeqAppendsTheSequence: E7's four bytes in an OUT of exactly four. -/
theorem test_witness_EmitSeqAppendsTheSequence :
    ((candAt fiveA 1 0 .emitSeq (some 0) 4 true).hostWaits ∧
        (candAt fiveA 1 0 .emitSeq (some 0) 4 true).encoding ∧
        (candAt fiveA 1 0 .emitSeq (some 0) 4 true).enc.step = .emitSeq ∧
        (candAt fiveA 1 0 .emitSeq (some 0) 4 true).enc.cand = some 0 ∧
        (candAt fiveA 1 0 .emitSeq (some 0) 4 true).enc.anchor ≤ 1 ∧ 1 ≤ fiveA.length) ∧
      (candAt fiveA 1 0 .emitSeq (some 0) 4 true).inBytes 0 (1 - 0) = [0x61#8] ∧
      0 + (joinNibbles (lencNibble 1) (lencNibble (4 - 4)) ::
        (lencEscapes 1 ++ [0x61#8] ++ [BitVec.ofNat 8 (1 - 0), BitVec.ofNat 8 ((1 - 0) / 256)] ++
          lencEscapes (4 - 4))).length ≤ ({ tiny with outCap := 4 } : Config).outCap := by
  unfold State.hostWaits State.encoding; decide

/-- MidIndexWritesThePositionsInside: INDEX_MID_MATCH off, and on. -/
theorem test_witness_MidIndexWritesThePositionsInside :
    ((candAt fiveA 1 0 .midIndex (some 0) 4 true).hostWaits ∧
        (candAt fiveA 1 0 .midIndex (some 0) 4 true).encoding ∧
        (candAt fiveA 1 0 .midIndex (some 0) 4 true).enc.step = .midIndex ∧
        (candAt fiveA 1 0 .midIndex (some 0) 4 true).cfg.indexMidMatch = false) ∧
      ({ tiny with indexMidMatch := true } : Config).indexMidMatch = true := by
  unfold State.hostWaits State.encoding; decide

/-- FlushEndsTheBlock: the one byte of an empty block in an OUT of exactly one. -/
theorem test_witness_FlushEndsTheBlock :
    ((encAt [] 0 0 .flush).hostWaits ∧ (encAt [] 0 0 .flush).encoding ∧
        (encAt [] 0 0 .flush).enc.step = .flush ∧
        (encAt [] 0 0 .flush).enc.anchor ≤ (encAt [] 0 0 .flush).regs.inLen) ∧
      (encAt [] 0 0 .flush).inBytes 0 (0 - 0) = [] ∧
      0 + (joinNibbles (lencNibble 0) 0#4 :: (lencEscapes 0 ++ [])).length ≤
        ({ tiny with outCap := 1 } : Config).outCap := by
  unfold State.hostWaits State.encoding; decide

/-- RegisterReads and RegisterWrites: the last register, by number and through the map, and the first
number that is none; a write while BUSY. -/
theorem test_witness_registerMoves :
    ((scripted [.read (.reg 6)] (withInput .idle [])).readsNext (.reg 6) [] ∧
        (scripted [.busRead 6] (withInput .idle [])).readsNext (.reg 6) [] ∧
        (scripted [.read (.reg 7)] (withInput .idle [])).readsNext (.reg 7) []) ∧
      ((scripted [.write (.reg 6) 1] (withInput .idle [])).writesNext (.reg 6) 1 [] ∧
        (scripted [.busWrite 6 1] (withInput .idle [])).writesNext (.reg 6) 1 [] ∧
        (scripted [.write (.reg 7) 1] (withInput .idle [])).writesNext (.reg 7) 1 []) ∧
      (withInput .idle []).regs.status ≠ .busy ∧
      (scripted [.write (.reg 6) 1] (decAt [] [] 0 .token)).writesNext (.reg 6) 1 [] ∧
      (decAt [] [] 0 .token).regs.status = .busy :=
  ⟨⟨.inl rfl, .inr ⟨6, rfl, rfl⟩, .inl rfl⟩, ⟨.inl rfl, .inr ⟨6, rfl, rfl⟩, .inl rfl⟩, by decide,
    .inl rfl, rfl⟩

/-- HostWritesInput: the last address of IN, by number and through the map, and the first that is
none; a write to OUT. -/
theorem test_witness_HostWritesInput :
    ((scripted [.write (.inp 199) 1] (withInput .idle [])).writesNext (.inp 199) 1 [] ∧
        (scripted [.busWrite 1199 1] (withInput .idle [])).writesNext (.inp 199) 1 [] ∧
        199 < tiny.inCap ∧ (withInput .idle []).regs.status ≠ .busy) ∧
      (tiny.regBase + 7 ≤ tiny.inBase + 199 ∧ tiny.inBase + 199 < tiny.outBase) ∧
      (scripted [.write (.inp 200) 1] (withInput .idle [])).writesNext (.inp 200) 1 [] ∧
      tiny.inCap ≤ 200 ∧ (scripted [.busWrite 2000 1] (withInput .done [])).writesNext (.out 0) 1 [] :=
  ⟨⟨.inl rfl, .inr ⟨1199, rfl, rfl⟩, by decide, by decide⟩, by decide, .inl rfl, by decide,
    .inr ⟨2000, rfl, rfl⟩⟩

/-- ReadsHaveNoSideEffect: by number and through the map. -/
theorem test_witness_ReadsHaveNoSideEffect :
    (∃ t, step (scripted [.read (.reg 6)] (withInput .idle [])) = .next t ∧ t.host.rdata = 0) ∧
      ∃ t, step (scripted [.busRead 3] (withInput .idle fiveA)) = .next t ∧ t.host.rdata = 5 :=
  ⟨⟨_, rfl, by decide⟩, _, rfl, by decide⟩

/-- DONE with the one byte 78, the host about to make a move. -/
def doneWith (ms : List HostMove) : State :=
  { decAt [0x10#8, 0x78#8] [0x78#8] 2 .endCheck with
    regs := { State.reset.regs with status := .done, inLen := 2, outLen := 1 }
    host := { script := ms, rdata := 0 } }

/-- ResultIsReadable: the last byte of a result, by number and through the map. -/
theorem test_witness_ResultIsReadable :
    ((doneWith [.read (.out 0)]).readsNext (.out 0) [] ∧
        (doneWith [.busRead 2000]).readsNext (.out 0) []) ∧
      (doneWith []).regs.status = .done ∧ 0 < (doneWith []).regs.outLen ∧ 219 < tiny.outCap ∧
      tiny.regBase + 7 ≤ tiny.outBase + 0 :=
  ⟨⟨.inl rfl, .inr ⟨2000, rfl, rfl⟩⟩, by decide⟩

/-- ResetClearsTheHostRegisters: reset while BUSY. -/
theorem test_witness_ResetClearsTheHostRegisters :
    (scripted [.reset] (decAt [] [] 0 .token)).host.script = [.reset] := by decide

/-- The input at an address of OUT: D25's duty broken. -/
def overlapping (s : State) : State := { s with cfg := { tiny with outBase := 1000 } }

/-- A DECOMPRESS in the middle of V3: the invariant holds. -/
def midDecompress : State :=
  copyAt [0x16#8, 0x61#8, 0x01#8, 0x00#8, 0x00#8] [0x61#8] 4 .matchCopy 10 1#16

/-- A COMPRESS in the middle of E7, a match found: the invariant holds. -/
def midCompress : State :=
  { candAt fiveA 1 0 .extend (some 0) 4 true with idx := [(0x61616161, 1)] }

theorem test_inv_midDecompress : Inv midDecompress where
  cfgOk := by unfold Config.Ok; decide
  mem := ⟨by decide, by decide, by decide, by decide, by decide, by decide⟩
  tok := ⟨by decide, by decide⟩
  regs := ⟨by decide, by decide, by decide, by decide, by decide,
    by unfold State.outWritten; decide⟩
  dec := fun _ _ => ⟨by decide, by decide, by decide, by unfold State.outWritten; decide, by decide,
    by decide⟩
  enc := fun _ h => by cases h

theorem test_inv_overlapping : Inv (overlapping midDecompress) where
  cfgOk := by unfold Config.Ok; decide
  mem := ⟨by decide, by decide, by decide, by decide, by decide, by decide⟩
  tok := ⟨by decide, by decide⟩
  regs := ⟨by decide, by decide, by decide, by decide, by decide,
    by unfold State.outWritten; decide⟩
  dec := fun _ _ => ⟨by decide, by decide, by decide, by unfold State.outWritten; decide, by decide,
    by decide⟩
  enc := fun _ h => by cases h

/-- EngineStaysInBounds, second clause: the input and OUT overlap in a running operation. -/
theorem test_witness_overlap :
    Inv (overlapping midDecompress) ∧
      engineTurn (overlapping midDecompress) = some (overlapping midDecompress) ∧
      ¬(overlapping midDecompress).apart ∧ (overlapping midDecompress).regs.status = .busy :=
  ⟨test_inv_overlapping, rfl, by decide, rfl⟩

theorem test_inv_midCompress : Inv midCompress where
  cfgOk := by unfold Config.Ok; decide
  mem := ⟨by decide, by decide, by decide, by decide, by decide, by decide⟩
  tok := ⟨by decide, by decide⟩
  regs := ⟨by decide, by decide, by decide, by decide, by decide,
    by unfold State.outWritten; decide⟩
  dec := fun _ h => by cases h
  enc := fun _ _ => ⟨by decide, by decide, by decide, by decide, by decide,
    by unfold State.outWritten; decide,
    ⟨by decide, by decide, by decide, 0, rfl, by decide, by decide, by decide, by decide⟩⟩

/-- StepKeepsTheInvariant, EngineStaysInBounds, EveryOperationEnds, EngineNeverWritesItsInput,
OutIsAppendOnly, EncoderNeverRaises: a running DECOMPRESS and a running COMPRESS, the host waiting,
each making a step. -/
theorem test_witness_invariants :
    (Inv midDecompress ∧ midDecompress.hostWaits ∧ midDecompress.apart ∧ midDecompress.regs.status = .busy ∧
        engineTurn midDecompress = some midDecompress ∧
        ∃ t, step midDecompress = .next t ∧ t.olen = 2) ∧
      Inv midCompress ∧ midCompress.hostWaits ∧ midCompress.encoding ∧
        engineTurn midCompress = some midCompress ∧
        ∃ t, step midCompress = .next t ∧ t.enc.step = .emitSeq :=
  ⟨⟨test_inv_midDecompress, rfl, by decide, rfl, rfl, _, rfl, by decide⟩, test_inv_midCompress, rfl,
    ⟨rfl, rfl, by decide, by decide⟩, rfl, _, rfl, by decide⟩

/-- DecompressIsDecode and SameInputSameOutcome: a legal block (V1) and an illegal one (V6). -/
theorem test_witness_DecompressIsDecode :
    ((scripted [.write (.reg 0) 1] (withInput .idle [0x00#8])).regs.status ≠ .busy ∧
        (scripted [.write (.reg 0) 1] (withInput .idle [0x00#8])).regs.inLen ≤ tiny.inCap ∧
        (scripted [.write (.reg 0) 1] (withInput .idle [0x00#8])).apart ∧
        (scripted [.write (.reg 0) 1] (withInput .idle [0x00#8])).host.script =
          [.write (.reg 0) 1]) ∧
      decodeBlock 255 220 (withInput .idle [0x00#8]).input = .ok [] ∧
      decodeBlock 255 220 (withInput .idle [0xF0#8]).input = .error .truncEscape :=
  ⟨by decide, rfl, rfl⟩

/-- CompressIsEncode and SameInputSameOutcome: E7's input. -/
theorem test_witness_CompressIsEncode :
    (scripted [.write (.reg 0) 2] (withInput .done fiveA)).regs.status ≠ .busy ∧
      (scripted [.write (.reg 0) 2] (withInput .done fiveA)).regs.inLen ≤ tiny.inCap ∧
      (scripted [.write (.reg 0) 2] (withInput .done fiveA)).apart ∧
      5 + 5 / 255 + 2 ≤ tiny.outCap ∧
      (scripted [.write (.reg 0) 2] (withInput .done fiveA)).host.script =
        [.write (.reg 0) 2] := by decide

/-- DecodeInvertsEncodeBlock: a limit that exactly admits the input. -/
theorem test_witness_DecodeInvertsEncodeBlock : fiveA.length ≤ 5 ∧ fiveA.length ≤ 255 := by decide

/-- MachineRoundTrip: the empty input, compressed in three steps to 00; a second engine holds 00. -/
theorem test_witness_MachineRoundTrip :
    tiny.Ok ∧ (scripted [.write (.reg 0) 2] (withInput .idle [])).regs.status ≠ .busy ∧
      (scripted [.write (.reg 0) 2] (withInput .idle [])).apart ∧
      (scripted [.write (.reg 0) 1] (withInput .done [0x00#8])).apart ∧
      (∃ t, reaches 3 (scripted [.write (.reg 0) 2] (withInput .idle [])) t ∧
        t.host.script = [] ∧ t.regs.status = .done ∧
        (scripted [.write (.reg 0) 1] (withInput .done [0x00#8])).input = t.output) ∧
      (scripted [.write (.reg 0) 1] (withInput .done [0x00#8])).cfg =
        (scripted [.write (.reg 0) 2] (withInput .idle [])).cfg ∧
      (scripted [.write (.reg 0) 1] (withInput .done [0x00#8])).regs.inLen ≤ tiny.inCap ∧
      0 ≤ (scripted [.write (.reg 0) 1] (withInput .done [0x00#8])).lim :=
  ⟨by unfold Config.Ok; decide, by decide, by decide, by decide,
    ⟨_, rfl, by decide, by decide, by decide⟩, rfl, by decide, by decide⟩

end Sys2Proof.Tests
end

section
/-! PROOFS. The two block functions invert each other (R7, R216): LDEC undoes LENC, the decoder's loop
undoes each sequence the encoder writes, and every match the encoder finds repeats earlier input. -/

namespace Sys2Proof.Machine

/-! ### LDEC undoes LENC (R142) -/

/-- LDEC's loop on `k` bytes 255 and a last byte below 255. -/
theorem ldecLoop_replicate {maxLen acc k : Nat} {v : Byte} {rest : List Byte} (hv : v ≠ 255#8)
    (h : acc + 255 * k + v.toNat ≤ maxLen) :
    ldecLoop maxLen (List.replicate k 255#8 ++ [v] ++ rest) acc =
      .ok (acc + 255 * k + v.toNat, rest) := by
  induction k generalizing acc with
  | zero => simpa using ldecLoop_stop (rest := rest) hv (by omega)
  | succ k ih =>
    rw [List.replicate_succ, List.cons_append, List.cons_append, ldecLoop_cont (by omega),
      ih (by omega), show acc + 255 + 255 * k = acc + 255 * (k + 1) by omega]

/-- LDEC of LENC's nibble and escape bytes, whatever follows them, is the length (R142). -/
theorem ldec_lenc {maxLen n : Nat} (h : n ≤ maxLen) (rest : List Byte) :
    ldec maxLen (lencNibble n) (lencEscapes n ++ rest) = .ok (n, rest) := by
  rcases Nat.lt_or_ge n 15 with hn | hn
  · have hnib : (lencNibble n).toNat = n := by rw [lencNibble_toNat]; omega
    have hne : lencNibble n ≠ 15#4 := fun e => by rw [e] at hnib; simp at hnib; omega
    rw [ldec, if_neg hne, hnib, lencEscapes_of_lt hn, List.nil_append]
  · have hnib : lencNibble n = 15#4 := if_neg (by omega)
    have hv : (BitVec.ofNat 8 ((n - 15) % 255)).toNat = (n - 15) % 255 := by
      simp only [BitVec.toNat_ofNat]; omega
    have hne : BitVec.ofNat 8 ((n - 15) % 255) ≠ 255#8 := fun e => by rw [e] at hv; simp at hv; omega
    have hsum : 15 + 255 * ((n - 15) / 255) + (n - 15) % 255 = n := by omega
    rw [ldec, hnib, if_pos rfl, lencEscapes_of_le hn, show (15#4).toNat = 15 from rfl,
      ldecLoop_replicate hne (by omega), hv, hsum]

/-! ### The decoder's loop undoes a sequence -/

/-- An offset is made of its two stream bytes (R104). -/
@[simp] theorem joinOffset_offsetLo_offsetHi (o : Offset) :
    joinOffset (offsetLo o) (offsetHi o) = o := by
  apply BitVec.eq_of_toNat_eq
  rw [joinOffset_toNat, offsetLo, offsetHi, BitVec.extractLsb'_toNat, BitVec.extractLsb'_toNat,
    Nat.shiftRight_zero, Nat.shiftRight_eq_div_pow]
  have := o.isLt
  omega

/-- The last sequence decodes to its literals, and the block ends (R164, R213). -/
theorem decodeSeqs_lastBytes {maxLen lim fuel : Nat} {lits out : List Byte}
    (hl : lits.length ≤ maxLen) (hlim : out.length + lits.length ≤ lim) :
    decodeSeqs maxLen lim (fuel + 1) (lastBytes lits) out = .ok (out ++ lits) := by
  have hroom : ¬lim - out.length < lits.length := by omega
  simp [lastBytes, decodeSeqs, ldec_lenc hl, hroom]

/-- A sequence with a match decodes to its literals and the copy, and the loop goes on (R181, R212). -/
theorem decodeSeqs_seqBytes {maxLen lim fuel m : Nat} {lits out rest : List Byte} {off : Offset}
    (hl : lits.length ≤ maxLen) (hm : 4 ≤ m) (hml : m ≤ maxLen)
    (hlim : out.length + lits.length + m ≤ lim) (h0 : off ≠ 0#16)
    (hoff : off.toNat ≤ out.length + lits.length) :
    decodeSeqs maxLen lim (fuel + 1) (seqBytes lits off m ++ rest) out =
      decodeSeqs maxLen lim fuel rest (copyBack off.toNat m (out ++ lits)) := by
  have hroom : ¬lim - out.length < lits.length := by omega
  have hroom' : ¬lim - (out.length + lits.length) < m := by omega
  have hlegal : ¬out.length + lits.length < off.toNat := by omega
  have hm4 : m - 4 + 4 = m := by omega
  have hfits : ¬maxLen < m := by omega
  simp [seqBytes, decodeSeqs, ldec_lenc hl, ldec_lenc (maxLen := maxLen) (n := m - 4) (by omega),
    hroom, hroom', hlegal, h0, hm4, hfits]

/-! ### Matches: a stretch of the input that repeats an earlier one -/

/-- The `n` bytes at `cur` repeat the `n` bytes at `cand` (R205, R206). -/
def Repeats (x : List Byte) (cand cur n : Nat) : Prop :=
  ∀ k < n, byteOf x (cand + k) = byteOf x (cur + k)

/-- Copying from the match's distance rebuilds the bytes the match stands for (R167, R180). -/
theorem copyBack_take {x : List Byte} {cand p n : Nat} (hc : cand < p) (hn : p + n ≤ x.length)
    (h : Repeats x cand p n) : copyBack (p - cand) n (x.take p) = x.take (p + n) := by
  induction n generalizing cand p with
  | zero => rfl
  | succ n ih =>
    have hlen : (x.take p).length = p := by rw [List.length_take]; omega
    have hbyte : (x.take p).getD (p - (p - cand)) 0#8 = x[p]'(by omega) := by
      have := h 0 (by omega)
      simp only [byteOf, Nat.add_zero] at this
      rw [show p - (p - cand) = cand by omega, List.getD_eq_getElem _ _ (by omega),
        List.getElem_take, ← List.getD_eq_getElem x 0#8, this, List.getD_eq_getElem]
    have hnext : Repeats x (cand + 1) (p + 1) n := fun k hk => by
      have := h (k + 1) (by omega)
      rwa [show cand + (k + 1) = cand + 1 + k by omega, show p + (k + 1) = p + 1 + k by omega] at this
    rw [copyBack, hlen, hbyte, List.take_append_getElem, ← Nat.add_sub_add_right p 1 cand,
      ih (by omega) (by omega) hnext, Nat.add_right_comm, Nat.add_assoc]

/-- VERIFY answers a candidate of the index, in reach, whose four bytes repeat (R205). -/
theorem verified_eq_some {x : List Byte} {cur c : Nat} {cand : Option Nat}
    (h : verified x cur cand = some c) : cand = some c ∧ cur - c ≤ 65535 ∧ Repeats x c cur 4 := by
  obtain ⟨hc, ht⟩ := Option.filter_eq_some_iff.1 h
  simp only [Bool.and_eq_true, decide_eq_true_eq, beq_iff_eq] at ht
  refine ⟨hc, ht.1, fun k hk => ?_⟩
  have := congrArg (fun l : List Byte => l.getD k 0#8) ht.2
  simpa [byteOf, List.getD_eq_getElem?_getD, List.getElem?_take, hk] using this

/-- EXTEND lengthens a match, keeps it before `mlimit`, and every byte it takes repeats (R206). -/
theorem extendMatch_repeats {x : List Byte} {mlimit cand cur fuel n : Nat} (hn : cur + n ≤ mlimit)
    (h : Repeats x cand cur n) :
    n ≤ extendMatch x mlimit cand cur fuel n ∧
      cur + extendMatch x mlimit cand cur fuel n ≤ mlimit ∧
      Repeats x cand cur (extendMatch x mlimit cand cur fuel n) := by
  induction fuel generalizing n with
  | zero => exact ⟨le_refl n, hn, h⟩
  | succ fuel ih =>
    unfold extendMatch
    split
    · next hb =>
      have hnext : Repeats x cand cur (n + 1) := fun k hk => by
        rcases Nat.lt_succ_iff_lt_or_eq.1 hk with hk | rfl
        · exact h k hk
        · exact hb.2
      obtain ⟨hle, hlim, hrep⟩ := ih (by omega) hnext
      exact ⟨by omega, hlim, hrep⟩
    · exact ⟨le_refl n, hn, h⟩

/-! ### The parts of one turn of the encoder's loop, and its equations (R202, R223) -/

/-- The index slot of the four bytes at `cur` (R203). -/
def slotAt (c : Config) (x : List Byte) (cur : Nat) : Nat := keyOf c (prefix32 (byteOf x) cur)

/-- The match source LOOKUP and VERIFY find at `cur` (R203, R205). -/
def sourceAt (c : Config) (x : List Byte) (cur : Nat) (idx : Index) : Option Nat :=
  verified x cur (cellsRead idx (slotAt c x cur))

/-- The length EXTEND finds (R206). -/
def lengthAt (c : Config) (x : List Byte) (cand cur : Nat) : Nat :=
  extendMatch x (x.length - c.endMargin) cand cur x.length 4

/-- The index after UPDATE at the start of a match (R204). -/
def indexAtStart (c : Config) (x : List Byte) (cur : Nat) (idx : Index) : Index :=
  if c.indexMatchStart then cellsWrite idx (slotAt c x cur) cur else idx

/-- The index after MIDINDEX too (R208). -/
def indexAtEnd (c : Config) (x : List Byte) (cur mlen : Nat) (idx : Index) : Index :=
  if c.indexMidMatch then
    indexRun c (byteOf x) x.length (mlen - 1) (cur + 1) (indexAtStart c x cur idx)
  else indexAtStart c x cur idx

variable {c : Config} {x : List Byte} {fuel cur anchor cand : Nat} {idx : Index}

theorem encodeScan_of_end (h : ¬cur + 4 ≤ x.length - c.endMargin) :
    encodeScan c x fuel cur anchor idx = lastBytes (x.drop anchor) := by
  cases fuel with
  | zero => rfl
  | succ fuel => rw [encodeScan, if_neg h]

theorem encodeScan_of_none (h : cur + 4 ≤ x.length - c.endMargin)
    (hs : sourceAt c x cur idx = none) :
    encodeScan c x (fuel + 1) cur anchor idx =
      encodeScan c x fuel (cur + 1) anchor (cellsWrite idx (slotAt c x cur) cur) := by
  unfold sourceAt slotAt at hs
  rw [encodeScan, if_pos h]
  simp only [hs, slotAt]

theorem encodeScan_of_some (h : cur + 4 ≤ x.length - c.endMargin)
    (hs : sourceAt c x cur idx = some cand) :
    encodeScan c x (fuel + 1) cur anchor idx =
      seqBytes ((x.drop anchor).take (cur - anchor)) (BitVec.ofNat 16 (cur - cand))
          (lengthAt c x cand cur) ++
        encodeScan c x fuel (cur + lengthAt c x cand cur) (cur + lengthAt c x cand cur)
          (indexAtEnd c x cur (lengthAt c x cand cur) idx) := by
  unfold sourceAt slotAt at hs
  rw [encodeScan, if_pos h]
  simp only [hs, lengthAt, indexAtEnd, indexAtStart, slotAt]

/-- What the encoder's loop keeps: the cursors in order, and every position of the index below `cur`
(R43, R201). -/
structure ScanOk (x : List Byte) (cur anchor : Nat) (idx : Index) : Prop where
  anchorLe : anchor ≤ cur
  curLe : cur ≤ x.length
  below : ∀ p ∈ idx, p.2 < cur

theorem scanOk_start (x : List Byte) : ScanOk x 0 0 [] :=
  ⟨le_refl 0, Nat.zero_le _, fun p hp => by simp at hp⟩

/-- A match found at `cur`: the source lies before it and in reach, and the match, at least 4 long,
repeats it up to `mlimit` (R205, R206). -/
structure MatchAt (c : Config) (x : List Byte) (cand cur n : Nat) : Prop where
  before : cand < cur
  near : cur - cand ≤ 65535
  long : 4 ≤ n
  fits : cur + n ≤ x.length - c.endMargin
  repeats : Repeats x cand cur n

/-- Every source the loop finds gives a match. -/
theorem matchAt_of_source (h : cur + 4 ≤ x.length - c.endMargin) (hok : ScanOk x cur anchor idx)
    (hs : sourceAt c x cur idx = some cand) : MatchAt c x cand cur (lengthAt c x cand cur) := by
  obtain ⟨hread, hnear, hrep⟩ := verified_eq_some hs
  obtain ⟨hlong, hfits, hall⟩ := extendMatch_repeats (fuel := x.length) h hrep
  exact ⟨hok.below _ (mem_of_cellsRead hread), hnear, hlong, hfits, hall⟩

theorem MatchAt.lt_length {n : Nat} (h : MatchAt c x cand cur n) : cur + n ≤ x.length := by
  have := h.fits
  omega

/-- The loop's condition after a literal (R210). -/
theorem ScanOk.advanceLiteral (hok : ScanOk x cur anchor idx) (h : cur + 1 ≤ x.length) (slot : Nat) :
    ScanOk x (cur + 1) anchor (cellsWrite idx slot cur) := by
  refine ⟨hok.anchorLe.trans (Nat.le_succ cur), h, fun p hp => ?_⟩
  rcases mem_cellsWrite hp with rfl | hp
  · exact Nat.lt_succ_self cur
  · exact (hok.below p hp).trans (Nat.lt_succ_self cur)

/-- UPDATE at the start of a match adds `cur` at most (R204). -/
theorem mem_indexAtStart {p : Nat × Nat} (hp : p ∈ indexAtStart c x cur idx) :
    p = (slotAt c x cur, cur) ∨ p ∈ idx := by
  unfold indexAtStart at hp
  split at hp
  · exact mem_cellsWrite hp
  · exact .inr hp

/-- The loop's condition after a match (R209). -/
theorem ScanOk.advanceMatch {n : Nat} (hok : ScanOk x cur anchor idx) (hm : MatchAt c x cand cur n) :
    ScanOk x (cur + n) (cur + n) (indexAtEnd c x cur n idx) := by
  have hlong := hm.long
  have hstart : ∀ p ∈ indexAtStart c x cur idx, p.2 < cur + n := fun p hp => by
    rcases mem_indexAtStart hp with rfl | hp
    · show cur < cur + n; omega
    · have := hok.below p hp; omega
  refine ⟨le_refl _, hm.lt_length, fun p hp => ?_⟩
  unfold indexAtEnd at hp
  split at hp
  · rcases mem_indexRun hp with hp | ⟨-, hp, -⟩
    · exact hstart p hp
    · omega
  · exact hstart p hp

/-! ### The round trip -/

/-- The literals from `anchor` on complete the output `x[0 .. anchor-1]` to `x` (R213). -/
theorem decodeSeqs_lastBytes_drop {maxLen lim decFuel : Nat} (hmax : x.length ≤ maxLen)
    (hlim : x.length ≤ lim) (ha : anchor ≤ x.length) :
    decodeSeqs maxLen lim (decFuel + 1) (lastBytes (x.drop anchor)) (x.take anchor) = .ok x := by
  rw [decodeSeqs_lastBytes (by rw [List.length_drop]; omega)
    (by rw [List.length_drop, List.length_take]; omega), List.take_append_drop]

/-- The sequence of a match at `cur` takes the output from `x[0 .. anchor-1]` to
`x[0 .. cur+mlen-1]` (R207). -/
theorem decodeSeqs_match {maxLen lim decFuel n : Nat} {rest : List Byte}
    (hmax : x.length ≤ maxLen) (hlim : x.length ≤ lim) (ha : anchor ≤ cur)
    (hm : MatchAt c x cand cur n) :
    decodeSeqs maxLen lim (decFuel + 1)
        (seqBytes ((x.drop anchor).take (cur - anchor)) (BitVec.ofNat 16 (cur - cand)) n ++ rest)
        (x.take anchor) =
      decodeSeqs maxLen lim decFuel rest (x.take (cur + n)) := by
  have hlen := hm.lt_length
  have hlong := hm.long
  have hbefore := hm.before
  have hoff : (BitVec.ofNat 16 (cur - cand)).toNat = cur - cand := by
    have := hm.near
    simp only [BitVec.toNat_ofNat]; omega
  have h0 : BitVec.ofNat 16 (cur - cand) ≠ 0#16 := fun e => by
    rw [e] at hoff; simp at hoff; omega
  have hlits : ((x.drop anchor).take (cur - anchor)).length = cur - anchor := by
    rw [List.length_take, List.length_drop]; omega
  have hout : (x.take anchor).length = anchor := by rw [List.length_take]; omega
  have hjoin : x.take anchor ++ (x.drop anchor).take (cur - anchor) = x.take cur := by
    rw [← List.take_add, Nat.add_sub_cancel' ha]
  rw [decodeSeqs_seqBytes (by omega) hlong (by omega) (by omega) h0 (by omega), hoff, hjoin,
    copyBack_take hbefore hlen hm.repeats]

/-- What the encoder's loop writes from `anchor` on decodes, behind the output `x[0 .. anchor-1]`, to
all of `x` (R216). -/
theorem decodeSeqs_encodeScan {maxLen lim decFuel : Nat} (hmax : x.length ≤ maxLen)
    (hlim : x.length ≤ lim) (hok : ScanOk x cur anchor idx)
    (hfuel : (encodeScan c x fuel cur anchor idx).length < decFuel) :
    decodeSeqs maxLen lim decFuel (encodeScan c x fuel cur anchor idx) (x.take anchor) = .ok x := by
  obtain ⟨decFuel, rfl⟩ : ∃ f, decFuel = f + 1 := ⟨decFuel - 1, by omega⟩
  induction fuel generalizing cur anchor idx decFuel with
  | zero => exact decodeSeqs_lastBytes_drop hmax hlim (hok.anchorLe.trans hok.curLe)
  | succ fuel ih =>
    by_cases h : cur + 4 ≤ x.length - c.endMargin
    · cases hs : sourceAt c x cur idx with
      | none =>
        rw [encodeScan_of_none h hs] at hfuel ⊢
        exact ih (hok.advanceLiteral (by omega) _) decFuel hfuel
      | some cand =>
        have hm := matchAt_of_source h hok hs
        rw [encodeScan_of_some h hs] at hfuel ⊢
        rw [List.length_append, seqBytes_length] at hfuel
        rw [decodeSeqs_match hmax hlim hok.anchorLe hm]
        obtain ⟨fuel', rfl⟩ : ∃ f, decFuel = f + 1 := ⟨decFuel - 1, by omega⟩
        exact ih (hok.advanceMatch hm) fuel' (by omega)
    · rw [encodeScan_of_end h]
      exact decodeSeqs_lastBytes_drop hmax hlim (hok.anchorLe.trans hok.curLe)

/-- Settles O57: the decoder follows the encoder's loop sequence by sequence, its output always the
input up to the anchor. -/
theorem decodeInvertsEncodeBlock : Obligations.DecodeInvertsEncodeBlock := by
  intro c maxLen lim x hmax hlim
  exact decodeSeqs_encodeScan hmax hlim (scanOk_start x) (Nat.lt_succ_self _)

end Sys2Proof.Machine
end

section
/-! PROOFS. What proofs about whole operations share: the input and the output as byte lists, and what
the host finds when an operation has ended. -/

namespace Sys2Proof.Machine

variable {s : State}

/-! ### The input as a byte list -/

theorem inBytes_add (s : State) (a m n : Nat) :
    s.inBytes a (m + n) = s.inBytes a m ++ s.inBytes (a + m) n := by
  simp [State.inBytes, List.range_add, Nat.add_assoc]

theorem inBytes_succ (s : State) (a n : Nat) :
    s.inBytes a (n + 1) = s.inByte a :: s.inBytes (a + 1) n := by
  rw [Nat.add_comm n 1, inBytes_add]
  rfl

@[simp] theorem input_length (s : State) : s.input.length = s.regs.inLen := inBytes_length s 0 _

theorem byteOf_input {p : Nat} (h : p < s.regs.inLen) : byteOf s.input p = s.inByte p := by
  rw [byteOf, State.input, State.inBytes, List.getD_eq_getElem _ _ (by simpa using h)]
  simp

theorem input_drop {a : Nat} (h : a ≤ s.regs.inLen) :
    s.input.drop a = s.inBytes a (s.regs.inLen - a) := by
  have hsplit : s.input = s.inBytes 0 a ++ s.inBytes a (s.regs.inLen - a) := by
    rw [State.input, ← Nat.add_sub_cancel' h, inBytes_add, Nat.zero_add, Nat.add_sub_cancel_left]
  rw [hsplit, List.drop_left' (inBytes_length s 0 a)]

theorem input_drop_take {a n : Nat} (h : a + n ≤ s.regs.inLen) :
    (s.input.drop a).take n = s.inBytes a n := by
  rw [input_drop (by omega), show s.regs.inLen - a = n + (s.regs.inLen - a - n) by omega,
    inBytes_add, List.take_left' (inBytes_length s a n)]

/-! ### The output as a byte list -/

/-- The bytes of the output so far, `OUT[0 .. olen-1]` (R72). -/
def State.produced (s : State) : List Byte := s.outBytes 0 s.olen

@[simp] theorem produced_length (s : State) : s.produced.length = s.olen := outBytes_length s 0 s.olen

@[simp] theorem output_length (s : State) : s.output.length = s.regs.outLen := outBytes_length s 0 _

@[simp] theorem produced_putCell (x : Byte) (s : State) :
    (putCell x s).produced = s.produced ++ [x] := by
  rw [State.produced, State.produced, State.outBytes, putCell_olen, List.range_succ, List.map_append]
  congr 1
  · refine List.map_congr_left fun k hk => ?_
    have := List.mem_range.1 hk
    rw [putCell_outByte, if_neg (by omega)]
  · simp

@[simp] theorem produced_putCells (xs : List Byte) (s : State) :
    (putCells xs s).produced = s.produced ++ xs := by
  induction xs generalizing s with
  | nil => simp
  | cons x xs ih => rw [putCells_cons, ih, produced_putCell, List.append_assoc]; rfl

/-! ### How an operation ends (R254, R256) -/

/-- What the host finds when an operation has ended as `r`: DONE and these bytes, or ERROR and this
cause (R33, R34, R36, R256). -/
def Reports (t : State) (r : Except Cause (List Byte)) : Prop :=
  match r with
  | .ok out => t.regs.status = .done ∧ t.regs.cause = .none ∧ t.output = out
  | .error c => t.regs.status = .error ∧ t.regs.cause = c ∧ t.regs.outLen = 0

/-- The operation that the host's one move starts ends in a state that reports `r`, IN as it was. -/
def Completes (s : State) (r : Except Cause (List Byte)) : Prop :=
  ∃ n t, reaches n s t ∧ t.hostWaits ∧ Reports t r ∧ t.inp = s.inp

/-- The host's write of CMD, its last move, runs the command (R32, R112). -/
theorem step_command {v : Nat} (h : s.host.script = [.write (.reg 0) v]) :
    step s = exec (decodeCommand (BitVec.ofNat 8 v)) (setScript [] s) :=
  step_of_writesNext (.inl h)

/-- An operation completes as it does from the step after the host's move. -/
theorem Completes.of_step {t : State} {r : Except Cause (List Byte)} (h : step s = .next t)
    (hinp : t.inp = s.inp) (ht : Completes t r) : Completes s r := by
  obtain ⟨n, u, hu, hw, hr, hi⟩ := ht
  exact ⟨n + 1, u, reaches_of_step h hu, hw, hr, hi.trans hinp⟩

end Sys2Proof.Machine
end

section
/-! PROOFS. A run of the decoder's phases computes `decode` of R181: one lemma per phase, each giving
the state the phase ends in, and the induction over the sequences of a block. -/

namespace Sys2Proof.Machine

/-! ### The input ahead -/

@[simp] theorem ahead_length (s : State) : s.ahead.length = s.regs.inLen - s.dec.ip :=
  inBytes_length s _ _

/-- The input ahead, cut after `n` bytes. -/
theorem ahead_eq_append {s : State} {n : Nat} (h : n ≤ s.regs.inLen - s.dec.ip) :
    s.ahead = s.inBytes s.dec.ip n ++ s.inBytes (s.dec.ip + n) (s.regs.inLen - (s.dec.ip + n)) := by
  rw [← inBytes_add, State.ahead]
  congr 1
  omega

theorem ahead_eq_cons {s : State} (h : s.dec.ip < s.regs.inLen) :
    s.ahead =
      s.inByte s.dec.ip :: s.inBytes (s.dec.ip + 1) (s.regs.inLen - (s.dec.ip + 1)) := by
  rw [← inBytes_succ, State.ahead]
  congr 1
  omega

theorem ahead_eq_nil {s : State} (h : s.regs.inLen ≤ s.dec.ip) : s.ahead = [] :=
  List.eq_nil_of_length_eq_zero (by rw [ahead_length]; omega)

/-- A rest of the input ahead is what is ahead of the cursor that many bytes before the end. -/
theorem inBytes_of_suffix {s : State} {rest : List Byte} (h : rest <:+ s.ahead) :
    s.inBytes (s.regs.inLen - rest.length) (s.regs.inLen - (s.regs.inLen - rest.length)) = rest := by
  have hlen := h.length_le
  rw [ahead_length] at hlen
  obtain ⟨pre, hpre⟩ := h
  have hprelen := congrArg List.length hpre
  rw [List.length_append, ahead_length] at hprelen
  rw [ahead_eq_append (n := pre.length) (by omega)] at hpre
  have hright := (List.append_inj hpre (inBytes_length s _ _).symm).2
  rcases Nat.lt_or_ge s.dec.ip s.regs.inLen with hip | hip
  · rw [← show s.dec.ip + pre.length = s.regs.inLen - rest.length by omega, ← hright]
  · obtain rfl : rest = [] := List.eq_nil_of_length_eq_zero (by omega)
    simp [State.inBytes]

/-! ### What appending and LDEC leave -/

/-- Putting bytes does not look at the decoder's registers. -/
theorem putCells_withDec (xs : List Byte) (s : State) (d : DecRegs) :
    putCells xs { s with dec := d } = { putCells xs s with dec := d } := by
  induction xs generalizing s with
  | nil => rfl
  | cons x xs ih => exact ih (putCell x s)

/-- What LDEC leaves is a rest of what it was given (R141). -/
theorem ldecLoop_suffix {maxLen acc n : Nat} {bytes rest : List Byte}
    (h : ldecLoop maxLen bytes acc = .ok (n, rest)) : rest <:+ bytes := by
  induction bytes generalizing acc with
  | nil => simp [ldecLoop] at h
  | cons x bytes ih =>
    unfold ldecLoop at h
    split at h
    · cases h
    · split at h
      · exact (ih h).trans (List.suffix_cons x bytes)
      · cases h; exact List.suffix_cons ..

theorem ldec_suffix {maxLen n : Nat} {nib : Nibble} {bytes rest : List Byte}
    (h : ldec maxLen nib bytes = .ok (n, rest)) : rest <:+ bytes := by
  unfold ldec at h
  split at h
  · exact ldecLoop_suffix h
  · cases h; exact List.suffix_refl bytes

/-! ### What the decoder leaves alone -/

/-- Nothing but OUT, `olen` and the decoder's and the codec's registers differs (R71, R80). -/
structure DecFrame (s t : State) : Prop where
  cfg : t.cfg = s.cfg
  regs : t.regs = s.regs
  inp : t.inp = s.inp
  idx : t.idx = s.idx
  enc : t.enc = s.enc
  unit : t.unit = s.unit
  host : t.host = s.host
  free : t.free = s.free

namespace DecFrame

variable {s t u : State}

theorem trans (h : DecFrame s t) (h' : DecFrame t u) : DecFrame s u :=
  ⟨h'.cfg.trans h.cfg, h'.regs.trans h.regs, h'.inp.trans h.inp, h'.idx.trans h.idx,
    h'.enc.trans h.enc, h'.unit.trans h.unit, h'.host.trans h.host, h'.free.trans h.free⟩

/-- A change of the decoder's and the codec's registers alone. -/
theorem registers (s : State) (d : DecRegs) (l : CodecRegs) :
    DecFrame s { s with dec := d, lc := l } := ⟨rfl, rfl, rfl, rfl, rfl, rfl, rfl, rfl⟩

/-- Bytes appended to OUT, and a change of the decoder's registers. -/
theorem putCells (xs : List Byte) (s : State) (d : DecRegs) :
    DecFrame s { Machine.putCells xs s with dec := d } := by constructor <;> simp

theorem waits (h : DecFrame s t) (hw : s.hostWaits) : t.hostWaits := by
  rw [State.hostWaits, h.host]; exact hw

theorem decoding (h : DecFrame s t) (hd : s.decoding) : t.decoding := by
  obtain ⟨hb, hu, hc, ha⟩ := hd
  refine ⟨by rw [h.regs]; exact hb, by rw [h.unit]; exact hu, by rw [h.regs, h.cfg]; exact hc, ?_⟩
  rw [State.apart, mapOverlaps, State.inputBytes, h.cfg, h.regs]
  exact ha

theorem lim (h : DecFrame s t) : t.lim = s.lim := by rw [State.lim, h.regs, h.cfg]; rfl

theorem inBytes (h : DecFrame s t) (a n : Nat) : t.inBytes a n = s.inBytes a n := by
  unfold State.inBytes State.inByte
  rw [h.inp, h.free]

theorem ahead (h : DecFrame s t) : t.ahead = s.inBytes t.dec.ip (s.regs.inLen - t.dec.ip) := by
  rw [State.ahead, h.inBytes, h.regs]

end DecFrame

/-! ### Phases LITLEN and MATCHLEN (R141, R162, R166) -/

/-- The run from `s` comes to error entry with cause `c`, only decoder and codec registers having
changed before it (R280). -/
def RunRaises (s : State) (c : Cause) : Prop :=
  ∃ k d l, reaches k s (raise c { s with dec := d, lc := l })

variable {s : State}

theorem RunRaises.of_reaches {c : Cause} {k : Nat} {d : DecRegs} {l : CodecRegs}
    (h : reaches k s { s with dec := d, lc := l }) (hr : RunRaises { s with dec := d, lc := l } c) :
    RunRaises s c := by
  obtain ⟨k', d', l', h'⟩ := hr
  exact ⟨k + k', d', l', reaches_trans h h'⟩

/-- Where an escape byte is due the step reads it (R141). -/
theorem decoderMove_escape (hp : s.dec.phase = .litLen ∨ s.dec.phase = .matchLen)
    (hl : s.lc.loop = .more) : decoderMove s = readElement .escape s := by
  rcases hp with hp | hp <;> simp [decoderMove, hp, ldecMove, hl]

/-- An escape byte that is there is one turn of LDEC's loop (R143, R144). -/
theorem step_escape (hw : s.hostWaits) (hd : s.decoding)
    (hp : s.dec.phase = .litLen ∨ s.dec.phase = .matchLen) (hl : s.lc.loop = .more)
    (hip : s.dec.ip < s.regs.inLen) :
    step s =
      .next (escapeByte (s.inByte s.dec.ip)
        (if s.inByte s.dec.ip = 255#8 then .more else .finished) s) := by
  rw [step_decoding hw hd, decoderMove_escape hp hl]
  rcases readElement_escape s with ⟨h, -⟩ | ⟨-, h⟩
  · omega
  · rw [h, runMove_instr, exec_decodeEscape]

/-- The escape bytes read one a step are LDEC's loop over the input ahead (R141). -/
theorem ldecLoop_run (hw : s.hostWaits) (hd : s.decoding)
    (hp : s.dec.phase = .litLen ∨ s.dec.phase = .matchLen) (hl : s.lc.loop = .more) :
    (∀ n rest, ldecLoop s.cfg.maxLen s.ahead s.lc.acc = .ok (n, rest) →
        ∃ k b, reaches k s
          { s with
            dec := { s.dec with ip := s.regs.inLen - rest.length }
            lc := { acc := n, b := b, loop := .finished } }) ∧
      ∀ c, ldecLoop s.cfg.maxLen s.ahead s.lc.acc = .error c → RunRaises s c := by
  generalize hm : s.regs.inLen - s.dec.ip = m
  induction m generalizing s with
  | zero =>
    have hstep := step_decoding hw hd
    rw [decoderMove_escape hp hl] at hstep
    rw [ahead_eq_nil (by omega)]
    rcases readElement_escape s with ⟨-, h⟩ | ⟨h, -⟩
    · rw [h] at hstep
      refine ⟨fun n rest h => by simp [ldecLoop] at h, fun c h => ?_⟩
      cases h
      exact ⟨1, s.dec, s.lc, reaches_one hstep⟩
    · omega
  | succ m ih =>
    have hip : s.dec.ip < s.regs.inLen := by omega
    have hstep := step_escape hw hd hp hl hip
    rw [ahead_eq_cons hip, ldecLoop]
    generalize s.inByte s.dec.ip = x at hstep ⊢
    rcases escapeByte_cases x (if x = 255#8 then .more else .finished) s with ⟨ho, he⟩ | ⟨ho, he⟩
    · rw [he] at hstep
      rw [if_pos ho]
      refine ⟨fun _ _ h => (nomatch h), fun c h => ?_⟩
      cases h
      exact ⟨1, _, _, reaches_one hstep⟩
    · rw [he] at hstep
      rw [if_neg (by omega)]
      split
      · next hx =>
        rw [if_pos hx] at hstep
        obtain ⟨hok, herr⟩ := ih (s := { s with
          dec := { s.dec with ip := s.dec.ip + 1 }
          lc := { acc := s.lc.acc + x.toNat, b := x, loop := .more } }) hw hd hp rfl
          (by show s.regs.inLen - (s.dec.ip + 1) = m; omega)
        refine ⟨fun n rest h => ?_, fun c h => ?_⟩
        · obtain ⟨k, b, hk⟩ := hok n rest h
          exact ⟨k + 1, b, reaches_of_step hstep hk⟩
        · exact (herr c h).of_reaches (reaches_one hstep)
      · next hx =>
        rw [if_neg hx] at hstep
        refine ⟨fun n rest h => ?_, fun _ h => nomatch h⟩
        cases h
        rw [inBytes_length, Nat.sub_sub_self hip]
        exact ⟨1, _, reaches_one hstep⟩

/-- Once LDEC has returned the step commits its value (R162, R166). -/
theorem step_ldecFinished {nib : Nibble} {commit : State → State} (hw : s.hostWaits)
    (hd : s.decoding) (hmove : decoderMove s = ldecMove nib commit s)
    (hl : s.lc.loop = .finished) : step s = .next (commit s) := by
  rw [step_decoding hw hd, hmove, ldecMove, hl]
  rfl

theorem decoderMove_litLen (hp : s.dec.phase = .litLen) :
    decoderMove s = ldecMove s.dec.l commitLitLen s := by rw [decoderMove, hp]

theorem decoderMove_matchLen (hp : s.dec.phase = .matchLen) :
    decoderMove s = ldecMove s.dec.m commitMatLen s := by rw [decoderMove, hp]

theorem decoderMove_litCopy (hp : s.dec.phase = .litCopy) : decoderMove s = litCopyMove s := by
  rw [decoderMove, hp]

theorem decoderMove_matchCopy (hp : s.dec.phase = .matchCopy) :
    decoderMove s = .internal (matchCopy s) := by rw [decoderMove, hp]

/-- LDEC entered at the start of a phase, and run: its value in `acc`, the cursor past the escape
bytes, or its cause (R141). -/
theorem ldec_run {nib : Nibble} {commit : State → State} (hw : s.hostWaits) (hd : s.decoding)
    (hp : s.dec.phase = .litLen ∨ s.dec.phase = .matchLen)
    (hmove : decoderMove s = ldecMove nib commit s) (hl : s.lc.loop = .start)
    (hip : s.dec.ip ≤ s.regs.inLen) :
    (∀ n rest, ldec s.cfg.maxLen nib s.ahead = .ok (n, rest) →
        ∃ k b, reaches k s
          { s with
            dec := { s.dec with ip := s.regs.inLen - rest.length }
            lc := { acc := n, b := b, loop := .finished } }) ∧
      ∀ c, ldec s.cfg.maxLen nib s.ahead = .error c → RunRaises s c := by
  have hstep : step s = .next (ldecEnter nib s) := by
    rw [step_decoding hw hd, hmove, ldecMove, hl]; rfl
  unfold ldecEnter at hstep
  unfold ldec
  split
  · next hn =>
    rw [if_pos hn] at hstep
    obtain ⟨hok, herr⟩ := ldecLoop_run (s := { s with
      lc := { s.lc with acc := nib.toNat, loop := .more } }) hw hd hp rfl
    refine ⟨fun n rest h => ?_, fun c h => ?_⟩
    · obtain ⟨k, b, hk⟩ := hok n rest h
      exact ⟨k + 1, b, reaches_of_step hstep hk⟩
    · exact (herr c h).of_reaches (reaches_one hstep)
  · next hn =>
    rw [if_neg hn] at hstep
    refine ⟨fun n rest h => ?_, fun _ h => nomatch h⟩
    cases h
    rw [ahead_length, Nat.sub_sub_self hip]
    exact ⟨1, _, reaches_one hstep⟩

/-- Phase LITLEN is LDEC of `L` (R162). -/
theorem litLen_run (hw : s.hostWaits) (hd : s.decoding) (hp : s.dec.phase = .litLen)
    (hl : s.lc.loop = .start) (hip : s.dec.ip ≤ s.regs.inLen) :
    (∀ n rest, ldec s.cfg.maxLen s.dec.l s.ahead = .ok (n, rest) →
        ∃ k lc, reaches k s
          { s with
            dec :=
              { s.dec with
                ip := s.regs.inLen - rest.length, litLen := n, left := n, phase := .litCopy }
            lc := lc }) ∧
      ∀ c, ldec s.cfg.maxLen s.dec.l s.ahead = .error c → RunRaises s c := by
  obtain ⟨hok, herr⟩ := ldec_run hw hd (.inl hp) (decoderMove_litLen hp) hl hip
  refine ⟨fun n rest h => ?_, herr⟩
  obtain ⟨k, b, hk⟩ := hok n rest h
  have hstep := step_ldecFinished (s := { s with
    dec := { s.dec with ip := s.regs.inLen - rest.length }
    lc := { acc := n, b := b, loop := .finished } }) hw hd (decoderMove_litLen hp) rfl
  exact ⟨k + 1, _, reaches_trans hk (reaches_one hstep)⟩

/-- Phase MATCHLEN is LDEC of `M` plus 4, where the sum fits (R166). -/
theorem matchLen_run (hw : s.hostWaits) (hd : s.decoding) (hp : s.dec.phase = .matchLen)
    (hl : s.lc.loop = .start) (hip : s.dec.ip ≤ s.regs.inLen) :
    (∀ n rest, ldec s.cfg.maxLen s.dec.m s.ahead = .ok (n, rest) →
        (n + 4 ≤ s.cfg.maxLen →
            ∃ k lc, reaches k s
              { s with
                dec :=
                  { s.dec with
                    ip := s.regs.inLen - rest.length, matLen := n + 4, left := n + 4,
                    phase := .matchCopy }
                lc := lc }) ∧
          (s.cfg.maxLen < n + 4 → RunRaises s .overflow)) ∧
      ∀ c, ldec s.cfg.maxLen s.dec.m s.ahead = .error c → RunRaises s c := by
  obtain ⟨hok, herr⟩ := ldec_run hw hd (.inr hp) (decoderMove_matchLen hp) hl hip
  refine ⟨fun n rest h => ?_, herr⟩
  obtain ⟨k, b, hk⟩ := hok n rest h
  have hstep := step_ldecFinished (s := { s with
    dec := { s.dec with ip := s.regs.inLen - rest.length }
    lc := { acc := n, b := b, loop := .finished } }) hw hd (decoderMove_matchLen hp) rfl
  rcases commitMatLen_cases { s with
    dec := { s.dec with ip := s.regs.inLen - rest.length }
    lc := { acc := n, b := b, loop := .finished } } with ⟨hover, he⟩ | ⟨hfit, he⟩
  · rw [he] at hstep
    exact ⟨fun hfit => absurd hfit (Nat.not_le.2 hover),
      fun _ => ⟨k + 1, _, _, reaches_trans hk (reaches_one hstep)⟩⟩
  · rw [he] at hstep
    exact ⟨fun _ => ⟨k + 1, _, reaches_trans hk (reaches_one hstep)⟩,
      fun hover => absurd hfit (Nat.not_le.2 hover)⟩

/-! ### Phases LITCOPY and MATCHCOPY (R163, R167) -/

/-- With nothing left to copy, the end of a copy is the next phase alone. -/
theorem setPhase_of_left_zero (p : Phase) (h : s.dec.left = 0) :
    setPhase p s = { s with dec := { s.dec with left := 0, phase := p } } := by
  rw [← h]
  rfl

/-- What LITCOPY does next where its two tests pass (R163). -/
theorem step_litCopy (hw : s.hostWaits) (hd : s.decoding) (hp : s.dec.phase = .litCopy)
    (hin : s.dec.left ≤ s.regs.inLen - s.dec.ip) (hlim : s.dec.left ≤ s.lim - s.olen) :
    step s =
      if s.dec.left = 0 then .next (setPhase .endCheck s)
      else
        .next
          { putCell (s.inByte s.dec.ip) s with
            dec := { s.dec with ip := s.dec.ip + 1, left := s.dec.left - 1 } } := by
  have hover : literalOverrun s = false := decide_eq_false (by omega)
  have hlimit : overLimit s = false := decide_eq_false (by omega)
  have hcap := lim_le s
  rw [step_decoding hw hd, decoderMove_litCopy hp]
  simp only [litCopyMove, hover, hlimit, Bool.false_eq_true, if_false]
  split
  · rfl
  · next hn =>
    rcases readElement_literal s with ⟨h, -⟩ | ⟨-, h⟩
    · omega
    · rw [h, runMove_instr, execLit_of_lt (by omega)]

/-- LITCOPY with too few bytes left in the input (R163, R275). -/
theorem step_litCopy_trunc (hw : s.hostWaits) (hd : s.decoding) (hp : s.dec.phase = .litCopy)
    (h : s.regs.inLen - s.dec.ip < s.dec.left) : step s = .next (raise .truncLiteral s) := by
  rw [step_decoding hw hd, decoderMove_litCopy hp, litCopyMove,
    if_pos (show literalOverrun s from decide_eq_true h)]
  rfl

/-- LITCOPY with the literals in the input but too little room (R163, R276). -/
theorem step_litCopy_limit (hw : s.hostWaits) (hd : s.decoding) (hp : s.dec.phase = .litCopy)
    (hin : s.dec.left ≤ s.regs.inLen - s.dec.ip) (h : s.lim - s.olen < s.dec.left) :
    step s = .next (raise .limit s) := by
  have hover : literalOverrun s = false := decide_eq_false (by omega)
  rw [step_decoding hw hd, decoderMove_litCopy hp, litCopyMove, hover,
    if_pos (show overLimit s from decide_eq_true h)]
  rfl

/-- The literals, copied one a step, where the input has them and the limit admits them (R163). -/
theorem litCopy_run {n : Nat} (hw : s.hostWaits) (hd : s.decoding) (hp : s.dec.phase = .litCopy)
    (hn : s.dec.left = n) (hin : n ≤ s.regs.inLen - s.dec.ip) (hlim : n ≤ s.lim - s.olen) :
    ∃ k, reaches k s
      { putCells (s.inBytes s.dec.ip n) s with
        dec := { s.dec with ip := s.dec.ip + n, left := 0, phase := .endCheck } } := by
  induction n generalizing s with
  | zero =>
    have hstep := step_litCopy hw hd hp (by omega) (by omega)
    rw [if_pos hn, setPhase_of_left_zero _ hn] at hstep
    exact ⟨1, reaches_one hstep⟩
  | succ n ih =>
    have hstep := step_litCopy hw hd hp (by omega) (by omega)
    rw [if_neg (by omega)] at hstep
    obtain ⟨k, hk⟩ := ih (s := { putCell (s.inByte s.dec.ip) s with
      dec := { s.dec with ip := s.dec.ip + 1, left := s.dec.left - 1 } }) hw hd hp
      (by show s.dec.left - 1 = n; omega)
      (by show n ≤ s.regs.inLen - (s.dec.ip + 1); omega)
      (by show n ≤ s.lim - (s.olen + 1); omega)
    refine ⟨k + 1, reaches_of_step hstep ?_⟩
    rw [putCells_withDec] at hk
    rw [inBytes_succ, putCells_cons, show s.dec.ip + (n + 1) = s.dec.ip + 1 + n by omega]
    exact hk

/-- What MATCHCOPY does next where its test passes and the offset is legal (R167). -/
theorem step_matchCopy (hw : s.hostWaits) (hd : s.decoding) (hp : s.dec.phase = .matchCopy)
    (h0 : s.dec.off ≠ 0#16) (hoff : s.dec.off.toNat ≤ s.olen)
    (hlim : s.dec.left ≤ s.lim - s.olen) :
    step s =
      if s.dec.left = 0 then .next (setPhase .token s)
      else
        .next
          { putCell (s.outByte (s.olen - s.dec.off.toNat)) s with
            dec := { s.dec with left := s.dec.left - 1 } } := by
  have hlimit : overLimit s = false := decide_eq_false (by omega)
  have hcap := lim_le s
  rw [step_decoding hw hd, decoderMove_matchCopy hp]
  simp only [matchCopy, hlimit, Bool.false_eq_true, if_false, runMove_internal]
  split
  · rfl
  · next hn =>
    rw [if_neg (by simp [h0]; omega), put_of_lt (by omega)]
    rfl

/-- MATCHCOPY with too little room (R167, R276). -/
theorem step_matchCopy_limit (hw : s.hostWaits) (hd : s.decoding) (hp : s.dec.phase = .matchCopy)
    (h : s.lim - s.olen < s.dec.left) : step s = .next (raise .limit s) := by
  rw [step_decoding hw hd, decoderMove_matchCopy hp, runMove_internal, matchCopy,
    if_pos (show overLimit s from decide_eq_true h)]

/-- The match, copied one byte a step, is `copyBack` on the output so far (R167, R180). -/
theorem matchCopy_run {n : Nat} (hw : s.hostWaits) (hd : s.decoding) (hp : s.dec.phase = .matchCopy)
    (hn : s.dec.left = n) (h0 : s.dec.off ≠ 0#16) (hoff : s.dec.off.toNat ≤ s.olen)
    (hlim : n ≤ s.lim - s.olen) :
    ∃ k xs, reaches k s
        { putCells xs s with dec := { s.dec with left := 0, phase := .token } } ∧
      s.produced ++ xs = copyBack s.dec.off.toNat n s.produced := by
  induction n generalizing s with
  | zero =>
    have hstep := step_matchCopy hw hd hp h0 hoff (by omega)
    rw [if_pos hn, setPhase_of_left_zero _ hn] at hstep
    exact ⟨1, [], reaches_one hstep, List.append_nil _⟩
  | succ n ih =>
    have hstep := step_matchCopy hw hd hp h0 hoff (by omega)
    rw [if_neg (by omega)] at hstep
    obtain ⟨k, xs, hk, hxs⟩ := ih (s := { putCell (s.outByte (s.olen - s.dec.off.toNat)) s with
      dec := { s.dec with left := s.dec.left - 1 } }) hw hd hp
      (by show s.dec.left - 1 = n; omega) h0 (by show s.dec.off.toNat ≤ s.olen + 1; omega)
      (by show n ≤ s.lim - (s.olen + 1); omega)
    refine ⟨k + 1, s.outByte (s.olen - s.dec.off.toNat) :: xs, reaches_of_step hstep ?_, ?_⟩
    · rw [putCells_withDec] at hk
      exact hk
    · have hbyte : s.produced.getD (s.produced.length - s.dec.off.toNat) 0#8 =
          s.outByte (s.olen - s.dec.off.toNat) := by
        have hpos : s.dec.off.toNat ≠ 0 := fun e => h0 (BitVec.eq_of_toNat_eq e)
        rw [produced_length, State.produced, State.outBytes,
          List.getD_eq_getElem _ _ (by simp; omega)]
        simp
      rw [copyBack, hbyte, ← produced_putCell, List.append_cons, ← produced_putCell]
      exact hxs

/-! ### A block, sequence by sequence (R168, R181) -/

/-- The run from `s` ends as `r` says: in DONE with these bytes in OUT, or in error entry with this
cause (R169, R280). -/
def EndsAs (s : State) (r : Except Cause (List Byte)) : Prop :=
  ∃ k t, DecFrame s t ∧
    match r with
    | .ok out => reaches k s (stopDone t) ∧ t.produced = out
    | .error c => reaches k s (raise c t)

theorem EndsAs.of_reaches {k : Nat} {t : State} {r : Except Cause (List Byte)}
    (h : reaches k s t) (hf : DecFrame s t) (ht : EndsAs t r) : EndsAs s r := by
  obtain ⟨k', u, hu, hend⟩ := ht
  refine ⟨k + k', u, hf.trans hu, ?_⟩
  cases r with
  | ok out => exact ⟨reaches_trans h hend.1, hend.2⟩
  | error c => exact reaches_trans h hend

theorem RunRaises.endsAs {c : Cause} (h : RunRaises s c) : EndsAs s (.error c) := by
  obtain ⟨k, d, l, h⟩ := h
  exact ⟨k, _, DecFrame.registers s d l, h⟩

/-- A step into error entry. -/
theorem endsAs_of_raise {c : Cause} (h : step s = .next (raise c s)) : EndsAs s (.error c) :=
  ⟨1, s, DecFrame.registers s s.dec s.lc, reaches_one h⟩

/-- The part of R181's loop from phase MATCHLEN on: the match length, the copy, the next sequence. -/
def decodeMatch (maxLen lim fuel : Nat) (off : Offset) (m : Nibble) (bytes out : List Byte) :
    Except Cause (List Byte) :=
  match ldec maxLen m bytes with
  | .error c => .error c
  | .ok (n, next) =>
    if maxLen < n + 4 then .error .overflow
    else if lim - out.length < n + 4 then .error .limit
    else decodeSeqs maxLen lim fuel next (copyBack off.toNat (n + 4) out)

/-- The part of R181's loop from phase ENDCHECK on: the end of the block, or the offset. -/
def decodeTail (maxLen lim fuel : Nat) (m : Nibble) (bytes out : List Byte) :
    Except Cause (List Byte) :=
  match bytes with
  | [] => .ok out
  | [_] => .error .truncField
  | lo :: hi :: next =>
    if joinOffset lo hi = 0#16 ∨ out.length < (joinOffset lo hi).toNat then .error .badOffset
    else decodeMatch maxLen lim fuel (joinOffset lo hi) m next out

/-- One turn of R181's loop in these parts. -/
theorem decodeSeqs_cons {maxLen lim fuel : Nat} {tok : Byte} {bytes out : List Byte} :
    decodeSeqs maxLen lim (fuel + 1) (tok :: bytes) out =
      match ldec maxLen (hiNibble tok) bytes with
      | .error c => .error c
      | .ok (n, lits) =>
        if lits.length < n then .error .truncLiteral
        else if lim - out.length < n then .error .limit
        else
          decodeTail maxLen lim fuel (loNibble tok) (lits.drop n) (out ++ lits.take n) := by
  rw [decodeSeqs]
  rfl

/-- From every start of a sequence the run ends as R181's loop says, whatever its fuel, if it is above
the number of bytes ahead. -/
def RunsSequences (fuel : Nat) : Prop :=
  ∀ s : State, s.hostWaits → s.decoding → s.dec.phase = .token → s.ahead.length < fuel →
    EndsAs s (decodeSeqs s.cfg.maxLen s.lim fuel s.ahead s.produced)

variable {fuel : Nat}

/-- Phase MATCHCOPY and all that follows it (R167). -/
theorem decodeCopy_run {n : Nat} {bytes : List Byte} (ih : RunsSequences fuel) (hw : s.hostWaits)
    (hd : s.decoding) (hp : s.dec.phase = .matchCopy) (hn : s.dec.left = n)
    (h0 : s.dec.off ≠ 0#16) (hoff : s.dec.off.toNat ≤ s.olen) (hb : s.ahead = bytes)
    (hfuel : bytes.length < fuel) :
    EndsAs s
      (if s.lim - s.produced.length < n then .error .limit
      else decodeSeqs s.cfg.maxLen s.lim fuel bytes (copyBack s.dec.off.toNat n s.produced)) := by
  rw [produced_length]
  split
  · next h => exact endsAs_of_raise (step_matchCopy_limit hw hd hp (by omega))
  · next h =>
    obtain ⟨k, xs, hk, hxs⟩ := matchCopy_run hw hd hp hn h0 hoff (by omega)
    have hf := DecFrame.putCells xs s { s.dec with left := 0, phase := .token }
    have hbytes := hf.ahead.trans hb
    have hrun := ih _ (hf.waits hw) (hf.decoding hd) rfl (by rwa [hbytes])
    rw [hf.cfg, hf.lim, hbytes] at hrun
    rw [← hxs, ← produced_putCells]
    exact EndsAs.of_reaches hk hf hrun

/-- Phase MATCHLEN and all that follows it (R166, R167). -/
theorem decodeMatch_run {bytes : List Byte} (ih : RunsSequences fuel) (hw : s.hostWaits)
    (hd : s.decoding) (hp : s.dec.phase = .matchLen) (hl : s.lc.loop = .start)
    (hip : s.dec.ip ≤ s.regs.inLen) (h0 : s.dec.off ≠ 0#16) (hoff : s.dec.off.toNat ≤ s.olen)
    (hb : s.ahead = bytes) (hfuel : bytes.length < fuel) :
    EndsAs s (decodeMatch s.cfg.maxLen s.lim fuel s.dec.off s.dec.m bytes s.produced) := by
  subst hb
  obtain ⟨hok, herr⟩ := matchLen_run hw hd hp hl hip
  unfold decodeMatch
  cases hld : ldec s.cfg.maxLen s.dec.m s.ahead with
  | error c => exact (herr c hld).endsAs
  | ok r =>
    obtain ⟨n, next⟩ := r
    obtain ⟨hfit, hover⟩ := hok n next hld
    dsimp only
    split
    · next h => exact (hover h).endsAs
    · next h =>
      obtain ⟨k, lc, hk⟩ := hfit (by omega)
      have hsuf := ldec_suffix hld
      have hnext := inBytes_of_suffix hsuf
      exact EndsAs.of_reaches hk (DecFrame.registers s _ lc)
        (decodeCopy_run ih hw hd rfl rfl h0 hoff hnext (hsuf.length_le.trans_lt hfuel))

/-- Phase OFFSET and all that follows it, not at the end of the input (R165). -/
theorem decodeOffset_run (ih : RunsSequences fuel) (hw : s.hostWaits) (hd : s.decoding)
    (hp : s.dec.phase = .offset) (hip : s.dec.ip < s.regs.inLen) (hfuel : s.ahead.length < fuel) :
    EndsAs s (decodeTail s.cfg.maxLen s.lim fuel s.dec.m s.ahead s.produced) := by
  have hstep : step s = runMove (readElement .offset s) := by
    rw [step_decoding hw hd, decoderMove, hp]
  rw [ahead_length] at hfuel
  rw [ahead_eq_cons hip]
  rcases readElement_offset s with ⟨h, he⟩ | ⟨h, he⟩
  · rw [he] at hstep
    rw [show s.regs.inLen - (s.dec.ip + 1) = 0 by omega]
    exact endsAs_of_raise hstep
  · rw [he, runMove_instr] at hstep
    rw [show s.regs.inLen - (s.dec.ip + 1) = s.regs.inLen - (s.dec.ip + 2) + 1 by omega,
      inBytes_succ, decodeTail, produced_length]
    rcases execOffset_cases (joinOffset (s.inByte s.dec.ip) (s.inByte (s.dec.ip + 1))) s with
      ⟨hbad, hx⟩ | ⟨h0, hle, hx⟩
    · rw [hx] at hstep
      rw [if_pos hbad]
      exact ⟨1, _, DecFrame.registers s _ s.lc, reaches_one hstep⟩
    · rw [hx] at hstep
      rw [if_neg (by rintro (h | h); exacts [h0 h, by omega])]
      exact EndsAs.of_reaches (reaches_one hstep) (DecFrame.registers s _ _)
        (decodeMatch_run ih hw hd rfl rfl h h0 hle rfl (by rw [inBytes_length]; omega))

/-- Phase ENDCHECK and all that follows it (R164, R165). -/
theorem decodeTail_run {bytes : List Byte} (ih : RunsSequences fuel) (hw : s.hostWaits)
    (hd : s.decoding) (hp : s.dec.phase = .endCheck) (hip : s.dec.ip ≤ s.regs.inLen)
    (hb : s.ahead = bytes) (hfuel : bytes.length < fuel) :
    EndsAs s (decodeTail s.cfg.maxLen s.lim fuel s.dec.m bytes s.produced) := by
  subst hb
  have hstep : step s = .next (endCheck s) := by rw [step_decoding hw hd, decoderMove, hp]; rfl
  unfold endCheck at hstep
  rcases Nat.eq_or_lt_of_le hip with hend | hlt
  · rw [if_pos hend] at hstep
    rw [ahead_eq_nil (by omega)]
    exact ⟨1, s, DecFrame.registers s s.dec s.lc, reaches_one hstep, rfl⟩
  · rw [if_neg (by omega)] at hstep
    exact EndsAs.of_reaches (reaches_one hstep) (DecFrame.registers s _ s.lc)
      (decodeOffset_run ih hw hd rfl hlt hfuel)

/-- Phase LITCOPY and all that follows it (R163). -/
theorem decodeLiterals_run {n : Nat} {bytes : List Byte} (ih : RunsSequences fuel)
    (hw : s.hostWaits) (hd : s.decoding) (hp : s.dec.phase = .litCopy) (hn : s.dec.left = n)
    (hip : s.dec.ip ≤ s.regs.inLen) (hb : s.ahead = bytes) (hfuel : bytes.length < fuel) :
    EndsAs s
      (if bytes.length < n then .error .truncLiteral
      else if s.lim - s.produced.length < n then .error .limit
      else
        decodeTail s.cfg.maxLen s.lim fuel s.dec.m (bytes.drop n)
          (s.produced ++ bytes.take n)) := by
  subst hb
  rw [ahead_length] at hfuel
  rw [ahead_length, produced_length]
  split
  · next h => exact endsAs_of_raise (step_litCopy_trunc hw hd hp (by omega))
  · next h =>
    split
    · next h' => exact endsAs_of_raise (step_litCopy_limit hw hd hp (by omega) (by omega))
    · next h' =>
      obtain ⟨k, hk⟩ := litCopy_run hw hd hp hn (by omega) (by omega)
      have hf := DecFrame.putCells (s.inBytes s.dec.ip n) s
        { s.dec with ip := s.dec.ip + n, left := 0, phase := .endCheck }
      have hrun := decodeTail_run ih (hf.waits hw) (hf.decoding hd) rfl
        (by rw [hf.regs]; show s.dec.ip + n ≤ s.regs.inLen; omega) hf.ahead
        ((inBytes_length s _ _).trans_lt (by show s.regs.inLen - (s.dec.ip + n) < fuel; omega))
      rw [hf.cfg, hf.lim] at hrun
      rw [ahead_eq_append (n := n) (by omega), List.drop_left' (inBytes_length s _ _),
        List.take_left' (inBytes_length s _ _), ← produced_putCells]
      exact EndsAs.of_reaches hk hf hrun

/-- A token byte is latched (R161). -/
theorem step_token (hw : s.hostWaits) (hd : s.decoding) (hp : s.dec.phase = .token)
    (hip : s.dec.ip < s.regs.inLen) :
    step s =
      .next
        (latchToken (hiNibble (s.inByte s.dec.ip)) (loNibble (s.inByte s.dec.ip)) s) := by
  rw [step_decoding hw hd, decoderMove, hp]
  rcases readElement_token s with ⟨h, -⟩ | ⟨-, h⟩
  · omega
  · dsimp only
    rw [h, runMove_instr, exec_decodeToken]

/-- Phase TOKEN with no byte left (R161, R272). -/
theorem step_token_trunc (hw : s.hostWaits) (hd : s.decoding) (hp : s.dec.phase = .token)
    (hip : s.regs.inLen ≤ s.dec.ip) : step s = .next (raise .truncField s) := by
  rw [step_decoding hw hd, decoderMove, hp]
  rcases readElement_token s with ⟨-, h⟩ | ⟨h, -⟩
  · dsimp only
    rw [h, runMove_internal]
  · omega

/-- Every sequence, and so every block, is R181's (R168). -/
theorem runsSequences (fuel : Nat) : RunsSequences fuel := by
  induction fuel with
  | zero => intro s _ _ _ h; omega
  | succ fuel ih =>
    intro s hw hd hp hfuel
    rw [ahead_length] at hfuel
    rcases Nat.lt_or_ge s.dec.ip s.regs.inLen with hip | hip
    · rw [ahead_eq_cons hip, decodeSeqs_cons]
      refine EndsAs.of_reaches (reaches_one (step_token hw hd hp hip)) (DecFrame.registers s _ _) ?_
      obtain ⟨hok, herr⟩ := litLen_run (s := latchToken (hiNibble (s.inByte s.dec.ip))
        (loNibble (s.inByte s.dec.ip)) s) hw hd rfl rfl hip
      split
      · next c hld => exact (herr c hld).endsAs
      · next n lits hld =>
        obtain ⟨k, lc, hk⟩ := hok n lits hld
        have hsuf := ldec_suffix hld
        have hlits := inBytes_of_suffix (s := latchToken (hiNibble (s.inByte s.dec.ip))
          (loNibble (s.inByte s.dec.ip)) s) hsuf
        have hlen := hsuf.length_le
        rw [inBytes_length] at hlen
        exact EndsAs.of_reaches hk (DecFrame.registers _ _ lc)
          (decodeLiterals_run ih hw hd rfl rfl (Nat.sub_le _ _) hlits (by omega))
    · rw [ahead_eq_nil hip, decodeSeqs]
      exact endsAs_of_raise (step_token_trunc hw hd hp hip)

/-! ### The whole operation (R160, R250) -/

/-- What a run ends as is what the host finds, if CAUSE was 0 (R169, R280). -/
theorem EndsAs.completes {r : Except Cause (List Byte)} (hw : s.hostWaits)
    (hc : s.regs.cause = .none) (h : EndsAs s r) : Completes s r := by
  obtain ⟨k, t, hf, hend⟩ := h
  cases r with
  | ok out =>
    exact ⟨k, stopDone t, hend.1, hf.waits hw,
      ⟨rfl, (congrArg HostRegs.cause hf.regs).trans hc, hend.2⟩, hf.inp⟩
  | error c => exact ⟨k, raise c t, hend, hf.waits hw, ⟨rfl, rfl, rfl⟩, hf.inp⟩

/-- START_DECOMPRESS with an input that fits IN (R250). -/
theorem exec_startDecompress (hb : s.regs.status ≠ .busy) (hin : s.regs.inLen ≤ s.cfg.inCap) :
    exec .cmdStartDecompress s = .next (startDecoder s) := by
  show execCmdStartDecompress s = _
  rw [execCmdStartDecompress, unlessBusy, if_neg hb, if_neg (Nat.not_lt.2 hin)]

/-- START_DECOMPRESS with an input that does not (R250). -/
theorem exec_startDecompress_refused (hb : s.regs.status ≠ .busy)
    (hin : s.cfg.inCap < s.regs.inLen) : exec .cmdStartDecompress s = .next (refuseStart s) := by
  show execCmdStartDecompress s = _
  rw [execCmdStartDecompress, unlessBusy, if_neg hb, if_pos hin]

/-- A DECOMPRESS is the function `decode` (R181). -/
theorem decompress_completes (hb : s.regs.status ≠ .busy) (hin : s.regs.inLen ≤ s.cfg.inCap)
    (ha : s.apart) (h : s.host.script = [.write (.reg 0) 1]) :
    Completes s (decodeBlock s.cfg.maxLen s.lim s.input) := by
  have hstep : step s = .next (startDecoder (setScript [] s)) := by
    rw [step_command h]
    exact exec_startDecompress (s := setScript [] s) hb hin
  have hrun := runsSequences (s.input.length + 1) (startDecoder (setScript [] s)) rfl
    ⟨rfl, rfl, hin, ha⟩ rfl (Nat.lt_succ_self _)
  exact Completes.of_step hstep rfl (EndsAs.completes rfl rfl hrun)

/-- A DECOMPRESS of an input that does not fit IN is refused at START with LIMIT (R250). -/
theorem decompress_refused (hb : s.regs.status ≠ .busy) (hin : s.cfg.inCap < s.regs.inLen)
    (h : s.host.script = [.write (.reg 0) 1]) : Completes s (.error .limit) := by
  have hstep : step s = .next (refuseStart (setScript [] s)) := by
    rw [step_command h]
    exact exec_startDecompress_refused (s := setScript [] s) hb hin
  exact ⟨1, _, reaches_one hstep, rfl, ⟨rfl, rfl, rfl⟩, rfl⟩

end Sys2Proof.Machine
end

section
/-! PROOFS. A run of the encoder's steps computes `encode` of R223: what each step does in a state that
the loop can be in, one turn of the loop as a run, and the induction over the scan. -/

namespace Sys2Proof.Machine

variable {s : State}

/-! ### The index reads the input alone -/

/-- The argument of the key function is four bytes of the input (R201). -/
theorem prefix32_congr {f g : Nat → Byte} {p len : Nat} (h : ∀ q < len, f q = g q)
    (hp : p + 4 ≤ len) : prefix32 f p = prefix32 g p := by
  rw [prefix32, prefix32, h p (by omega), h (p + 1) (by omega), h (p + 2) (by omega),
    h (p + 3) (by omega)]

/-- MIDINDEX looks at the input's bytes alone (R208). -/
theorem indexRun_congr {c : Config} {f g : Nat → Byte} {len n p : Nat} {idx : Index}
    (h : ∀ q < len, f q = g q) : indexRun c f len n p idx = indexRun c g len n p idx := by
  induction n generalizing p idx with
  | zero => rfl
  | succ n ih =>
    have hone : indexAt c f len idx p = indexAt c g len idx p := by
      unfold indexAt
      split
      · next hp => rw [prefix32_congr h hp]
      · rfl
    rw [indexRun, indexRun, hone, ih]

/-! ### What the encoder leaves alone -/

/-- Nothing but OUT, `olen`, the index and the encoder's and the codec's registers differs (R71,
R80). -/
structure EncFrame (s t : State) : Prop where
  cfg : t.cfg = s.cfg
  regs : t.regs = s.regs
  inp : t.inp = s.inp
  dec : t.dec = s.dec
  unit : t.unit = s.unit
  host : t.host = s.host
  free : t.free = s.free

namespace EncFrame

variable {t u : State}

theorem trans (h : EncFrame s t) (h' : EncFrame t u) : EncFrame s u :=
  ⟨h'.cfg.trans h.cfg, h'.regs.trans h.regs, h'.inp.trans h.inp, h'.dec.trans h.dec,
    h'.unit.trans h.unit, h'.host.trans h.host, h'.free.trans h.free⟩

/-- A change of the encoder's registers and the index alone. -/
theorem registers (s : State) (x : Index) (e : EncRegs) :
    EncFrame s { s with idx := x, enc := e } := ⟨rfl, rfl, rfl, rfl, rfl, rfl, rfl⟩

/-- Bytes appended to OUT, and a change of the index and the encoder's and codec's registers. -/
theorem putCells (xs : List Byte) (s : State) (x : Index) (e : EncRegs) (l : CodecRegs) :
    EncFrame s { Machine.putCells xs s with idx := x, enc := e, lc := l } := by
  constructor <;> simp

theorem waits (h : EncFrame s t) (hw : s.hostWaits) : t.hostWaits := by
  rw [State.hostWaits, h.host]; exact hw

theorem encoding (h : EncFrame s t) (he : s.encoding) : t.encoding := by
  obtain ⟨hb, hu, hc, ha⟩ := he
  refine ⟨by rw [h.regs]; exact hb, by rw [h.unit]; exact hu, by rw [h.regs, h.cfg]; exact hc, ?_⟩
  rw [State.apart, mapOverlaps, State.inputBytes, h.cfg, h.regs]
  exact ha

theorem input (h : EncFrame s t) : t.input = s.input := by
  unfold State.input State.inBytes State.inByte
  rw [h.inp, h.free, h.regs]

end EncFrame

/-- What `put` leaves in OUT depends on OUT and `olen` alone (R72). -/
theorem putCells_out_congr {xs : List Byte} {s t : State} (hout : t.out = s.out)
    (holen : t.olen = s.olen) : (putCells xs t).out = (putCells xs s).out := by
  induction xs generalizing s t with
  | nil => exact hout
  | cons x xs ih => exact ih (by simp [hout, holen]) (by simp [holen])

/-! ### The steps in the states the loop can be in -/

theorem step_scan (hw : s.hostWaits) (he : s.encoding) (hs : s.enc.step = .scan) :
    step s = encScan s := by rw [step_encoding hw he, encoderStep, hs]

theorem step_lookup (hw : s.hostWaits) (he : s.encoding) (hs : s.enc.step = .lookup) :
    step s = encLookup s := by rw [step_encoding hw he, encoderStep, hs]

theorem step_verify (hw : s.hostWaits) (he : s.encoding) (hs : s.enc.step = .verify) :
    step s = encVerify s := by rw [step_encoding hw he, encoderStep, hs]

theorem step_update (hw : s.hostWaits) (he : s.encoding) (hs : s.enc.step = .update) :
    step s = encUpdate s := by rw [step_encoding hw he, encoderStep, hs]

theorem step_extend (hw : s.hostWaits) (he : s.encoding) (hs : s.enc.step = .extend) :
    step s = encExtend s := by rw [step_encoding hw he, encoderStep, hs]

theorem step_emitSeq (hw : s.hostWaits) (he : s.encoding) (hs : s.enc.step = .emitSeq) :
    step s = encEmitSeq s := by rw [step_encoding hw he, encoderStep, hs]

theorem step_midIndex (hw : s.hostWaits) (he : s.encoding) (hs : s.enc.step = .midIndex) :
    step s = encMidIndex s := by rw [step_encoding hw he, encoderStep, hs]

theorem step_advanceMatch (hw : s.hostWaits) (he : s.encoding) (hs : s.enc.step = .advanceMatch) :
    step s = encAdvanceMatch s := by rw [step_encoding hw he, encoderStep, hs]

theorem step_advanceLiteral (hw : s.hostWaits) (he : s.encoding)
    (hs : s.enc.step = .advanceLiteral) : step s = encAdvanceLiteral s := by
  rw [step_encoding hw he, encoderStep, hs]

theorem step_flush (hw : s.hostWaits) (he : s.encoding) (hs : s.enc.step = .flush) :
    step s = encFlush s := by rw [step_encoding hw he, encoderStep, hs]

/-- LOOKUP takes the slot of the four bytes and what it holds (R203). -/
theorem encLookup_eq (hin : s.enc.cur + 4 ≤ s.regs.inLen) :
    encLookup s =
      .next
        { s with
          enc :=
            { s.enc with
              key := slotAt s.cfg s.input s.enc.cur
              cand := cellsRead s.idx (slotAt s.cfg s.input s.enc.cur)
              step := .verify } } := by
  have hkey : slotAt s.cfg s.input s.enc.cur = keyOf s.cfg (prefix32 s.inByte s.enc.cur) := by
    rw [slotAt, prefix32_congr (fun q hq => byteOf_input hq) hin]
  rw [encLookup, needIn_of_le hin, hkey]

/-- VERIFY answers whether the candidate is a match source (R205). -/
theorem encVerify_eq (hin : s.enc.cur + 4 ≤ s.regs.inLen)
    (hc : ∀ c, s.enc.cand = some c → c < s.enc.cur) :
    encVerify s =
      .next
        { s with
          enc :=
            { s.enc with
              hit := (verified s.input s.enc.cur s.enc.cand).isSome
              step := .update } } := by
  unfold encVerify
  split
  · next h => rw [h]; rfl
  · next c h =>
    have hlt := hc c h
    have hhit : (verified s.input s.enc.cur (some c)).isSome =
        (decide (s.enc.cur - c ≤ 65535) && (s.inBytes c 4 == s.inBytes s.enc.cur 4)) := by
      rw [verified, Option.isSome_filter, Option.any_some, input_drop_take (by omega),
        input_drop_take hin]
    rw [withCand_of_some h hlt, needIn_of_le hin, h, hhit]

/-- UPDATE without a match writes the slot and goes on with the literal (R202, R204). -/
theorem encUpdate_of_miss (h : s.enc.hit = false) :
    encUpdate s =
      .next
        { s with
          idx := cellsWrite s.idx s.enc.key s.enc.cur
          enc := { s.enc with step := .advanceLiteral } } := by
  rw [encUpdate, updatedIndex, if_pos (by simp [h]), if_neg (by simp [h])]

/-- UPDATE at a match writes the slot if INDEX_MATCH_START says so, and EXTEND begins (R202, R204,
R206). -/
theorem encUpdate_of_hit (h : s.enc.hit = true) :
    encUpdate s =
      .next
        { s with
          idx := if s.cfg.indexMatchStart then cellsWrite s.idx s.enc.key s.enc.cur else s.idx
          enc := { s.enc with mlen := 4, step := .extend } } := by
  rw [encUpdate, updatedIndex, if_pos h]
  simp only [h, Bool.not_true, Bool.false_or]

/-- EXTEND takes one byte more, or ends (R206). -/
theorem encExtend_eq {c : Nat} (hc : s.enc.cand = some c) (hlt : c < s.enc.cur)
    (hlim : s.enc.mlimit ≤ s.regs.inLen) :
    encExtend s =
      .next
        (if s.enc.cur + s.enc.mlen < s.enc.mlimit ∧
            byteOf s.input (c + s.enc.mlen) = byteOf s.input (s.enc.cur + s.enc.mlen) then
          { s with enc := { s.enc with mlen := s.enc.mlen + 1 } }
        else setStep .emitSeq s) := by
  rw [encExtend, withCand_of_some hc hlt]
  by_cases hb : s.enc.cur + s.enc.mlen < s.enc.mlimit
  · rw [if_pos hb, needIn_of_le (by omega), byteOf_input (by omega), byteOf_input (by omega)]
    by_cases hbyte : s.inByte (c + s.enc.mlen) = s.inByte (s.enc.cur + s.enc.mlen)
    · rw [if_pos hbyte, if_pos ⟨hb, hbyte⟩]
    · rw [if_neg hbyte, if_neg (fun h => hbyte h.2)]
  · rw [if_neg hb, if_neg (fun h => hb h.1)]

/-- The literals and the offset of a match from `c`, `n` long, as EMIT_SEQ writes them at `cur`
(R207, R212). -/
def seqAt (s : State) (c n : Nat) : List Byte :=
  seqBytes ((s.input.drop s.enc.anchor).take (s.enc.cur - s.enc.anchor))
    (BitVec.ofNat 16 (s.enc.cur - c)) n

/-- EMIT_SEQ appends the sequence where it fits OUT (R207). -/
theorem encEmitSeq_eq {c : Nat} (hc : s.enc.cand = some c) (hlt : c < s.enc.cur)
    (hanchor : s.enc.anchor ≤ s.enc.cur) (hin : s.enc.cur ≤ s.regs.inLen)
    (hroom : s.olen + (seqAt s c s.enc.mlen).length ≤ s.cfg.outCap) :
    encEmitSeq s =
      .next
        { s with
          out := (putCells (seqAt s c s.enc.mlen) s).out
          olen := s.olen + (seqAt s c s.enc.mlen).length
          lc :=
            { s.lc with
              acc := lencAcc (s.enc.mlen - 4) (lencAcc (s.enc.cur - s.enc.anchor) s.lc.acc) }
          enc := { s.enc with step := .midIndex } } := by
  have hbytes : seqBytes (s.inBytes s.enc.anchor (s.enc.cur - s.enc.anchor))
      (BitVec.ofNat 16 (s.enc.cur - c)) s.enc.mlen = seqAt s c s.enc.mlen := by
    rw [seqAt, input_drop_take (by omega)]
  rw [encEmitSeq, withCand_of_some hc hlt, needIn_of_le hin, hbytes, putAll_of_le hroom,
    andThen_next, putCells_fields]

/-- MIDINDEX on the input as a list (R208). -/
theorem encMidIndex_eq :
    encMidIndex s =
      .next
        { s with
          idx :=
            if s.cfg.indexMidMatch then
              indexRun s.cfg (byteOf s.input) s.input.length (s.enc.mlen - 1) (s.enc.cur + 1) s.idx
            else s.idx
          enc := { s.enc with step := .advanceMatch } } := by
  have hrun : ∀ n p x, indexRun s.cfg s.inByte s.regs.inLen n p x =
      indexRun s.cfg (byteOf s.input) s.input.length n p x := fun n p x => by
    rw [input_length, indexRun_congr fun q hq => byteOf_input hq]
  unfold encMidIndex
  split <;> simp only [hrun, setStep]

/-- FLUSH appends the last sequence, where it fits OUT, and ends the operation (R211, R213). -/
theorem encFlush_eq (ha : s.enc.anchor ≤ s.regs.inLen)
    (hroom : s.olen + (lastBytes (s.input.drop s.enc.anchor)).length ≤ s.cfg.outCap) :
    encFlush s =
      .next
        (stopDone
          { putCells (lastBytes (s.input.drop s.enc.anchor)) s with
            lc := { s.lc with acc := lencAcc (s.regs.inLen - s.enc.anchor) s.lc.acc } }) := by
  rw [input_drop ha] at hroom ⊢
  rw [encFlush, putAll_of_le hroom, andThen_next, putCells_lc]

/-- EXTEND, run to its end, finds the length `extendMatch` does (R206). -/
theorem extend_run {fuel c : Nat} (hw : s.hostWaits) (he : s.encoding)
    (hs : s.enc.step = .extend) (hc : s.enc.cand = some c) (hlt : c < s.enc.cur)
    (hlim : s.enc.mlimit ≤ s.regs.inLen)
    (hfuel : s.enc.mlimit ≤ s.enc.cur + s.enc.mlen + fuel) :
    ∃ k, reaches k s
      { s with
        enc :=
          { s.enc with
            mlen := extendMatch s.input s.enc.mlimit c s.enc.cur fuel s.enc.mlen
            step := .emitSeq } } := by
  induction fuel generalizing s with
  | zero =>
    have hstep := (step_extend hw he hs).trans (encExtend_eq hc hlt hlim)
    rw [if_neg (by omega)] at hstep
    exact ⟨1, reaches_one hstep⟩
  | succ fuel ih =>
    have hstep := (step_extend hw he hs).trans (encExtend_eq hc hlt hlim)
    unfold extendMatch
    split
    · next hb =>
      rw [if_pos hb] at hstep
      obtain ⟨k, hk⟩ := ih (s := { s with enc := { s.enc with mlen := s.enc.mlen + 1 } }) hw he hs hc
        hlt hlim (by show s.enc.mlimit ≤ s.enc.cur + (s.enc.mlen + 1) + fuel; omega)
      exact ⟨k + 1, reaches_of_step hstep hk⟩
    · next hb =>
      rw [if_neg hb] at hstep
      exact ⟨1, reaches_one hstep⟩

/-! ### One turn of the loop as a run (R202) -/

/-- The state at the loop's test, the index in order and the output in the size bound (R201, R217,
R251). -/
structure AtScan (s : State) : Prop where
  waits : s.hostWaits
  encoding : s.encoding
  step : s.enc.step = .scan
  limit : s.enc.mlimit = s.regs.inLen - s.cfg.endMargin
  ok : ScanOk s.input s.enc.cur s.enc.anchor s.idx
  budget : s.olen ≤ outBudget s.enc.anchor
  room : sizeBound s.regs.inLen ≤ s.cfg.outCap

/-- The state after LOOKUP and VERIFY at `cur` (R203, R205). -/
def afterVerify (s : State) : State :=
  { s with
    enc :=
      { s.enc with
        key := slotAt s.cfg s.input s.enc.cur
        cand := cellsRead s.idx (slotAt s.cfg s.input s.enc.cur)
        hit := (sourceAt s.cfg s.input s.enc.cur s.idx).isSome
        step := .update } }

/-- From the loop's test to UPDATE, with four bytes left before `mlimit` (R202 to R205). -/
theorem AtScan.reaches_afterVerify (h : AtScan s) (hcur : s.enc.cur + 4 ≤ s.enc.mlimit) :
    reaches 3 s (afterVerify s) := by
  have hlim := h.limit
  have hin : s.enc.cur + 4 ≤ s.regs.inLen := by omega
  have hscan : Machine.step s = .next (setStep .lookup s) := by
    rw [step_scan h.waits h.encoding h.step, encScan, if_pos hcur]
  have hlookup := (step_lookup (s := setStep .lookup s) h.waits h.encoding rfl).trans
    (encLookup_eq hin)
  have hverify := (step_verify (s := { s with
      enc :=
        { s.enc with
          key := slotAt s.cfg s.input s.enc.cur
          cand := cellsRead s.idx (slotAt s.cfg s.input s.enc.cur)
          step := .verify } }) h.waits h.encoding rfl).trans
    (encVerify_eq hin fun c hc => h.ok.below _ (mem_of_cellsRead hc))
  exact reaches_of_step hscan (reaches_of_step hlookup (reaches_one hverify))

/-- UPDATE and ADVANCE_LITERAL in a turn without a match (R204, R210). -/
def afterLiteral (s : State) : State :=
  { afterVerify s with
    idx := cellsWrite s.idx (slotAt s.cfg s.input s.enc.cur) s.enc.cur
    enc := { (afterVerify s).enc with cur := s.enc.cur + 1, step := .scan } }

theorem AtScan.reaches_afterLiteral (h : AtScan s) (hcur : s.enc.cur + 4 ≤ s.enc.mlimit)
    (hnone : sourceAt s.cfg s.input s.enc.cur s.idx = none) : reaches 5 s (afterLiteral s) := by
  have hhit : (afterVerify s).enc.hit = false := by rw [afterVerify, hnone]; rfl
  have hupdate := (step_update (s := afterVerify s) h.waits h.encoding rfl).trans
    (encUpdate_of_miss hhit)
  have hadvance := step_advanceLiteral (s := { afterVerify s with
    idx := cellsWrite s.idx (slotAt s.cfg s.input s.enc.cur) s.enc.cur
    enc := { (afterVerify s).enc with step := .advanceLiteral } }) h.waits h.encoding rfl
  exact reaches_trans (h.reaches_afterVerify hcur) (reaches_of_step hupdate (reaches_one hadvance))

/-- UPDATE and EXTEND in a turn with a match of `n` bytes (R204, R206). -/
def afterExtend (s : State) (n : Nat) : State :=
  { afterVerify s with
    idx := indexAtStart s.cfg s.input s.enc.cur s.idx
    enc := { (afterVerify s).enc with mlen := n, step := .emitSeq } }

theorem AtScan.reaches_afterExtend {cand : Nat} (h : AtScan s)
    (hcur : s.enc.cur + 4 ≤ s.enc.mlimit)
    (hsome : sourceAt s.cfg s.input s.enc.cur s.idx = some cand) :
    ∃ k, reaches k s (afterExtend s (lengthAt s.cfg s.input cand s.enc.cur)) := by
  have hlim := h.limit
  have hhit : (afterVerify s).enc.hit = true := by rw [afterVerify, hsome]; rfl
  have hcand : (afterVerify s).enc.cand = some cand := (verified_eq_some hsome).1
  have hlt : cand < s.enc.cur := h.ok.below _ (mem_of_cellsRead hcand)
  have hupdate := (step_update (s := afterVerify s) h.waits h.encoding rfl).trans
    (encUpdate_of_hit hhit)
  obtain ⟨k, hk⟩ := extend_run (fuel := s.input.length) (s := { afterVerify s with
    idx := indexAtStart s.cfg s.input s.enc.cur s.idx
    enc := { (afterVerify s).enc with mlen := 4, step := .extend } }) h.waits h.encoding rfl
    hcand hlt (by show s.enc.mlimit ≤ s.regs.inLen; omega)
    (by show s.enc.mlimit ≤ s.enc.cur + 4 + s.input.length; rw [input_length]; omega)
  refine ⟨3 + (k + 1), reaches_trans (h.reaches_afterVerify hcur) (reaches_of_step hupdate ?_)⟩
  rw [lengthAt, input_length, ← hlim, ← input_length]
  exact hk

/-- EMIT_SEQ in a turn with a match of `n` bytes from `cand` (R207). -/
def afterEmit (s : State) (cand n : Nat) : State :=
  { afterExtend s n with
    out := (putCells (seqAt s cand n) s).out
    olen := s.olen + (seqAt s cand n).length
    lc := { s.lc with acc := lencAcc (n - 4) (lencAcc (s.enc.cur - s.enc.anchor) s.lc.acc) }
    enc := { (afterExtend s n).enc with step := .midIndex } }

/-- EMIT_SEQ, MIDINDEX and ADVANCE_MATCH after a match of `n` bytes from `cand` (R207 to R209). -/
def afterMatch (s : State) (cand n : Nat) : State :=
  { afterEmit s cand n with
    idx := indexAtEnd s.cfg s.input s.enc.cur n s.idx
    enc :=
      { (afterEmit s cand n).enc with
        cur := s.enc.cur + n, anchor := s.enc.cur + n, step := .scan } }

/-- A sequence that covers the input up to `cur + n` leaves the output in the size bound (R217). -/
theorem AtScan.seq_budget {cand n : Nat} (h : AtScan s)
    (hm : MatchAt s.cfg s.input cand s.enc.cur n) :
    s.olen + (seqAt s cand n).length ≤ outBudget (s.enc.cur + n) := by
  have hac := h.ok.anchorLe
  have hcx := h.ok.curLe
  have hlits : ((s.input.drop s.enc.anchor).take (s.enc.cur - s.enc.anchor)).length =
      s.enc.cur - s.enc.anchor := by
    rw [List.length_take, List.length_drop]; omega
  have hb := seqBytes_budget (lits := (s.input.drop s.enc.anchor).take (s.enc.cur - s.enc.anchor))
    (off := BitVec.ofNat 16 (s.enc.cur - cand)) hm.long h.budget
  rwa [hlits, Nat.add_sub_cancel' hac] at hb

/-- The step EMIT_SEQ of the turn: the sequence fits OUT (R207, R251). -/
theorem AtScan.step_afterExtend {cand n : Nat} (h : AtScan s)
    (hm : MatchAt s.cfg s.input cand s.enc.cur n)
    (hsome : sourceAt s.cfg s.input s.enc.cur s.idx = some cand) :
    Machine.step (afterExtend s n) = .next (afterEmit s cand n) := by
  have hfit := hm.lt_length
  rw [input_length] at hfit
  have hroom := h.room
  have hbudget := h.seq_budget hm
  have hcap : s.olen + (seqAt s cand n).length ≤ s.cfg.outCap := by
    unfold outBudget at hbudget
    unfold sizeBound at hroom
    omega
  have hout : (putCells (seqAt s cand n) (afterExtend s n)).out =
    (putCells (seqAt s cand n) s).out := putCells_out_congr rfl rfl
  rw [afterEmit, ← hout]
  exact (step_emitSeq (s := afterExtend s n) h.waits h.encoding rfl).trans
    (encEmitSeq_eq (verified_eq_some hsome).1 hm.before h.ok.anchorLe
      (h.ok.curLe.trans_eq (input_length s)) hcap)

theorem AtScan.reaches_afterMatch {cand : Nat} (h : AtScan s)
    (hcur : s.enc.cur + 4 ≤ s.enc.mlimit)
    (hsome : sourceAt s.cfg s.input s.enc.cur s.idx = some cand) :
    ∃ k, reaches k s (afterMatch s cand (lengthAt s.cfg s.input cand s.enc.cur)) := by
  obtain ⟨k, hk⟩ := h.reaches_afterExtend hcur hsome
  have hm := matchAt_of_source (by rw [input_length, ← h.limit]; exact hcur) h.ok hsome
  generalize lengthAt s.cfg s.input cand s.enc.cur = n at hk hm ⊢
  have hmid := (step_midIndex (s := afterEmit s cand n) h.waits h.encoding rfl).trans encMidIndex_eq
  have hadvance := step_advanceMatch (s := { afterEmit s cand n with
    idx := indexAtEnd s.cfg s.input s.enc.cur n s.idx
    enc := { (afterEmit s cand n).enc with step := .advanceMatch } }) h.waits h.encoding rfl
  exact ⟨k + 3, reaches_trans hk (reaches_of_step (h.step_afterExtend hm hsome)
    (reaches_of_step hmid (reaches_one hadvance)))⟩

theorem AtScan.afterLiteral (h : AtScan s) (hcur : s.enc.cur + 4 ≤ s.enc.mlimit) :
    AtScan (afterLiteral s) := by
  have hlim := h.limit
  exact ⟨h.waits, h.encoding, rfl, h.limit,
    h.ok.advanceLiteral (by rw [input_length]; omega) _, h.budget, h.room⟩

theorem AtScan.afterMatch {cand n : Nat} (h : AtScan s)
    (hm : MatchAt s.cfg s.input cand s.enc.cur n) : AtScan (afterMatch s cand n) :=
  ⟨h.waits, h.encoding, rfl, h.limit, h.ok.advanceMatch hm, h.seq_budget hm, h.room⟩

theorem produced_afterMatch (cand n : Nat) :
    (afterMatch s cand n).produced = s.produced ++ seqAt s cand n := by
  rw [← produced_putCells, putCells_fields]
  rfl

/-! ### The whole scan (R223) -/

/-- The run from `s` ends in DONE with `xs` appended to OUT (R214). -/
def Appends (s : State) (xs : List Byte) : Prop :=
  ∃ k t, EncFrame s t ∧ reaches k s (stopDone t) ∧ t.produced = s.produced ++ xs

theorem Appends.of_reaches {k : Nat} {t : State} {xs ys : List Byte} (h : reaches k s t)
    (hf : EncFrame s t) (hout : t.produced = s.produced ++ xs) (ht : Appends t ys) :
    Appends s (xs ++ ys) := by
  obtain ⟨k', u, hu, hend, hp⟩ := ht
  exact ⟨k + k', u, hf.trans hu, reaches_trans h hend, by rw [hp, hout, List.append_assoc]⟩

/-- The end of the scan: the loop's test fails, and FLUSH writes the last sequence (R202, R211). -/
theorem AtScan.flush (h : AtScan s) (hcur : ¬s.enc.cur + 4 ≤ s.enc.mlimit) :
    Appends s (lastBytes (s.input.drop s.enc.anchor)) := by
  have ha : s.enc.anchor ≤ s.regs.inLen := h.ok.anchorLe.trans (h.ok.curLe.trans_eq (input_length s))
  have hroom : s.olen + (lastBytes (s.input.drop s.enc.anchor)).length ≤ s.cfg.outCap := by
    have hb := lastBytes_budget (lits := s.input.drop s.enc.anchor) h.budget
    rw [List.length_drop, input_length, Nat.add_sub_cancel' ha] at hb
    exact hb.trans h.room
  have hscan : Machine.step s = .next (setStep .flush s) := by
    rw [step_scan h.waits h.encoding h.step, encScan, if_neg hcur]
  have hflush := (step_flush (s := setStep .flush s) h.waits h.encoding rfl).trans
    (encFlush_eq ha hroom)
  refine ⟨2, _, ?_, reaches_of_step hscan (reaches_one hflush), ?_⟩
  · constructor <;> simp
  · exact produced_putCells _ (setStep .flush s)

/-- The encoder's run from the loop's test writes what `encodeScan` says (R202, R223). -/
theorem encodeScan_run {fuel : Nat} (h : AtScan s) (hfuel : s.regs.inLen < s.enc.cur + fuel) :
    Appends s (encodeScan s.cfg s.input fuel s.enc.cur s.enc.anchor s.idx) := by
  have hcurLe := h.ok.curLe
  induction fuel generalizing s with
  | zero => rw [input_length] at hcurLe; omega
  | succ fuel ih =>
    by_cases hcur : s.enc.cur + 4 ≤ s.enc.mlimit
    · have hcur' : s.enc.cur + 4 ≤ s.input.length - s.cfg.endMargin := by
        rw [input_length, ← h.limit]; exact hcur
      cases hs : sourceAt s.cfg s.input s.enc.cur s.idx with
      | none =>
        have hnext := h.afterLiteral hcur
        rw [encodeScan_of_none hcur' hs]
        exact Appends.of_reaches (xs := []) (h.reaches_afterLiteral hcur hs)
          (EncFrame.registers s _ _) (List.append_nil _).symm
          (ih hnext (by show s.regs.inLen < s.enc.cur + 1 + fuel; omega) hnext.ok.curLe)
      | some cand =>
        have hm := matchAt_of_source hcur' h.ok hs
        have hnext := h.afterMatch hm
        have hlong := hm.long
        obtain ⟨k, hk⟩ := h.reaches_afterMatch hcur hs
        rw [encodeScan_of_some hcur' hs]
        exact Appends.of_reaches hk ⟨rfl, rfl, rfl, rfl, rfl, rfl, rfl⟩ (produced_afterMatch _ _)
          (ih hnext (by
            show s.regs.inLen < s.enc.cur + lengthAt s.cfg s.input cand s.enc.cur + fuel
            omega) hnext.ok.curLe)
    · rw [encodeScan_of_end (by rw [input_length, ← h.limit]; exact hcur)]
      exact h.flush hcur

/-! ### The whole operation (R200, R251) -/

/-- START_COMPRESS where the input fits IN and the worst-case block fits OUT (R251). -/
theorem exec_startCompress (hb : s.regs.status ≠ .busy) (hin : s.regs.inLen ≤ s.cfg.inCap)
    (hroom : sizeBound s.regs.inLen ≤ s.cfg.outCap) :
    exec .cmdStartCompress s = .next (startEncoder s) := by
  show execCmdStartCompress s = _
  rw [execCmdStartCompress, unlessBusy, if_neg hb, if_neg (by omega)]

/-- START_COMPRESS where one of them does not (R251). -/
theorem exec_startCompress_refused (hb : s.regs.status ≠ .busy)
    (h : s.cfg.inCap < s.regs.inLen ∨ s.cfg.outCap < sizeBound s.regs.inLen) :
    exec .cmdStartCompress s = .next (refuseStart s) := by
  show execCmdStartCompress s = _
  rw [execCmdStartCompress, unlessBusy, if_neg hb, if_pos h]

/-- A COMPRESS is the function `encode` (R223). -/
theorem compress_completes (hb : s.regs.status ≠ .busy) (hin : s.regs.inLen ≤ s.cfg.inCap)
    (ha : s.apart) (hroom : sizeBound s.regs.inLen ≤ s.cfg.outCap)
    (h : s.host.script = [.write (.reg 0) 2]) :
    Completes s (.ok (encodeBlock s.cfg s.input)) := by
  have hstep : step s = .next (startEncoder (setScript [] s)) := by
    rw [step_command h]
    exact exec_startCompress (s := setScript [] s) hb hin hroom
  have hstart : AtScan (startEncoder (setScript [] s)) :=
    ⟨rfl, ⟨rfl, rfl, hin, ha⟩, rfl, rfl, scanOk_start _, Nat.zero_le _, hroom⟩
  obtain ⟨k, t, hf, hend, hout⟩ := encodeScan_run (fuel := s.input.length + 1) hstart
    (by show s.regs.inLen < 0 + (s.input.length + 1); rw [input_length]; omega)
  exact ⟨k + 1, stopDone t, reaches_of_step hstep hend, hf.waits rfl,
    ⟨rfl, congrArg HostRegs.cause hf.regs, hout⟩, hf.inp⟩

/-- A COMPRESS that does not fit is refused at START with LIMIT (R251). -/
theorem compress_refused (hb : s.regs.status ≠ .busy)
    (hfit : s.cfg.inCap < s.regs.inLen ∨ s.cfg.outCap < sizeBound s.regs.inLen)
    (h : s.host.script = [.write (.reg 0) 2]) : Completes s (.error .limit) := by
  have hstep : step s = .next (refuseStart (setScript [] s)) := by
    rw [step_command h]
    exact exec_startCompress_refused (s := setScript [] s) hb hfit
  exact ⟨1, _, reaches_one hstep, rfl, ⟨rfl, rfl, rfl⟩, rfl⟩

end Sys2Proof.Machine
end

section
/-! PROOFS. The statements about whole operations: the round trip on the machine (R7) and determinism
(R8), from what a DECOMPRESS and a COMPRESS complete as. -/

namespace Sys2Proof.Machine

/-- Settles O58: COMPRESS is `encode`, DECOMPRESS is `decode`, and the second inverts the first; the
input fits the length registers because it fits IN (R6). -/
theorem machineRoundTrip : Obligations.MachineRoundTrip := by
  intro s hcfg hb hin ha hroom hscript
  obtain ⟨-, hcap, -, -⟩ := hcfg
  obtain ⟨n, t, hrun, hw, ⟨hdone, -, hout⟩, -⟩ := compress_completes hb hin ha hroom hscript
  refine ⟨n, t, hrun, hw, hdone, fun u hucfg hub hinput huin hua hlim huscript => ?_⟩
  have hdecode : decodeBlock u.cfg.maxLen u.lim u.input = .ok s.input := by
    rw [hinput, hout, hucfg]
    exact decodeInvertsEncodeBlock s.cfg _ _ s.input
      (by rw [input_length]; exact hin.trans hcap) (by rw [input_length]; exact hlim)
  have hcomp := decompress_completes hub huin hua huscript
  rw [hdecode] at hcomp
  obtain ⟨m, v, hrun', hw', ⟨hdone', -, hout'⟩, -⟩ := hcomp
  exact ⟨m, v, hrun', hw', hdone', hout'⟩

/-- An operation that reports is over. -/
theorem Reports.over {t : State} {r : Except Cause (List Byte)} (h : Reports t r) :
    t.regs.status = .done ∨ t.regs.status = .error := by
  cases r with
  | ok out => exact .inl h.1
  | error c => exact .inr h.1

/-- What the host finds after an operation is all in the report. -/
theorem Reports.unique {t t' : State} {r : Except Cause (List Byte)} (h : Reports t r)
    (h' : Reports t' r) :
    t.regs.status = t'.regs.status ∧ t.regs.cause = t'.regs.cause ∧
      t.regs.outLen = t'.regs.outLen ∧ t.output = t'.output := by
  cases r with
  | ok out =>
    obtain ⟨hs, hc, ho⟩ := h
    obtain ⟨hs', hc', ho'⟩ := h'
    exact ⟨hs.trans hs'.symm, hc.trans hc'.symm, by rw [← output_length, ← output_length, ho, ho'],
      ho.trans ho'.symm⟩
  | error c =>
    obtain ⟨hs, hc, ho⟩ := h
    obtain ⟨hs', hc', ho'⟩ := h'
    refine ⟨hs.trans hs'.symm, hc.trans hc'.symm, ho.trans ho'.symm, ?_⟩
    rw [State.output, State.output, ho, ho']
    rfl

/-- What the command `v` makes of the input, the parameters, CTRL and OUT_LIMIT: the start-time error,
or `decode` or `encode` (R7, R8, R250, R251). -/
def outcomeOf (c : Config) (lim v : Nat) (input : List Byte) : Except Cause (List Byte) :=
  if c.inCap < input.length then .error .limit
  else if v = 1 then decodeBlock c.maxLen lim input
  else if c.outCap < sizeBound input.length then .error .limit
  else .ok (encodeBlock c input)

variable {s : State}

/-- Every DECOMPRESS and every COMPRESS that the host starts completes as `outcomeOf` says. -/
theorem operation_completes {v : Nat} (hv : v = 1 ∨ v = 2) (hb : s.regs.status ≠ .busy)
    (ha : s.apart) (h : s.host.script = [.write (.reg 0) v]) :
    Completes s (outcomeOf s.cfg s.lim v s.input) := by
  unfold outcomeOf
  rw [input_length]
  rcases hv with rfl | rfl
  · split
    · next hin => exact decompress_refused hb hin h
    · next hin => exact decompress_completes hb (by omega) ha h
  · split
    · next hin => exact compress_refused hb (.inl hin) h
    · next hin =>
      rw [if_neg (by decide)]
      split
      · next hroom => exact compress_refused hb (.inr hroom) h
      · next hroom => exact compress_completes hb (by omega) ha (by omega) h

/-- Whether the input and OUT overlap depends on the parameters and the input's length (R81). -/
theorem apart_congr {s' : State} (hcfg : s.cfg = s'.cfg) (hlen : s.regs.inLen = s'.regs.inLen)
    (ha : s.apart) : s'.apart := by
  rwa [State.apart, mapOverlaps, State.inputBytes, ← hcfg, ← hlen]

/-- Settles O60: both operations complete as `outcomeOf` says, whose arguments the two engines
share. -/
theorem sameInputSameOutcome : Obligations.SameInputSameOutcome := by
  intro s s' v hv hcfg hinput ha hen hlimit hb hb' h h'
  have hlen : s.regs.inLen = s'.regs.inLen := by rw [← input_length, ← input_length, hinput]
  have hlim : s.lim = s'.lim := by rw [State.lim, State.lim, hcfg, hen, hlimit]
  have hcomp' := operation_completes hv hb' (apart_congr hcfg hlen ha) h'
  rw [← hcfg, ← hlim, ← hinput] at hcomp'
  obtain ⟨n, t, hrun, hw, hr, -⟩ := operation_completes hv hb ha h
  obtain ⟨n', t', hrun', hw', hr', -⟩ := hcomp'
  exact ⟨n, n', t, t', hrun, hrun', hw, hw', hr.over, hr.unique hr'⟩

end Sys2Proof.Machine
end

section
/-! PROOFS. What one step can do, said once: every outcome of the decoder's move, of the encoder's and of
the host's. The statements about all steps (R31, R34, R36, R41, R80) are case splits over these. -/

namespace Sys2Proof.Machine

variable {s t : State}

/-! ### The decoder -/

/-- Every outcome of a move of the decoder, by phase (R161 to R168): the next states it can answer, each
with the conditions that it was reached under and that proofs about all steps use. -/
inductive DecoderStep (s : State) : State → Prop
  /-- Error entry without a change before it: missing bytes, LIMIT, or OVERFLOW at MATCHLEN. -/
  | raised {c : Cause} (hc : c ≠ .none) : DecoderStep s (raise c s)
  | token (hp : s.dec.phase = .token) (hip : s.dec.ip < s.regs.inLen) :
      DecoderStep s
        (latchToken (hiNibble (s.inByte s.dec.ip)) (loNibble (s.inByte s.dec.ip)) s)
  | enterLdec (nib : Nibble) (hp : s.dec.phase = .litLen ∨ s.dec.phase = .matchLen)
      (hl : s.lc.loop = .start) : DecoderStep s (ldecEnter nib s)
  | escapeOverflow (hip : s.dec.ip < s.regs.inLen) :
      DecoderStep s
        (raise .overflow
          { s with
            dec := { s.dec with ip := s.dec.ip + 1 }, lc := { s.lc with b := s.inByte s.dec.ip } })
  | escape (hp : s.dec.phase = .litLen ∨ s.dec.phase = .matchLen) (hl : s.lc.loop = .more)
      (hip : s.dec.ip < s.regs.inLen) :
      DecoderStep s
        { s with
          dec := { s.dec with ip := s.dec.ip + 1 }
          lc :=
            { acc := s.lc.acc + (s.inByte s.dec.ip).toNat
              b := s.inByte s.dec.ip
              loop := if s.inByte s.dec.ip = 255#8 then .more else .finished } }
  | litLen (hp : s.dec.phase = .litLen) (hl : s.lc.loop = .finished) :
      DecoderStep s (commitLitLen s)
  | literal (hp : s.dec.phase = .litCopy) (hleft : s.dec.left ≠ 0) (hip : s.dec.ip < s.regs.inLen)
      (hlim : s.olen < s.lim) :
      DecoderStep s
        { putCell (s.inByte s.dec.ip) s with
          dec := { s.dec with ip := s.dec.ip + 1, left := s.dec.left - 1 } }
  | literalsDone (hp : s.dec.phase = .litCopy) (hleft : s.dec.left = 0) :
      DecoderStep s (setPhase .endCheck s)
  | done (hp : s.dec.phase = .endCheck) (hip : s.dec.ip = s.regs.inLen) : DecoderStep s (stopDone s)
  | moreInput (hp : s.dec.phase = .endCheck) (hip : s.dec.ip ≠ s.regs.inLen) :
      DecoderStep s (setPhase .offset s)
  | badOffset (o : Offset) (hp : s.dec.phase = .offset) :
      DecoderStep s (raise .badOffset (latchOffset o s))
  | offset {o : Offset} (hp : s.dec.phase = .offset) (hip : s.dec.ip + 2 ≤ s.regs.inLen)
      (h0 : o ≠ 0#16) (hle : o.toNat ≤ s.olen) :
      DecoderStep s
        { s with
          dec := { s.dec with ip := s.dec.ip + 2, off := o, phase := .matchLen }
          lc := { s.lc with loop := .start } }
  | matchLen (hp : s.dec.phase = .matchLen) (hl : s.lc.loop = .finished) :
      DecoderStep s
        { s with
          dec := { s.dec with matLen := s.lc.acc + 4, left := s.lc.acc + 4, phase := .matchCopy } }
  | copyByte (hp : s.dec.phase = .matchCopy) (hleft : s.dec.left ≠ 0) (hlim : s.olen < s.lim) :
      DecoderStep s
        { putCell (s.outByte (s.olen - s.dec.off.toNat)) s with
          dec := { s.dec with left := s.dec.left - 1 } }
  | copyDone (hp : s.dec.phase = .matchCopy) (hleft : s.dec.left = 0) :
      DecoderStep s (setPhase .token s)

/-- Phases LITLEN and MATCHLEN, given what the commit of the length can do (R141). -/
theorem decoderStep_of_ldecMove {nib : Nibble} {commit : State → State}
    (hp : s.dec.phase = .litLen ∨ s.dec.phase = .matchLen)
    (hcommit : s.lc.loop = .finished → DecoderStep s (commit s))
    (h : runMove (ldecMove nib commit s) = .next t) : DecoderStep s t := by
  unfold ldecMove at h
  split at h
  · next hl => cases h; exact .enterLdec nib hp hl
  · next hl =>
    rcases readElement_escape s with ⟨-, hr⟩ | ⟨hip, hr⟩
    · rw [hr] at h; cases h; exact .raised (by decide)
    · rw [hr, runMove_instr, exec_decodeEscape] at h
      cases h
      rcases escapeByte_cases (s.inByte s.dec.ip)
        (if s.inByte s.dec.ip = 255#8 then .more else .finished) s with ⟨-, he⟩ | ⟨-, he⟩
      · rw [he]; exact .escapeOverflow hip
      · rw [he]; exact .escape hp hl hip
  · next hl => cases h; exact hcommit hl

theorem decoderStep_commitMatLen (hp : s.dec.phase = .matchLen) (hl : s.lc.loop = .finished) :
    DecoderStep s (commitMatLen s) := by
  rcases commitMatLen_cases s with ⟨-, hc⟩ | ⟨-, hc⟩
  · rw [hc]; exact .raised (by decide)
  · rw [hc]; exact .matchLen hp hl

/-- Within the limit there is room for a byte that is still due (R163, R167). -/
theorem olen_lt_lim (hlim : ¬overLimit s = true) (hleft : s.dec.left ≠ 0) : s.olen < s.lim := by
  simp only [overLimit, decide_eq_true_eq] at hlim
  omega

/-- Phase LITCOPY (R163). -/
theorem decoderStep_of_litCopyMove (hp : s.dec.phase = .litCopy)
    (h : runMove (litCopyMove s) = .next t) : DecoderStep s t := by
  unfold litCopyMove at h
  split at h
  · cases h; exact .raised (by decide)
  split at h
  · cases h; exact .raised (by decide)
  next hlim =>
  split at h
  · next hleft => cases h; exact .literalsDone hp hleft
  next hleft =>
  have hroom := olen_lt_lim hlim hleft
  rcases readElement_literal s with ⟨-, hr⟩ | ⟨hip, hr⟩
  · rw [hr] at h; cases h; exact .raised (by decide)
  · rw [hr, runMove_instr, execLit_of_lt (hroom.trans_le (lim_le s))] at h
    cases h; exact .literal hp hleft hip hroom

/-- Phase OFFSET (R165). -/
theorem decoderStep_of_offset (hp : s.dec.phase = .offset)
    (h : runMove (readElement .offset s) = .next t) : DecoderStep s t := by
  rcases readElement_offset s with ⟨-, hr⟩ | ⟨hip, hr⟩
  · rw [hr] at h; cases h; exact .raised (by decide)
  · rw [hr, runMove_instr] at h
    rcases execOffset_cases (joinOffset (s.inByte s.dec.ip) (s.inByte (s.dec.ip + 1))) s with
      ⟨-, he⟩ | ⟨h0, hle, he⟩
    · rw [he] at h; cases h; exact .badOffset _ hp
    · rw [he] at h; cases h; exact .offset hp hip h0 hle

/-- Phase MATCHCOPY (R167). -/
theorem decoderStep_of_matchCopy (hp : s.dec.phase = .matchCopy) (h : matchCopy s = .next t) :
    DecoderStep s t := by
  unfold matchCopy at h
  split at h
  · cases h; exact .raised (by decide)
  next hlim =>
  split at h
  · next hleft => cases h; exact .copyDone hp hleft
  next hleft =>
  split at h
  · cases h
  obtain ⟨u, hput, hu⟩ := andThen_eq_next.1 h
  obtain ⟨-, rfl⟩ := put_eq_next.1 hput
  cases hu; exact .copyByte hp hleft (olen_lt_lim hlim hleft)

/-- What the decoder's move can do (R168). -/
theorem decoderStep_of_decoderMove (h : runMove (decoderMove s) = .next t) : DecoderStep s t := by
  unfold decoderMove at h
  split at h
  case h_1 hp =>
    rcases readElement_token s with ⟨-, hr⟩ | ⟨hip, hr⟩
    · rw [hr] at h; cases h; exact .raised (by decide)
    · rw [hr, runMove_instr, exec_decodeToken] at h
      cases h; exact .token hp hip
  case h_2 hp => exact decoderStep_of_ldecMove (.inl hp) (.litLen hp) h
  case h_3 hp => exact decoderStep_of_litCopyMove hp h
  case h_4 hp =>
    cases h
    unfold endCheck
    split
    · next hip => exact .done hp hip
    · next hip => exact .moreInput hp hip
  case h_5 hp => exact decoderStep_of_offset hp h
  case h_6 hp => exact decoderStep_of_ldecMove (.inr hp) (decoderStep_commitMatLen hp) h
  case h_7 hp => exact decoderStep_of_matchCopy hp h

/-! ### The encoder -/

/-- Every outcome of a step of the encoder, by the step's name (R202 to R214). -/
inductive EncoderStep (s : State) : State → Prop
  | scanOn (hs : s.enc.step = .scan) (hcur : s.enc.cur + 4 ≤ s.enc.mlimit) :
      EncoderStep s (setStep .lookup s)
  | scanEnd (hs : s.enc.step = .scan) : EncoderStep s (setStep .flush s)
  | lookup (hs : s.enc.step = .lookup) :
      EncoderStep s
        { s with
          enc :=
            { s.enc with
              key := keyOf s.cfg (prefix32 s.inByte s.enc.cur)
              cand := cellsRead s.idx (keyOf s.cfg (prefix32 s.inByte s.enc.cur))
              step := .verify } }
  | verifyNone (hs : s.enc.step = .verify) :
      EncoderStep s { s with enc := { s.enc with hit := false, step := .update } }
  | verify {c : Nat} (hs : s.enc.step = .verify) (hc : s.enc.cand = some c) (hlt : c < s.enc.cur) :
      EncoderStep s
        { s with
          enc :=
            { s.enc with
              hit := decide (s.enc.cur - c ≤ 65535) && (s.inBytes c 4 == s.inBytes s.enc.cur 4)
              step := .update } }
  | updateHit (hs : s.enc.step = .update) (hhit : s.enc.hit = true) :
      EncoderStep s
        { s with idx := updatedIndex s, enc := { s.enc with mlen := 4, step := .extend } }
  | updateMiss (hs : s.enc.step = .update) :
      EncoderStep s { s with idx := updatedIndex s, enc := { s.enc with step := .advanceLiteral } }
  | extendOn {c : Nat} (hs : s.enc.step = .extend) (hc : s.enc.cand = some c)
      (hlim : s.enc.cur + s.enc.mlen < s.enc.mlimit)
      (hbyte : s.inByte (c + s.enc.mlen) = s.inByte (s.enc.cur + s.enc.mlen)) :
      EncoderStep s { s with enc := { s.enc with mlen := s.enc.mlen + 1 } }
  | extendEnd (hs : s.enc.step = .extend) : EncoderStep s (setStep .emitSeq s)
  | emitSeq {c : Nat} (hs : s.enc.step = .emitSeq) (hc : s.enc.cand = some c) {xs : List Byte}
      (hxs : xs = seqBytes (s.inBytes s.enc.anchor (s.enc.cur - s.enc.anchor))
        (BitVec.ofNat 16 (s.enc.cur - c)) s.enc.mlen)
      (hroom : s.olen + xs.length ≤ s.cfg.outCap) (acc : Nat) :
      EncoderStep s
        { putCells xs s with
          lc := { s.lc with acc := acc }, enc := { s.enc with step := .midIndex } }
  | midIndexRun (hs : s.enc.step = .midIndex) :
      EncoderStep s
        (setStep .advanceMatch
          { s with
            idx :=
              indexRun s.cfg s.inByte s.regs.inLen (s.enc.mlen - 1) (s.enc.cur + 1) s.idx })
  | midIndexSkip (hs : s.enc.step = .midIndex) : EncoderStep s (setStep .advanceMatch s)
  | advanceMatch (hs : s.enc.step = .advanceMatch) :
      EncoderStep s
        { s with
          enc :=
            { s.enc with
              cur := s.enc.cur + s.enc.mlen, anchor := s.enc.cur + s.enc.mlen, step := .scan } }
  | advanceLiteral (hs : s.enc.step = .advanceLiteral) :
      EncoderStep s { s with enc := { s.enc with cur := s.enc.cur + 1, step := .scan } }
  | flush (hs : s.enc.step = .flush) {xs : List Byte}
      (hxs : xs = lastBytes (s.inBytes s.enc.anchor (s.regs.inLen - s.enc.anchor)))
      (hroom : s.olen + xs.length ≤ s.cfg.outCap) (acc : Nat) :
      EncoderStep s (stopDone { putCells xs s with lc := { s.lc with acc := acc } })

/-- A nonempty list of bytes that `putAll` put fitted OUT (R72, R77 c). -/
theorem putAll_cons_eq_next {x : Byte} {xs : List Byte} (h : putAll (x :: xs) s = .next t) :
    t = putCells (x :: xs) s ∧ s.olen + (x :: xs).length ≤ s.cfg.outCap := by
  obtain ⟨ht, hx | hroom⟩ := putAll_eq_next h
  · cases hx
  · exact ⟨ht, hroom⟩

/-- VERIFY (R205). -/
theorem encoderStep_of_encVerify (hs : s.enc.step = .verify) (h : encVerify s = .next t) :
    EncoderStep s t := by
  unfold encVerify at h
  split at h
  · cases h; exact .verifyNone hs
  · obtain ⟨c, hc, hlt, hn⟩ := withCand_eq_next.1 h
    obtain ⟨-, hn⟩ := needIn_eq_next.1 hn
    cases hn; exact .verify hs hc hlt

/-- UPDATE (R204). -/
theorem encoderStep_of_encUpdate (hs : s.enc.step = .update) (h : encUpdate s = .next t) :
    EncoderStep s t := by
  cases h
  split
  · next hhit => exact .updateHit hs hhit
  · exact .updateMiss hs

/-- EXTEND (R206). -/
theorem encoderStep_of_encExtend (hs : s.enc.step = .extend) (h : encExtend s = .next t) :
    EncoderStep s t := by
  obtain ⟨c, hc, -, h⟩ := withCand_eq_next.1 h
  split at h
  · next hlim =>
    obtain ⟨-, h⟩ := needIn_eq_next.1 h
    split at h
    · next hbyte => cases h; exact .extendOn hs hc hlim hbyte
    · cases h; exact .extendEnd hs
  · cases h; exact .extendEnd hs

/-- EMIT_SEQ (R207). -/
theorem encoderStep_of_encEmitSeq (hs : s.enc.step = .emitSeq) (h : encEmitSeq s = .next t) :
    EncoderStep s t := by
  obtain ⟨c, hc, -, h⟩ := withCand_eq_next.1 h
  obtain ⟨-, h⟩ := needIn_eq_next.1 h
  obtain ⟨u, hput, hu⟩ := andThen_eq_next.1 h
  obtain ⟨rfl, hroom⟩ := putAll_cons_eq_next hput
  cases hu
  rw [← seqBytes, putCells_lc, putCells_enc]
  exact .emitSeq hs hc rfl hroom _

/-- MIDINDEX (R208). -/
theorem encoderStep_of_encMidIndex (hs : s.enc.step = .midIndex) (h : encMidIndex s = .next t) :
    EncoderStep s t := by
  cases h
  split
  · exact .midIndexRun hs
  · exact .midIndexSkip hs

/-- FLUSH (R211). -/
theorem encoderStep_of_encFlush (hs : s.enc.step = .flush) (h : encFlush s = .next t) :
    EncoderStep s t := by
  obtain ⟨u, hput, hu⟩ := andThen_eq_next.1 h
  obtain ⟨rfl, hroom⟩ := putAll_cons_eq_next hput
  cases hu
  rw [← lastBytes, putCells_lc]
  exact .flush hs rfl hroom _

/-- What the encoder's step can do (R202). -/
theorem encoderStep_of_next (h : encoderStep s = .next t) : EncoderStep s t := by
  unfold encoderStep at h
  split at h
  case h_1 hs =>
    cases h
    split
    · next hcur => exact .scanOn hs hcur
    · exact .scanEnd hs
  case h_2 hs =>
    obtain ⟨-, h⟩ := needIn_eq_next.1 h
    cases h; exact .lookup hs
  case h_3 hs => exact encoderStep_of_encVerify hs h
  case h_4 hs => exact encoderStep_of_encUpdate hs h
  case h_5 hs => exact encoderStep_of_encExtend hs h
  case h_6 hs => exact encoderStep_of_encEmitSeq hs h
  case h_7 hs => exact encoderStep_of_encMidIndex hs h
  case h_8 hs => cases h; exact .advanceMatch hs
  case h_9 hs => cases h; exact .advanceLiteral hs
  case h_10 hs => exact encoderStep_of_encFlush hs h

/-! ### The host -/

/-- Every outcome of a move of the host (R250 to R257, R301, R306). -/
inductive HostStep (s : State) : State → Prop
  | same : HostStep s s
  | answer (v : Nat) : HostStep s (answer v s)
  | answerFree (width : Nat) : HostStep s (answerFree width s)
  | refuseStart (hb : s.regs.status ≠ .busy) : HostStep s (refuseStart s)
  | startDecoder (hb : s.regs.status ≠ .busy) (hin : s.regs.inLen ≤ s.cfg.inCap) :
      HostStep s (startDecoder s)
  | startEncoder (hb : s.regs.status ≠ .busy) (hin : s.regs.inLen ≤ s.cfg.inCap)
      (hout : sizeBound s.regs.inLen ≤ s.cfg.outCap) : HostStep s (startEncoder s)
  | clear (hb : s.regs.status ≠ .busy) :
      HostStep s { s with regs := { s.regs with status := .idle, cause := .none, outLen := 0 } }
  | inLen (hb : s.regs.status ≠ .busy) (v : Nat) :
      HostStep s { s with regs := { s.regs with inLen := v % 2 ^ s.cfg.lenw } }
  | outLimit (hb : s.regs.status ≠ .busy) (v : Nat) :
      HostStep s { s with regs := { s.regs with outLimit := v % 2 ^ s.cfg.lenw } }
  | limitEn (hb : s.regs.status ≠ .busy) (b : Bool) :
      HostStep s { s with regs := { s.regs with limitEn := b } }
  | inByte (hb : s.regs.status ≠ .busy) {a : Nat} (ha : a < s.cfg.inCap) (x : Byte) :
      HostStep s { s with inp := cellsWrite s.inp a x }
  | reset : HostStep s (resetEvent s)

theorem hostStep_answerIf (d : Bool) (width v : Nat) : HostStep s (answerIf d width v s) := by
  unfold answerIf
  split
  · exact .answer v
  · exact .answerFree width

/-- A read of a register (R257). -/
theorem hostStep_of_readReg {n : Nat} (h : readReg n s = .next t) : HostStep s t := by
  unfold readReg at h
  dsimp only at h
  split at h
  case h_1 | h_2 => cases h; exact .answer _
  case h_8 => cases h
  all_goals cases h; exact hostStep_answerIf ..

/-- A read (R256). -/
theorem hostStep_of_hostRead {a : Target} (h : hostRead a s = .next t) : HostStep s t := by
  unfold hostRead at h
  split at h
  case h_1 => exact hostStep_of_readReg h
  all_goals
    split at h
    · cases h; exact hostStep_answerIf ..
    · cases h

/-- A write that R306 forbids while BUSY answers only while not BUSY. -/
theorem dutiful_eq_next {a : Target} {r : Result} :
    dutiful a s r = .next t ↔ s.regs.status ≠ .busy ∧ r = .next t := by
  unfold dutiful
  split <;> simp_all

/-- A write of a register other than CMD (R257). -/
theorem hostStep_of_writeReg {n v : Nat} (h : writeReg n v s = .next t) : HostStep s t := by
  unfold writeReg at h
  split at h
  case h_1 | h_2 | h_4 => cases h; exact .same
  case h_3 => obtain ⟨hb, h⟩ := dutiful_eq_next.1 h; cases h; exact .inLen hb v
  case h_5 => obtain ⟨hb, h⟩ := dutiful_eq_next.1 h; cases h; exact .outLimit hb v
  case h_6 => obtain ⟨hb, h⟩ := dutiful_eq_next.1 h; cases h; exact .limitEn hb _
  case h_7 => cases h

/-- A command that is ignored while BUSY (R254). -/
theorem hostStep_unlessBusy {f : State → State} (h : s.regs.status ≠ .busy → HostStep s (f s)) :
    HostStep s (unlessBusy f s) := by
  unfold unlessBusy
  split
  · exact .same
  · next hb => exact h hb

/-- A write of CMD: the four commands (R250 to R253). -/
theorem hostStep_of_decodeCommand {b : Byte} (h : exec (decodeCommand b) s = .next t) :
    HostStep s t := by
  unfold decodeCommand at h
  split at h
  · cases h
    refine hostStep_unlessBusy fun hb => ?_
    split
    · exact .refuseStart hb
    · next hin => exact .startDecoder hb (Nat.le_of_not_lt hin)
  split at h
  · cases h
    refine hostStep_unlessBusy fun hb => ?_
    split
    · exact .refuseStart hb
    · next hfit => exact .startEncoder hb (by omega) (by omega)
  split at h
  · cases h; exact hostStep_unlessBusy .clear
  · cases h; exact .same

/-- A write (R32, R70, R257). -/
theorem hostStep_of_hostWrite {a : Target} {v : Nat} (h : runMove (hostWrite a v s) = .next t) :
    HostStep s t := by
  unfold hostWrite at h
  split at h
  case h_1 => exact hostStep_of_decodeCommand h
  case h_2 => exact hostStep_of_writeReg h
  case h_3 =>
    rw [runMove_internal] at h
    split at h
    · next ha =>
      obtain ⟨hb, h⟩ := dutiful_eq_next.1 h
      cases h; exact .inByte hb ha _
    · cases h
  case h_4 => cases h

/-- A move through the map is the move on what the map has there (R81). -/
theorem hostStep_of_onBus {addr : Nat} {f : Target → Move}
    (hf : ∀ a, runMove (f a) = .next t → HostStep s t) (h : runMove (onBus addr s f) = .next t) :
    HostStep s t := by
  unfold onBus at h
  split at h
  · exact hf _ h
  · cases h

/-- What a move of the host can do. -/
theorem hostStep_of_hostMove {m : HostMove} (h : runMove (hostMove m s) = .next t) :
    HostStep s t := by
  cases m with
  | write a v => exact hostStep_of_hostWrite h
  | read a => exact hostStep_of_hostRead h
  | busWrite addr v => exact hostStep_of_onBus (fun _ => hostStep_of_hostWrite) h
  | busRead addr =>
    exact hostStep_of_onBus (f := fun a => .internal (hostRead a s)) (fun _ => hostStep_of_hostRead) h
  | run => cases h; exact .same
  | await => cases h; exact .same
  | reset => cases h; exact .reset

/-! ### The whole machine -/

/-- Every outcome of the engine's move (R289, R302). -/
theorem engineMove_next (h : runMove (engineMove s) = .next t) :
    t = s ∨ (s.decoding ∧ DecoderStep s t) ∨ (s.encoding ∧ EncoderStep s t) := by
  rcases engineMove_cases s with ⟨-, he⟩ | ⟨hd, he⟩ | ⟨hd, he⟩ | ⟨-, -, -, he⟩ | ⟨-, -, he⟩ <;>
    rw [he] at h
  · cases h; exact .inl rfl
  · exact .inr (.inl ⟨hd, decoderStep_of_decoderMove h⟩)
  · exact .inr (.inr ⟨hd, encoderStep_of_next h⟩)
  · cases h
  · cases h

/-- What holds of a state, whatever its script, and is kept by every outcome of the decoder, the encoder
and the host is kept by every step: the three are all a step can be. -/
theorem step_keeps {P : State → Prop} (hscript : ∀ {u} ms, P u → P (setScript ms u))
    (hdec : ∀ {u v}, P u → u.decoding → DecoderStep u v → P v)
    (henc : ∀ {u v}, P u → u.encoding → EncoderStep u v → P v)
    (hhost : ∀ {u v}, P u → HostStep u v → P v) (hs : P s) (h : step s = .next t) : P t := by
  rcases turn_cases s with ⟨e, he, hturn⟩ | ⟨hnone, m, rest, hm⟩
  · rw [step_engine he] at h
    have hPe : P e := by
      rcases hturn with rfl | ⟨rest, -, rfl⟩
      · exact hs
      · exact hscript rest hs
    rcases engineMove_next h with rfl | ⟨hd, hstep⟩ | ⟨hd, hstep⟩
    · exact hPe
    · exact hdec hPe hd hstep
    · exact henc hPe hd hstep
  · rw [step_host hnone hm] at h
    exact hhost (hscript rest hs) (hostStep_of_hostMove h)

end Sys2Proof.Machine
end

section
/-! PROOFS. The statements about the state that need no invariant: whose instruction a step runs (R40,
R32), how far the cursor moves (R41), and that CAUSE and OUT_LEN agree with STATUS (R34, R36). -/

namespace Sys2Proof.Machine

variable {s t : State}

/-! ### Which instruction a step runs (R40, R111, R112) -/

/-- In phases LITLEN and MATCHLEN only an escape byte can be due, inside LDEC's loop (R141). -/
theorem escape_of_due {c : Context} (hp : s.dec.phase = .litLen ∨ s.dec.phase = .matchLen)
    (h : dueContext s = some c) : s.lc.loop = .more ∧ c = .escape := by
  rcases hp with hp | hp <;> simp only [dueContext, hp] at h <;>
    exact (Option.ite_none_right_eq_some.1 h).imp_right fun h => (Option.some.inj h).symm

/-- In phase LITCOPY only a literal can be due, once both tests have passed (R163). -/
theorem literal_of_due {c : Context} (hp : s.dec.phase = .litCopy) (h : dueContext s = some c) :
    ¬(literalOverrun s = true ∨ overLimit s = true ∨ s.dec.left = 0) ∧ c = .literal := by
  simp only [dueContext, hp] at h
  exact (Option.ite_none_left_eq_some.1 h).imp_right fun h => (Option.some.inj h).symm

/-- Where an element is due the decoder reads it, and does nothing else (R111). -/
theorem decoderMove_of_due {c : Context} (h : dueContext s = some c) :
    decoderMove s = readElement c s := by
  cases hp : s.dec.phase with
  | token | offset =>
    simp only [dueContext, hp, Option.some.injEq] at h
    simp only [decoderMove, hp, h]
  | litLen =>
    obtain ⟨hl, rfl⟩ := escape_of_due (.inl hp) h
    exact decoderMove_escape (.inl hp) hl
  | matchLen =>
    obtain ⟨hl, rfl⟩ := escape_of_due (.inr hp) h
    exact decoderMove_escape (.inr hp) hl
  | litCopy =>
    obtain ⟨hdue, rfl⟩ := literal_of_due hp h
    rw [not_or, not_or] at hdue
    obtain ⟨hover, hlim, hleft⟩ := hdue
    rw [decoderMove_litCopy hp, litCopyMove, if_neg hover, if_neg hlim, if_neg hleft]
  | endCheck | matchCopy => simp only [dueContext, hp, reduceCtorEq] at h

theorem readElement_of_decode {c : Context} {i : Instr} {rest : List Byte}
    (h : decode c (window s) = .ok i rest) : readElement c s = .instr i s := by
  rw [readElement, h]

/-- Settles O5: the engine's move is the decoder's, which reads the element due. -/
theorem stepRunsTheDueElement : Obligations.StepRunsTheDueElement := by
  intro s e c i rest hturn hd hdue hdec
  rw [step_engine hturn, engineMove_decoding hd, decoderMove_of_due hdue, readElement_of_decode hdec,
    runMove_instr]

/-- Settles O7: by number and through the map the move is the same write of CMD, and that runs what the
byte decodes to. -/
theorem cmdWriteRunsItsCommand : Obligations.CmdWriteRunsItsCommand := by
  intro s v rest i hwrite hdec
  rw [step_of_writesNext hwrite, hostWrite, writeCmd, hdec, runMove_instr]

/-! ### The cursor (R41) -/

/-- Settles O24: of the outcomes of a decoder's move, three move the cursor by 1 and one, OFFSET, by
2. -/
theorem cursorOnlyAdvances : Obligations.CursorOnlyAdvances := by
  intro s t hw hd h
  rw [step_decoding hw hd] at h
  cases decoderStep_of_decoderMove h with
  | token | escapeOverflow | escape | literal => exact .inr (.inl rfl)
  | badOffset _ hp | offset hp => exact .inr (.inr ⟨rfl, hp⟩)
  | raised | enterLdec | litLen | literalsDone | done | moreInput | matchLen | copyByte
  | copyDone => exact .inl rfl

/-! ### STATUS, CAUSE and OUT_LEN (R34, R36) -/

/-- CAUSE is 0 in every state but ERROR and OUT_LEN is 0 unless DONE (R34, R36). -/
def HostRegs.Agree (r : HostRegs) : Prop :=
  (r.status = .error ↔ r.cause ≠ .none) ∧ (r.status ≠ .done → r.outLen = 0)

theorem HostRegs.Agree.cause_of_ne_error {r : HostRegs} (h : r.Agree) (he : r.status ≠ .error) :
    r.cause = .none := by
  by_contra hc
  exact he (h.1.2 hc)

/-- Error entry puts them in agreement (R280). -/
theorem agree_raise {c : Cause} (hc : c ≠ .none) (u : State) : (raise c u).regs.Agree :=
  ⟨⟨fun _ => hc, fun _ => rfl⟩, fun _ => rfl⟩

/-- DONE leaves CAUSE as it was, and that was 0 while BUSY (R169, R214). -/
theorem agree_stopDone {u : State} (h : u.regs.Agree) (hb : u.regs.status = .busy) :
    (stopDone u).regs.Agree := by
  have hc := h.cause_of_ne_error (by rw [hb]; decide)
  exact ⟨⟨fun he => (nomatch he), fun hn => absurd hc hn⟩, fun hn => absurd rfl hn⟩

/-- The decoder touches the host registers only to end the operation. -/
theorem DecoderStep.agree (h : s.regs.Agree) (hb : s.regs.status = .busy) (hstep : DecoderStep s t) :
    t.regs.Agree := by
  cases hstep with
  | raised hc => exact agree_raise hc _
  | escapeOverflow | badOffset => exact agree_raise (by decide) _
  | done => exact agree_stopDone h hb
  | token | enterLdec | escape | litLen | literal | literalsDone | moreInput | offset | matchLen
  | copyByte | copyDone => exact h

/-- The encoder touches the host registers only to end the operation. -/
theorem EncoderStep.agree (h : s.regs.Agree) (hb : s.regs.status = .busy) (hstep : EncoderStep s t) :
    t.regs.Agree := by
  cases hstep with
  | emitSeq hs hc hxs hroom acc => simpa using h
  | flush hs hxs hroom acc => exact agree_stopDone (by simpa using h) (by simpa using hb)
  | scanOn | scanEnd | lookup | verifyNone | verify | updateHit | updateMiss | extendOn | extendEnd
  | midIndexRun | midIndexSkip | advanceMatch | advanceLiteral => exact h

/-- The host touches them only by a command or the reset (R250 to R252, R301). -/
theorem HostStep.agree (h : s.regs.Agree) (hstep : HostStep s t) : t.regs.Agree := by
  cases hstep with
  | refuseStart => exact agree_raise (c := .limit) (by decide) s
  | startDecoder | startEncoder | clear | reset => simp [HostRegs.Agree, resetEvent, State.reset]
  | same | answer | answerFree | inLen | outLimit | limitEn | inByte => exact h

/-- Settles O32: the agreement holds of the host registers whatever else the state holds, and each of
the outcomes of a step keeps it. -/
theorem statusAndCauseAgree : Obligations.StatusAndCauseAgree := by
  intro s t h hstep
  exact step_keeps (P := fun u => u.regs.Agree) (fun _ h => h)
    (fun h hd hst => hst.agree h hd.1) (fun h he hst => hst.agree h he.1)
    (fun h hst => hst.agree h) h hstep

end Sys2Proof.Machine
end

section
/-! PROOFS. The invariant of every run (R41, R72, R165, R171, R201, R217, R34, R36): it holds after reset,
and every outcome of the decoder, of the encoder and of the host keeps it. -/

namespace Sys2Proof.Machine

variable {s t : State}

/-! ### The parts of the invariant, each by the fields it reads -/

theorem MemOk.of_eq (h : MemOk s) (hcfg : t.cfg = s.cfg) (hinp : t.inp = s.inp) (hout : t.out = s.out)
    (hidx : t.idx = s.idx) : MemOk t :=
  ⟨hinp ▸ h.inpWf, hout ▸ h.outWf, hidx ▸ h.idxWf, by rw [hinp, hcfg]; exact h.inpBound,
    by rw [hout, hcfg]; exact h.outBound, by rw [hidx, hcfg]; exact h.idxBound⟩

/-- Bytes appended inside OUT keep the memories in order (R72). -/
theorem MemOk.putCells {xs : List Byte} (h : MemOk s) (hroom : s.olen + xs.length ≤ s.cfg.outCap) :
    MemOk (putCells xs s) := by
  refine ⟨by simpa using h.inpWf, memory_wf_putCells xs s h.outWf, by simpa using h.idxWf,
    by simpa using h.inpBound, fun p hp => ?_, by simpa using h.idxBound⟩
  rw [putCells_cfg]
  rcases putCells_bound hp with hp | ⟨-, hp⟩
  · exact h.outBound p hp
  · omega

theorem TokOk.of_eq (h : TokOk s) (hdec : t.dec = s.dec) : TokOk t :=
  ⟨hdec ▸ h.high, hdec ▸ h.low⟩

/-- Without a result there is nothing to say of OUT_LEN (R36). -/
theorem RegsOk.of_outLen_eq_zero (hin : t.regs.inLen ≤ t.cfg.maxLen)
    (hlim : t.regs.outLimit ≤ t.cfg.maxLen) (hcause : t.regs.status = .error ↔ t.regs.cause ≠ .none)
    (h0 : t.regs.outLen = 0) : RegsOk t :=
  ⟨hin, hlim, hcause, fun _ => h0, by omega, fun a ha => absurd ha (by omega)⟩

/-- While BUSY there is no result, so the host registers need no look at OUT. -/
theorem RegsOk.of_busy (h : RegsOk s) (hb : s.regs.status = .busy) (hregs : t.regs = s.regs)
    (hcfg : t.cfg = s.cfg) : RegsOk t :=
  .of_outLen_eq_zero (by rw [hregs, hcfg]; exact h.inLenFits) (by rw [hregs, hcfg]; exact h.outLimitFits)
    (by rw [hregs]; exact h.causeIff) (by rw [hregs]; exact h.noResult (by rw [hb]; decide))

theorem RegsOk.agree (h : RegsOk s) : s.regs.Agree := ⟨h.causeIff, h.noResult⟩

/-- `stop DONE` keeps the invariant: everything below `olen` was written, inside OUT (R169, R214,
R256). -/
theorem Inv.stopDone (hcfg : t.cfg.Ok) (hmem : MemOk t) (htok : TokOk t) (hregs : RegsOk t)
    (hb : t.regs.status = .busy) (hfits : t.olen ≤ t.cfg.outCap) (hw : t.outWritten t.olen) :
    Inv (Machine.stopDone t) :=
  Inv.notBusy hcfg (hmem.of_eq rfl rfl rfl rfl) (htok.of_eq rfl)
    ⟨hregs.inLenFits, hregs.outLimitFits, (agree_stopDone hregs.agree hb).1,
      (agree_stopDone hregs.agree hb).2, hfits, hw⟩ (by simp)

/-! ### The decoder -/

/-- A change of the decoder's and the codec's registers alone. -/
theorem Inv.withDec (h : Inv s) (hd : s.decoding) {d : DecRegs} {l : CodecRegs}
    (hhigh : d.l = hiNibble d.tok) (hlow : d.m = loNibble d.tok) (hip : d.ip ≤ s.regs.inLen)
    (hlast : d.phase = .offset → d.ip < s.regs.inLen)
    (hoff : d.phase = .matchLen ∨ d.phase = .matchCopy → d.off ≠ 0#16 ∧ d.off.toNat ≤ s.olen) :
    Inv { s with dec := d, lc := l } :=
  h.ofDec hd rfl rfl rfl rfl rfl rfl rfl ⟨hhigh, hlow⟩ hip hlast hoff

/-- A change of the decoder's registers into a phase that needs nothing: neither OFFSET, nor one that
uses the offset. -/
theorem Inv.withPhase (h : Inv s) (hd : s.decoding) {d : DecRegs} {l : CodecRegs}
    (hhigh : d.l = hiNibble d.tok) (hlow : d.m = loNibble d.tok) (hip : d.ip ≤ s.regs.inLen)
    (hp : d.phase ≠ .offset ∧ d.phase ≠ .matchLen ∧ d.phase ≠ .matchCopy) :
    Inv { s with dec := d, lc := l } := by
  obtain ⟨ho, hl, hc⟩ := hp
  exact h.withDec hd hhigh hlow hip (fun h => absurd h ho)
    (fun h => h.elim (absurd · hl) (absurd · hc))

/-- The decoder keeps the invariant. -/
theorem DecoderStep.inv (h : Inv s) (hd : s.decoding) (hstep : DecoderStep s t) : Inv t := by
  have hok := h.dec hd.1 hd.2.1
  obtain ⟨hhigh, hlow⟩ := h.tok
  have hip := hok.ipBound
  cases hstep with
  | raised hc => exact h.raise hc rfl rfl rfl rfl rfl h.tok
  | escapeOverflow => exact h.raise (by decide) rfl rfl rfl rfl rfl ⟨hhigh, hlow⟩
  | badOffset => exact h.raise (by decide) rfl rfl rfl rfl rfl ⟨hhigh, hlow⟩
  | token _ hlt => exact h.withPhase hd (by simp) (by simp) hlt (by simp)
  | enterLdec => exact h.withDec hd hhigh hlow hip hok.notLast hok.legalOff
  | escape hp _ hlt =>
    exact h.withDec hd hhigh hlow hlt (fun ho => by simp [show s.dec.phase = .offset from ho] at hp)
      hok.legalOff
  | litLen => exact h.withPhase hd hhigh hlow hip (by simp)
  | literal hp _ hlt hlim =>
    exact h.putDec hd _ hlim rfl rfl rfl rfl rfl (by simp [hp]) hlt
  | literalsDone => exact h.withPhase hd hhigh hlow hip (by simp)
  | done =>
    exact Inv.stopDone h.cfgOk h.mem h.tok h.regs hd.1 (hok.olenBound.trans (lim_le s)) hok.written
  | moreInput _ hne =>
    exact h.withDec hd hhigh hlow hip (fun _ => lt_of_le_of_ne hip hne) (by simp)
  | offset _ hlt h0 hle =>
    exact h.withDec hd hhigh hlow hlt (by simp) (fun _ => ⟨h0, hle⟩)
  | matchLen hp => exact h.withDec hd hhigh hlow hip (by simp) (fun _ => hok.legalOff (.inl hp))
  | copyByte hp _ hlim =>
    exact h.putDec hd _ hlim rfl rfl rfl rfl rfl (by simp [hp]) hip
  | copyDone => exact h.withPhase hd hhigh hlow hip (by simp)

/-! ### The encoder -/

theorem EncOk.mlimit_le (h : EncOk s) : s.enc.mlimit ≤ s.regs.inLen := by rw [h.limitIs]; omega

/-- A match ends before `mlimit`. -/
theorem goodMatch.end_le {n : Nat} (h : goodMatch s n) : s.enc.cur + n ≤ s.enc.mlimit := by
  obtain ⟨_, _, _, _, hend, _⟩ := h
  exact hend

theorem inBytes_eq_iff {a b n : Nat} :
    s.inBytes a n = s.inBytes b n ↔ ∀ k < n, s.inByte (a + k) = s.inByte (b + k) := by
  simp [State.inBytes]

/-- What VERIFY accepts is a match of four bytes (R205). -/
theorem goodMatch_four {c : Nat} (hc : s.enc.cand = some c) (hlt : c < s.enc.cur)
    (hcur : s.enc.cur + 4 ≤ s.enc.mlimit)
    (hhit : (decide (s.enc.cur - c ≤ 65535) && (s.inBytes c 4 == s.inBytes s.enc.cur 4)) = true) :
    goodMatch s 4 := by
  rw [Bool.and_eq_true, decide_eq_true_eq, beq_iff_eq, inBytes_eq_iff] at hhit
  exact ⟨c, hc, hlt, hhit.1, hcur, hhit.2⟩

/-- One more byte that agrees makes the match longer by one (R206). -/
theorem goodMatch_succ {c n : Nat} (h : goodMatch s n) (hc : s.enc.cand = some c)
    (hlim : s.enc.cur + n < s.enc.mlimit) (hbyte : s.inByte (c + n) = s.inByte (s.enc.cur + n)) :
    goodMatch s (n + 1) := by
  obtain ⟨c', hc', hlt, hdist, -, hagree⟩ := h
  obtain rfl : c' = c := Option.some.inj (hc'.symm.trans hc)
  refine ⟨c', hc, hlt, hdist, hlim, fun k hk => ?_⟩
  rcases Nat.lt_succ_iff_lt_or_eq.1 hk with hk | rfl
  · exact hagree k hk
  · exact hbyte

/-- A change of the encoder's registers alone, the cursors and `mlimit` as they were. -/
theorem Inv.withEnc (h : Inv s) (he : s.encoding) {e : EncRegs}
    (hlim : e.mlimit = s.enc.mlimit) (hanchor : e.anchor ≤ e.cur) (hcur : e.cur ≤ s.regs.inLen)
    (hst : stepOk { s with enc := e }) : Inv { s with enc := e } :=
  h.ofEnc he rfl rfl rfl rfl rfl rfl rfl h.mem.idxWf h.mem.idxBound hlim hanchor hcur hst

/-- LOOKUP's slot lies in the index, and what it holds is below `cur` (R201, R203). -/
theorem inv_lookup (h : Inv s) (he : s.encoding) (hs : s.enc.step = .lookup) :
    Inv { s with
      enc :=
        { s.enc with
          key := keyOf s.cfg (prefix32 s.inByte s.enc.cur)
          cand := cellsRead s.idx (keyOf s.cfg (prefix32 s.inByte s.enc.cur))
          step := .verify } } := by
  have hok := h.enc he.1 he.2.1
  obtain ⟨hbudget, hidx, hcur⟩ := by simpa only [stepOk, hs] using hok.atStep
  have hslots : 1 ≤ s.cfg.idxSlots := h.cfgOk.2.2.2
  refine h.withEnc he rfl hok.anchorLe hok.curLe ?_
  simp only [stepOk]
  exact ⟨hbudget, hidx, hcur, keyOf_lt hslots _, fun c hc => hidx _ (mem_of_cellsRead hc)⟩

/-- VERIFY's answer is a match of four bytes, or none (R205). -/
theorem inv_verify (h : Inv s) (he : s.encoding) (hs : s.enc.step = .verify) {hit : Bool}
    (hhit : s.enc.cur + 4 ≤ s.enc.mlimit → hit = true → goodMatch s 4) :
    Inv { s with enc := { s.enc with hit := hit, step := .update } } := by
  have hok := h.enc he.1 he.2.1
  obtain ⟨hbudget, hidx, hcur, hkey, -⟩ := by simpa only [stepOk, hs] using hok.atStep
  refine h.withEnc he rfl hok.anchorLe hok.curLe ?_
  simp only [stepOk]
  exact ⟨hbudget, hidx, hcur, hkey, hhit hcur⟩

/-- UPDATE writes `cur` at a slot of the index (R204). -/
theorem inv_update (h : Inv s) (he : s.encoding) (hs : s.enc.step = .update) {e : EncRegs}
    (hlim : e.mlimit = s.enc.mlimit) (hanchor : e.anchor = s.enc.anchor) (hcur : e.cur = s.enc.cur)
    (hst : s.olen ≤ outBudget s.enc.anchor → (∀ p ∈ updatedIndex s, p.2 ≤ s.enc.cur) →
      s.enc.cur + 4 ≤ s.enc.mlimit → (s.enc.hit = true → goodMatch s 4) →
      stepOk { s with idx := updatedIndex s, enc := e }) :
    Inv { s with idx := updatedIndex s, enc := e } := by
  have hok := h.enc he.1 he.2.1
  obtain ⟨hbudget, hidx, hcur4, hkey, hgood⟩ := by simpa only [stepOk, hs] using hok.atStep
  have hslots : ∀ p ∈ updatedIndex s, p.1 < s.cfg.idxSlots := fun p hp => by
    rcases mem_updatedIndex hp with rfl | hp
    · exact hkey
    · exact h.mem.idxBound p hp
  have hpos : ∀ p ∈ updatedIndex s, p.2 ≤ s.enc.cur := fun p hp => by
    rcases mem_updatedIndex hp with rfl | hp
    · exact le_rfl
    · exact (hidx p hp).le
  exact h.ofEnc he rfl rfl rfl rfl rfl rfl rfl (index_wf_updatedIndex s h.mem.idxWf) hslots hlim
    (by show e.anchor ≤ e.cur; rw [hanchor, hcur]; exact hok.anchorLe)
    (by show e.cur ≤ _; rw [hcur]; exact hok.curLe) (hst hbudget hpos hcur4 hgood)

/-- EMIT_SEQ stays in the size bound of the bytes it covers (R207, R217). -/
theorem inv_emitSeq (h : Inv s) (he : s.encoding) (hs : s.enc.step = .emitSeq) {off : Offset}
    {xs : List Byte}
    (hxs : xs = seqBytes (s.inBytes s.enc.anchor (s.enc.cur - s.enc.anchor)) off s.enc.mlen)
    (hroom : s.olen + xs.length ≤ s.cfg.outCap) (acc : Nat) :
    Inv
      { putCells xs s with
        lc := { s.lc with acc := acc }, enc := { s.enc with step := .midIndex } } := by
  have hok := h.enc he.1 he.2.1
  obtain ⟨hbudget, hidx, hmlen, hgood⟩ := by simpa only [stepOk, hs] using hok.atStep
  have hbound : s.olen + xs.length ≤ outBudget (s.enc.cur + s.enc.mlen) := by
    have hseq := seqBytes_budget (lits := s.inBytes s.enc.anchor (s.enc.cur - s.enc.anchor))
      (off := off) hmlen hbudget
    rwa [← hxs, inBytes_length, Nat.add_sub_cancel' hok.anchorLe] at hseq
  refine ⟨by simpa using h.cfgOk, (h.mem.putCells hroom).of_eq rfl rfl rfl rfl,
    h.tok.of_eq (by simp), h.regs.of_busy he.1 (by simp) (by simp), fun _ hu => ?_, fun _ _ => ?_⟩
  · simp [he.2.1] at hu
  · refine ⟨by simpa using hok.inFits, by simpa using hok.outFits, by simpa using hok.limitIs,
      hok.anchorLe, by simpa using hok.curLe, ?_, ?_⟩
    · simpa [State.outWritten] using outWritten_putCells (xs := xs) hok.written
    · simpa only [stepOk, putCells_olen, putCells_idx] using ⟨hbound, hidx, hmlen, hgood.end_le⟩

/-- MIDINDEX adds positions inside the match at slots of the index (R208). -/
theorem inv_midIndexRun (h : Inv s) (he : s.encoding) (hs : s.enc.step = .midIndex) :
    Inv
      (setStep .advanceMatch
        { s with
          idx := indexRun s.cfg s.inByte s.regs.inLen (s.enc.mlen - 1) (s.enc.cur + 1) s.idx }) := by
  have hok := h.enc he.1 he.2.1
  obtain ⟨hbudget, hidx, hmlen, hend⟩ := by simpa only [stepOk, hs] using hok.atStep
  have hslots : 1 ≤ s.cfg.idxSlots := h.cfgOk.2.2.2
  refine h.ofEnc he rfl rfl rfl rfl rfl rfl rfl (index_wf_indexRun _ _ _ _ _ h.mem.idxWf)
    (fun p hp => ?_) rfl hok.anchorLe hok.curLe ?_
  · rcases mem_indexRun hp with hp | ⟨-, -, k, hk⟩
    · exact h.mem.idxBound p hp
    · rw [hk]; exact keyOf_lt hslots k
  · simp only [stepOk, setStep_enc]
    refine ⟨hbudget, fun p hp => ?_, hend⟩
    rcases mem_indexRun hp with hp | ⟨-, hlt, -⟩
    · have := hidx p hp; omega
    · omega

/-- FLUSH ends the operation inside OUT, whose bytes are written (R213, R214, R217). -/
theorem inv_flush (h : Inv s) (he : s.encoding) {xs : List Byte}
    (hroom : s.olen + xs.length ≤ s.cfg.outCap) (acc : Nat) :
    Inv (stopDone { putCells xs s with lc := { s.lc with acc := acc } }) := by
  have hok := h.enc he.1 he.2.1
  refine Inv.stopDone (by simpa using h.cfgOk) ((h.mem.putCells hroom).of_eq rfl rfl rfl rfl)
    (h.tok.of_eq (by simp)) (h.regs.of_busy he.1 (by simp) (by simp)) (by simpa using he.1)
    (by simpa using hroom) ?_
  simpa [State.outWritten] using outWritten_putCells (xs := xs) hok.written

/-- The encoder keeps the invariant. -/
theorem EncoderStep.inv (h : Inv s) (he : s.encoding) (hstep : EncoderStep s t) : Inv t := by
  have hok := h.enc he.1 he.2.1
  have hanchor := hok.anchorLe
  have hcur := hok.curLe
  have hlim := hok.mlimit_le
  have hst := hok.atStep
  cases hstep with
  | scanOn hs hon =>
    simp only [stepOk, hs] at hst
    exact h.withEnc he rfl hanchor hcur ⟨hst.1, hst.2, hon⟩
  | scanEnd hs =>
    simp only [stepOk, hs] at hst
    exact h.withEnc he rfl hanchor hcur hst.1
  | lookup hs => exact inv_lookup h he hs
  | verifyNone hs => exact inv_verify h he hs (fun _ hhit => by cases hhit)
  | verify hs hc hlt => exact inv_verify h he hs (goodMatch_four hc hlt)
  | updateHit hs hhit =>
    exact inv_update h he hs rfl rfl rfl fun hbudget hidx _ hgood =>
      ⟨hbudget, hidx, le_rfl, hgood hhit⟩
  | updateMiss hs =>
    exact inv_update h he hs rfl rfl rfl fun hbudget hidx hon _ => ⟨hbudget, hidx, hon⟩
  | extendOn hs hc hon hbyte =>
    simp only [stepOk, hs] at hst
    obtain ⟨hbudget, hidx, hmlen, hgood⟩ := hst
    refine h.withEnc he rfl hanchor hcur ?_
    simp only [stepOk, hs]
    exact ⟨hbudget, hidx, Nat.le_succ_of_le hmlen, goodMatch_succ hgood hc hon hbyte⟩
  | extendEnd hs =>
    simp only [stepOk, hs] at hst
    exact h.withEnc he rfl hanchor hcur hst
  | emitSeq hs hc hxs hroom acc => exact inv_emitSeq h he hs hxs hroom acc
  | midIndexRun hs => exact inv_midIndexRun h he hs
  | midIndexSkip hs =>
    simp only [stepOk, hs] at hst
    obtain ⟨hbudget, hidx, hmlen, hend⟩ := hst
    exact h.withEnc he rfl hanchor hcur
      ⟨hbudget, fun p hp => (hidx p hp).trans_lt (by show s.enc.cur < s.enc.cur + s.enc.mlen; omega),
        hend⟩
  | advanceMatch hs =>
    simp only [stepOk, hs] at hst
    obtain ⟨hbudget, hidx, hend⟩ := hst
    exact h.withEnc he rfl le_rfl (hend.trans hlim) ⟨hbudget, hidx⟩
  | advanceLiteral hs =>
    simp only [stepOk, hs] at hst
    obtain ⟨hbudget, hidx, hon⟩ := hst
    exact h.withEnc he rfl (Nat.le_succ_of_le hanchor) (by show s.enc.cur + 1 ≤ _; omega)
      ⟨hbudget, fun p hp => Nat.lt_succ_of_le (hidx p hp)⟩
  | flush hs hxs hroom acc => exact inv_flush h he hroom acc

/-! ### The host and reset -/

/-- The invariant says nothing of the host and of the read counter. -/
theorem Inv.withHost (h : Inv s) (p : HostPort) (reads : Nat) :
    Inv { s with host := p, free := { s.free with reads := reads } } :=
  ⟨h.cfgOk, h.mem.of_eq rfl rfl rfl rfl, h.tok.of_eq rfl,
    ⟨h.regs.inLenFits, h.regs.outLimitFits, h.regs.causeIff, h.regs.noResult, h.regs.resultFits,
      h.regs.resultWritten⟩,
    fun hb hu =>
      let d := h.dec hb hu
      ⟨d.inFits, d.ipBound, d.olenBound, d.written, d.notLast, d.legalOff⟩,
    fun hb hu =>
      let e := h.enc hb hu
      ⟨e.inFits, e.outFits, e.limitIs, e.anchorLe, e.curLe, e.written, e.atStep⟩⟩

theorem tokOk_reset : TokOk State.reset := ⟨by decide, by decide⟩

/-- The reset values meet the invariant under every legal configuration (R47, R300). -/
theorem inv_resetValues {c : Config} (hc : c.Ok) (p : HostPort) (f : FreeCounters) :
    Inv { State.reset with cfg := c, host := p, free := f } :=
  Inv.notBusy hc ⟨rfl, rfl, rfl, nofun, nofun, nofun⟩ (tokOk_reset.of_eq rfl)
    (.of_outLen_eq_zero (Nat.zero_le _) (Nat.zero_le _) (by simp [State.reset]) rfl) nofun

/-- Before its first step a DECOMPRESS has read and written nothing (R160, R250). -/
theorem inv_startDecoder (h : Inv s) (hin : s.regs.inLen ≤ s.cfg.inCap) : Inv (startDecoder s) :=
  ⟨h.cfgOk, h.mem.of_eq rfl rfl rfl rfl, ⟨h.tok.high, h.tok.low⟩,
    .of_outLen_eq_zero h.regs.inLenFits h.regs.outLimitFits (by simp) rfl,
    fun _ _ => ⟨hin, Nat.zero_le _, Nat.zero_le _, nofun, by simp, by simp⟩, nofun⟩

/-- Before its first step a COMPRESS has an empty index and has written nothing (R200, R251). -/
theorem inv_startEncoder (h : Inv s) (hin : s.regs.inLen ≤ s.cfg.inCap)
    (hout : sizeBound s.regs.inLen ≤ s.cfg.outCap) : Inv (startEncoder s) :=
  ⟨h.cfgOk, ⟨h.mem.inpWf, h.mem.outWf, rfl, h.mem.inpBound, h.mem.outBound, nofun⟩,
    h.tok.of_eq rfl, .of_outLen_eq_zero h.regs.inLenFits h.regs.outLimitFits (by simp) rfl, nofun,
    fun _ _ => ⟨hin, hout, rfl, le_rfl, Nat.zero_le _, nofun, ⟨Nat.zero_le _, nofun⟩⟩⟩

/-- A value cut to LENW bits fits a length register (R31). -/
theorem mod_lenw_le (c : Config) (v : Nat) : v % 2 ^ c.lenw ≤ c.maxLen :=
  Nat.le_sub_one_of_lt (Nat.mod_lt _ (Nat.two_pow_pos _))

/-- The host keeps the invariant. -/
theorem HostStep.inv (h : Inv s) (hstep : HostStep s t) : Inv t := by
  obtain ⟨hin, hlim, hcause, hno, hfits, hw⟩ := h.regs
  cases hstep with
  | same => exact h
  | answer v => exact h.withHost { s.host with rdata := v } s.free.reads
  | answerFree => exact h.withHost _ _
  | refuseStart => exact h.raise (c := .limit) (by decide) rfl rfl rfl rfl rfl h.tok
  | startDecoder _ hcap => exact inv_startDecoder h hcap
  | startEncoder _ hcap hout => exact inv_startEncoder h hcap hout
  | clear =>
    exact Inv.notBusy h.cfgOk (h.mem.of_eq rfl rfl rfl rfl) (h.tok.of_eq rfl)
      (.of_outLen_eq_zero hin hlim (by simp) rfl) (by simp)
  | inLen hb v =>
    exact Inv.notBusy h.cfgOk (h.mem.of_eq rfl rfl rfl rfl) (h.tok.of_eq rfl)
      ⟨mod_lenw_le s.cfg v, hlim, hcause, hno, hfits, hw⟩ hb
  | outLimit hb v =>
    exact Inv.notBusy h.cfgOk (h.mem.of_eq rfl rfl rfl rfl) (h.tok.of_eq rfl)
      ⟨hin, mod_lenw_le s.cfg v, hcause, hno, hfits, hw⟩ hb
  | limitEn hb b =>
    exact Inv.notBusy h.cfgOk (h.mem.of_eq rfl rfl rfl rfl) (h.tok.of_eq rfl)
      ⟨hin, hlim, hcause, hno, hfits, hw⟩ hb
  | inByte hb ha x =>
    refine Inv.notBusy h.cfgOk ⟨memory_wf_write _ x h.mem.inpWf, h.mem.outWf, h.mem.idxWf,
      fun p hp => ?_, h.mem.outBound, h.mem.idxBound⟩ (h.tok.of_eq rfl)
      ⟨hin, hlim, hcause, hno, hfits, hw⟩ hb
    rcases mem_cellsWrite hp with rfl | hp
    · exact ha
    · exact h.mem.inpBound p hp
  | reset => exact inv_resetValues h.cfgOk s.host _

/-- Settles O49: the reference configuration is legal, and the reset values meet the invariant under
every legal one. -/
theorem resetMeetsTheInvariant : Obligations.ResetMeetsTheInvariant :=
  inv_resetValues (c := .reference) (by unfold Config.Ok; decide) State.reset.host State.reset.free

/-- Settles O50: each of the outcomes of a step keeps the invariant. -/
theorem stepKeepsTheInvariant : Obligations.StepKeepsTheInvariant := fun _ _ h hstep =>
  step_keeps (P := Inv) (fun ms h => h.setScript ms) (fun h hd hst => hst.inv h hd)
    (fun h he hst => hst.inv h he) (fun h hst => hst.inv h) h hstep

end Sys2Proof.Machine
end

section
/-! PROOFS. The statements about the memories: the engine reads and writes inside them (R77), never
changes its input (R71, R80), and only appends to OUT (R72); a host read changes nothing (R83), a
host write of IN one byte (R70). -/

namespace Sys2Proof.Machine

variable {s e t : State}

/-! ### The engine's bounds (R77) -/

/-- The operation answers a next state: no fault, no refusal. -/
def Answers (r : Result) : Prop := ∃ t, r = .next t

@[simp] theorem answers_next (s : State) : Answers (.next s) := ⟨s, rfl⟩

/-- A token byte, or that it is missing (R161, R272). -/
theorem answers_token (s : State) : Answers (runMove (readElement .token s)) := by
  rcases readElement_token s with ⟨-, hr⟩ | ⟨-, hr⟩
  · simp [hr]
  · simp [hr, exec_decodeToken]

/-- An offset, legal or not, or that it is missing (R165). -/
theorem answers_offset (s : State) : Answers (runMove (readElement .offset s)) := by
  rcases readElement_offset s with ⟨-, hr⟩ | ⟨-, hr⟩
  · simp [hr]
  · rcases execOffset_cases (joinOffset (s.inByte s.dec.ip) (s.inByte (s.dec.ip + 1))) s with
      ⟨-, he⟩ | ⟨-, -, he⟩ <;> simp [hr, he]

/-- LDEC reads no byte at or above IN_LEN (R77 a): it ends in TRUNC_ESCAPE there (R141). -/
theorem answers_ldecMove (nib : Nibble) (commit : State → State) (s : State) :
    Answers (runMove (ldecMove nib commit s)) := by
  cases hl : s.lc.loop with
  | start | finished => simp [ldecMove, hl]
  | more =>
    rcases readElement_escape s with ⟨-, hr⟩ | ⟨-, hr⟩
    · simp [ldecMove, hl, hr]
    · simp [ldecMove, hl, hr, exec_decodeEscape]

/-- A literal that passes both tests lies inside OUT (R163, R77 c). -/
theorem answers_litCopyMove (s : State) : Answers (runMove (litCopyMove s)) := by
  unfold litCopyMove
  split
  · simp
  split
  · simp
  next hlim =>
  split
  · simp
  next hleft =>
  have hroom : s.olen < s.cfg.outCap := (olen_lt_lim hlim hleft).trans_le (lim_le s)
  rcases readElement_literal s with ⟨-, hr⟩ | ⟨-, hr⟩
  · simp [hr]
  · simp [hr, execLit_of_lt hroom]

/-- A legal offset reads OUT below `olen`, and the limit keeps the write inside it (R77 b, c). -/
theorem answers_matchCopy (hoff : s.dec.off ≠ 0#16 ∧ s.dec.off.toNat ≤ s.olen) :
    Answers (matchCopy s) := by
  unfold matchCopy
  split
  · simp
  next hlim =>
  split
  · simp
  next hleft =>
  have hroom : s.olen < s.cfg.outCap := (olen_lt_lim hlim hleft).trans_le (lim_le s)
  rw [if_neg (not_or.2 ⟨hoff.1, not_lt.2 hoff.2⟩), put_of_lt hroom]
  simp

/-- The decoder's move answers (R77 a to c): of the invariant it takes that the offset of a copy is
legal. -/
theorem DecOk.answers (h : DecOk s) : Answers (runMove (decoderMove s)) := by
  unfold decoderMove
  split
  case h_1 => exact answers_token s
  case h_2 | h_6 => exact answers_ldecMove ..
  case h_3 => exact answers_litCopyMove s
  case h_4 => exact answers_next _
  case h_5 => exact answers_offset s
  case h_7 hp => exact answers_matchCopy (h.legalOff (.inr hp))

/-- EMIT_SEQ fits OUT: the size bound of the bytes it covers does (R77 c, R217, R251). -/
theorem EncOk.answers_emitSeq (h : EncOk s) (hs : s.enc.step = .emitSeq) :
    Answers (encEmitSeq s) := by
  obtain ⟨hbudget, -, hmlen, hgood⟩ := by simpa only [stepOk, hs] using h.atStep
  have hend := hgood.end_le.trans h.mlimit_le
  obtain ⟨c, hc, hlt, -⟩ := hgood
  have hroom : s.olen + (seqAt s c s.enc.mlen).length ≤ s.cfg.outCap := by
    have hanchor := h.anchorLe
    have hcur := h.curLe
    have hout := h.outFits
    have hseq := seqBytes_budget (off := BitVec.ofNat 16 (s.enc.cur - c))
      (lits := (s.input.drop s.enc.anchor).take (s.enc.cur - s.enc.anchor)) hmlen hbudget
    rw [← seqAt, input_drop_take (by omega), inBytes_length] at hseq
    unfold outBudget at hseq
    unfold sizeBound at hout
    omega
  exact ⟨_, encEmitSeq_eq hc hlt h.anchorLe h.curLe hroom⟩

/-- FLUSH fits OUT: the size bound of the whole input does (R77 c, R217, R251). -/
theorem EncOk.answers_flush (h : EncOk s) (hs : s.enc.step = .flush) : Answers (encFlush s) := by
  have hanchor := h.anchorLe.trans h.curLe
  have hbudget : s.olen ≤ outBudget s.enc.anchor := by simpa only [stepOk, hs] using h.atStep
  have hroom : s.olen + (lastBytes (s.input.drop s.enc.anchor)).length ≤ s.cfg.outCap := by
    have hlast := lastBytes_budget (lits := s.input.drop s.enc.anchor) hbudget
    rw [List.length_drop, input_length, Nat.add_sub_cancel' hanchor] at hlast
    exact hlast.trans h.outFits
  exact ⟨_, encFlush_eq hanchor hroom⟩

/-- The encoder's step answers (R77 a, c, d): its reads end at `mlimit`, its candidate lies below
`cur` and what it writes stays in the size bound. -/
theorem EncOk.answers (h : EncOk s) : Answers (encoderStep s) := by
  have hst := h.atStep
  have hlim := h.mlimit_le
  unfold encoderStep
  split
  case h_1 | h_4 | h_7 | h_8 | h_9 => exact answers_next _
  case h_2 hs =>
    obtain ⟨-, -, hcur⟩ := by simpa only [stepOk, hs] using hst
    exact ⟨_, encLookup_eq (hcur.trans hlim)⟩
  case h_3 hs =>
    obtain ⟨-, -, hcur, -, hcand⟩ := by simpa only [stepOk, hs] using hst
    exact ⟨_, encVerify_eq (hcur.trans hlim) hcand⟩
  case h_5 hs =>
    obtain ⟨-, -, -, c, hc, hlt, -⟩ := by simpa only [stepOk, hs] using hst
    exact ⟨_, encExtend_eq hc hlt hlim⟩
  case h_6 hs => exact h.answers_emitSeq hs
  case h_10 hs => exact h.answers_flush hs

/-- The input of a running operation lies in IN (R70, R250, R251). -/
theorem Inv.inFits (h : Inv s) (hb : s.regs.status = .busy) : s.regs.inLen ≤ s.cfg.inCap := by
  cases hu : s.unit with
  | dec => exact (h.dec hb hu).inFits
  | enc => exact (h.enc hb hu).inFits

/-- The engine's move answers where the platform keeps the input and OUT apart (R77, R81). -/
theorem Inv.answers_engineMove (h : Inv s) (ha : s.apart) : Answers (runMove (engineMove s)) := by
  rcases engineMove_cases s with ⟨-, he⟩ | ⟨hd, he⟩ | ⟨hd, he⟩ | ⟨-, -, hna, -⟩ | ⟨hb, hc, -⟩
  · simp [he]
  · rw [he]; exact (h.dec hd.1 hd.2.1).answers
  · rw [he]; exact (h.enc hd.1 hd.2.1).answers
  · exact absurd ha hna
  · exact absurd (h.inFits hb) (Nat.not_le.2 hc)

/-- On its turn the engine moves in the state as it is, but for the script. -/
theorem eq_setScript_of_engineTurn (h : engineTurn s = some e) : ∃ ms, e = setScript ms s := by
  rcases turn_cases s with ⟨u, hu, hturn⟩ | ⟨hnone, -⟩
  · obtain rfl : u = e := Option.some.inj (hu.symm.trans h)
    rcases hturn with rfl | ⟨rest, -, rfl⟩
    · exact ⟨u.host.script, rfl⟩
    · exact ⟨rest, rfl⟩
  · simp [hnone] at h

/-- Settles O51: under the invariant the decoder's move and the encoder's step answer; under an
overlap the input still lies in IN, so the overlap is what stops the step. -/
theorem engineStaysInBounds : Obligations.EngineStaysInBounds := by
  intro s e h hturn
  obtain ⟨ms, rfl⟩ := eq_setScript_of_engineTurn hturn
  have hinv := h.setScript ms
  rw [step_engine hturn]
  refine ⟨hinv.answers_engineMove, fun hna hb => ?_⟩
  rw [engineMove_overlap hb (hinv.inFits hb) hna, runMove_internal]

/-! ### What the engine leaves alone (R71, R72, R80, R256) -/

/-- An engine step changes nothing, or is an outcome of the decoder or of the encoder. -/
theorem engineStep_cases (hturn : engineTurn s = some e) (h : step s = .next t) :
    t = e ∨ DecoderStep e t ∨ EncoderStep e t := by
  rw [step_engine hturn] at h
  exact (engineMove_next h).imp_right (Or.imp And.right And.right)

/-- IN and the registers that the host sets up an operation with are as before (R71, R256). -/
structure InputKept (s t : State) : Prop where
  inp : t.inp = s.inp
  inLen : t.regs.inLen = s.regs.inLen
  outLimit : t.regs.outLimit = s.regs.outLimit
  limitEn : t.regs.limitEn = s.regs.limitEn

theorem DecoderStep.inputKept (h : DecoderStep s t) : InputKept s t := by
  cases h <;> exact ⟨rfl, rfl, rfl, rfl⟩

theorem EncoderStep.inputKept (h : EncoderStep s t) : InputKept s t := by
  cases h with
  | emitSeq | flush => constructor <;> simp
  | scanOn | scanEnd | lookup | verifyNone | verify | updateHit | updateMiss | extendOn | extendEnd
  | midIndexRun | midIndexSkip | advanceMatch | advanceLiteral => exact ⟨rfl, rfl, rfl, rfl⟩

/-- Settles O52: no outcome of the decoder or of the encoder changes them. -/
theorem engineNeverWritesItsInput : Obligations.EngineNeverWritesItsInput := by
  intro s e t hturn h
  obtain ⟨ms, rfl⟩ := eq_setScript_of_engineTurn hturn
  have hkept : InputKept (setScript ms s) t := by
    rcases engineStep_cases hturn h with rfl | hd | he
    · exact ⟨rfl, rfl, rfl, rfl⟩
    · exact hd.inputKept
    · exact he.inputKept
  exact ⟨hkept.inp, hkept.inLen, hkept.outLimit, hkept.limitEn⟩

/-- A state whose OUT and `olen` are those after putting `xs` has `xs` appended (R72, R212). -/
theorem appended_of_putCells {xs : List Byte} (hout : t.out = (putCells xs s).out)
    (holen : t.olen = s.olen + xs.length) (hfree : t.free = s.free) : Appended s t xs := by
  have hbyte : ∀ a, t.outByte a = (putCells xs s).outByte a := fun a => by
    rw [State.outByte, State.outByte, hout, hfree, putCells_free]
  refine ⟨holen, fun k hk => ?_, fun a ha => ?_⟩
  · rw [hbyte, putCells_outByte, if_pos (by omega), Nat.add_sub_cancel_left]
  · rw [hbyte, putCells_outByte, if_neg (by omega)]

/-- The decoder appends a byte to OUT, or none. -/
theorem DecoderStep.appended (h : DecoderStep s t) : ∃ xs, Appended s t xs := by
  cases h with
  | literal => exact ⟨[s.inByte s.dec.ip], appended_of_putCells rfl rfl rfl⟩
  | copyByte =>
    exact ⟨[s.outByte (s.olen - s.dec.off.toNat)], appended_of_putCells rfl rfl rfl⟩
  | raised | token | enterLdec | escapeOverflow | escape | litLen | literalsDone | done | moreInput
  | badOffset | offset | matchLen | copyDone => exact ⟨[], appended_of_putCells rfl rfl rfl⟩

/-- The encoder appends a sequence to OUT, or nothing. -/
theorem EncoderStep.appended (h : EncoderStep s t) : ∃ xs, Appended s t xs := by
  cases h with
  | @emitSeq _ _ _ xs | @flush _ xs =>
    exact ⟨xs, appended_of_putCells rfl (putCells_olen xs s) (putCells_free xs s)⟩
  | scanOn | scanEnd | lookup | verifyNone | verify | updateHit | updateMiss | extendOn | extendEnd
  | midIndexRun | midIndexSkip | advanceMatch | advanceLiteral =>
    exact ⟨[], appended_of_putCells rfl rfl rfl⟩

/-- Settles O53: whatever the engine does, it appends some bytes to OUT. -/
theorem outIsAppendOnly : Obligations.OutIsAppendOnly := by
  intro s e t hturn h
  obtain ⟨ms, rfl⟩ := eq_setScript_of_engineTurn hturn
  have happ : ∃ xs, Appended (setScript ms s) t xs := by
    rcases engineStep_cases hturn h with rfl | hd | he
    · exact ⟨[], appended_of_putCells rfl rfl rfl⟩
    · exact hd.appended
    · exact he.appended
  obtain ⟨xs, holen, -, hothers⟩ := happ
  exact ⟨by rw [holen]; exact Nat.le_add_right .., fun a ha => hothers a (.inl ha)⟩

/-! ### The host's reads (R83) -/

/-- Nothing but the value read and the read counter differs (R83; log 7). -/
def OnlyRead (s t : State) : Prop :=
  t =
    { s with
      host := { s.host with rdata := t.host.rdata }, free := { s.free with reads := t.free.reads } }

theorem onlyRead_answerIf (d : Bool) (width v : Nat) (s : State) :
    OnlyRead s (answerIf d width v s) := by
  unfold answerIf
  split <;> rfl

theorem onlyRead_of_readReg {n : Nat} (h : readReg n s = .next t) : OnlyRead s t := by
  unfold readReg at h
  dsimp only at h
  split at h
  case h_1 | h_2 => cases h; rfl
  case h_8 => cases h
  all_goals cases h; exact onlyRead_answerIf ..

theorem onlyRead_of_hostRead {a : Target} (h : hostRead a s = .next t) : OnlyRead s t := by
  unfold hostRead at h
  split at h
  case h_1 => exact onlyRead_of_readReg h
  all_goals
    split at h
    · cases h; exact onlyRead_answerIf ..
    · cases h

/-- A read that answers, whichever way it comes, is of some target. -/
theorem readsNext_of_next {m : HostMove} {rest : List HostMove}
    (hm : (∃ target, m = .read target) ∨ ∃ addr, m = .busRead addr)
    (hs : s.host.script = m :: rest) (h : step s = .next t) :
    ∃ target, s.readsNext target rest := by
  rcases hm with ⟨target, rfl⟩ | ⟨addr, rfl⟩
  · exact ⟨target, .inl hs⟩
  · cases hr : resolve s addr with
    | ok target => exact ⟨target, .inr ⟨addr, hs, hr⟩⟩
    | error r =>
      rw [step_host (by simp [engineTurn, hs]) hs, hostMove, onBus, resolve_setScript, hr] at h
      cases h

/-- Settles O46: a read that answers is a read of some target, and that changes nothing else. -/
theorem readsHaveNoSideEffect : Obligations.ReadsHaveNoSideEffect := by
  intro s t m rest hm hs h
  obtain ⟨target, hread⟩ := readsNext_of_next hm hs h
  rw [step_of_readsNext hread] at h
  exact onlyRead_of_hostRead h

/-! ### The host's writes of IN (R70, R71) -/

/-- The map has `IN[a]` at IN_BASE + a, outside the registers and OUT (R81; log 15). -/
theorem resolve_inp {a : Nat} (ha : a < s.cfg.inCap)
    (hreg : s.cfg.inBase + a < s.cfg.regBase ∨ s.cfg.regBase + 7 ≤ s.cfg.inBase + a)
    (hout : s.cfg.inBase + a < s.cfg.outBase ∨ s.cfg.outBase + s.cfg.outCap ≤ s.cfg.inBase + a) :
    resolve s (s.cfg.inBase + a) = .ok (.inp a) := by
  rw [resolve, if_neg (by omega), if_neg (by omega), if_pos (by omega), Nat.add_sub_cancel_left]

/-- `IN[a] <- x` (R70). -/
def storeIn (a : Nat) (x : Byte) (s : State) : State := { s with inp := cellsWrite s.inp a x }

@[simp] theorem storeIn_inByte (a : Nat) (x : Byte) (s : State) (b : Nat) :
    (storeIn a x s).inByte b = if a = b then x else s.inByte b := by
  simp only [storeIn, State.inByte, cellsRead_cellsWrite]
  split <;> rfl

theorem dutiful_of_busy {a : Target} {r : Result} (hb : s.regs.status = .busy) :
    dutiful a s r = .refused (.hostWriteWhileBusy a) := by rw [dutiful, if_pos hb]

theorem dutiful_of_not_busy {a : Target} {r : Result} (hb : s.regs.status ≠ .busy) :
    dutiful a s r = r := by rw [dutiful, if_neg hb]

/-- A write of IN inside IN_CAP stores its byte, unless R306 forbids it (R70). -/
theorem step_writeInp {a v : Nat} {rest : List HostMove} (hw : s.writesNext (.inp a) v rest)
    (ha : a < s.cfg.inCap) :
    step s =
      dutiful (.inp a) (setScript rest s)
        (.next (storeIn a (BitVec.ofNat 8 v) (setScript rest s))) := by
  rw [step_of_writesNext hw, hostWrite, if_pos (by simpa using ha), runMove_internal, storeIn]

/-- Settles O45: the write is made, refused or faulted by the address and by BUSY. -/
theorem hostWritesInput : Obligations.HostWritesInput := by
  intro s a
  refine ⟨resolve_inp, fun v rest => ⟨fun hw => ⟨fun ha hb => ?_, fun ha hb => ?_, fun ha => ?_⟩,
    fun hw => ?_⟩⟩
  · refine ⟨_, (step_writeInp hw ha).trans (dutiful_of_not_busy (by simpa using hb)), ?_,
      fun x hx => ?_, rfl⟩
    · rw [storeIn_inByte, if_pos rfl, BitVec.toNat_ofNat]
    · rw [storeIn_inByte, if_neg (Ne.symm hx), setScript_inByte]
  · rw [step_writeInp hw ha, dutiful_of_busy (by simpa using hb)]
  · rw [step_of_writesNext hw, hostWrite, if_neg (by simpa using ha), runMove_internal]
  · rw [step_of_writesNext hw, hostWrite, runMove_internal]

end Sys2Proof.Machine
end

section
/-! PROOFS. The decoder and the encoder of one element (R101 to R104, R111, R112): each undoes the
other, and only missing bytes are rejected (R109). -/

namespace Sys2Proof.Machine

/-! ### Which row a byte matches -/

/-- The mask of R111 that tests the whole byte. -/
theorem joinNibbles_and_FF (h l : Nibble) :
    joinNibbles h l &&& 0xFF#8 = 0xFF#8 ↔ h = 15#4 ∧ l = 15#4 := by
  revert h l; decide

/-- The mask of R111 that tests the high nibble. -/
theorem joinNibbles_and_F0 (h l : Nibble) : joinNibbles h l &&& 0xF0#8 = 0xF0#8 ↔ h = 15#4 := by
  revert h l; decide

/-- The mask of R111 that tests the low nibble. -/
theorem joinNibbles_and_0F (h l : Nibble) : joinNibbles h l &&& 0x0F#8 = 0x0F#8 ↔ l = 15#4 := by
  revert h l; decide

/-- Which of its nibbles are 15 decides the row of a token byte (R101, R172 to R175). -/
theorem decodeToken_joinNibbles (h l : Nibble) :
    decodeToken (joinNibbles h l) =
      if h = 15#4 then if l = 15#4 then .tokXX else .tokXS l
      else if l = 15#4 then .tokSX h else .tokSS h l := by
  rw [decodeToken, hiNibble_joinNibbles, loNibble_joinNibbles]
  simp only [joinNibbles_and_FF, joinNibbles_and_F0, joinNibbles_and_0F]
  by_cases hh : h = 15#4 <;> simp [hh]

/-- The value 255 is the one that continues (R102). -/
theorem decodeEscape_eq (b : Byte) :
    decodeEscape b = if b = 255#8 then .escCont else .escStop b := by
  have hmask : b &&& 0xFF#8 = b := BitVec.and_allOnes
  rw [decodeEscape, hmask]

theorem nibbleShort_iff (n : Nibble) : Nibble.short n = true ↔ n ≠ 15#4 := bne_iff_ne

/-! ### Decoding undoes encoding -/

/-- Settles O1, by the rows: a token byte's row by its nibbles, an escape or command byte's by its
value. -/
theorem decodeInvertsEncode : Obligations.DecodeInvertsEncode := by
  intro i rest hwf
  cases i with
  | tokXX => rfl
  | tokXS m =>
    have hm := (nibbleShort_iff m).1 hwf
    simp [encode, decode, Instr.context, decodeToken_joinNibbles, hm]
  | tokSX l =>
    have hl := (nibbleShort_iff l).1 hwf
    simp [encode, decode, Instr.context, decodeToken_joinNibbles, hl]
  | tokSS l m =>
    obtain ⟨hl, hm⟩ : l ≠ 15#4 ∧ m ≠ 15#4 := by
      simpa [Instr.wellFormed, nibbleShort_iff] using hwf
    simp [encode, decode, Instr.context, decodeToken_joinNibbles, hl, hm]
  | escCont => rfl
  | escStop v =>
    have hv : v ≠ 255#8 := bne_iff_ne.1 hwf
    simp [encode, decode, Instr.context, decodeEscape_eq, hv]
  | lit b => rfl
  | offset o => simp [encode, decode, Instr.context]
  | cmdNop v =>
    obtain ⟨⟨h1, h2⟩, h3⟩ : (v ≠ 1#8 ∧ v ≠ 2#8) ∧ v ≠ 3#8 := by
      simpa [Instr.wellFormed] using hwf
    simp [encode, decode, Instr.context, decodeCommand, h1, h2, h3]
  | cmdStartDecompress => rfl
  | cmdStartCompress => rfl
  | cmdClear => rfl

/-! ### Encoding undoes decoding -/

theorem encode_decodeToken (b : Byte) : encode (decodeToken b) = [b] := by
  have hb := joinNibbles_nibbles b
  generalize hiNibble b = h at hb
  generalize loNibble b = l at hb
  subst hb
  rw [decodeToken_joinNibbles]
  split_ifs with hh hl hl
  · subst hh hl; rfl
  · subst hh; rfl
  · subst hl; rfl
  · rfl

theorem encode_decodeEscape (b : Byte) : encode (decodeEscape b) = [b] := by
  rw [decodeEscape_eq]
  split_ifs with h
  · subst h; rfl
  · rfl

theorem encode_decodeCommand (b : Byte) : encode (decodeCommand b) = [b] := by
  unfold decodeCommand
  split_ifs with h1 h2 h3
  · subst h1; rfl
  · subst h2; rfl
  · subst h3; rfl
  · rfl

@[simp] theorem offsetLo_joinOffset (lo hi : Byte) : offsetLo (joinOffset lo hi) = lo :=
  BitVec.extractLsb'_append_eq_right

@[simp] theorem offsetHi_joinOffset (lo hi : Byte) : offsetHi (joinOffset lo hi) = hi :=
  BitVec.extractLsb'_append_eq_left

/-- Settles O2, by the decoder's possible answers in each context. -/
theorem encodeInvertsDecode : Obligations.EncodeInvertsDecode := by
  intro c bs rest i h
  rcases decode_cases h with ⟨-, b, rfl, rfl⟩ | ⟨-, b, rfl, rfl⟩ | ⟨-, b, rfl, rfl⟩ |
    ⟨-, b, rfl, rfl⟩ | ⟨-, lo, hi, rfl, rfl⟩
  · rw [encode_decodeToken]; rfl
  · rw [encode_decodeEscape]; rfl
  · rfl
  · rw [encode_decodeCommand]; rfl
  · simp [encode]

/-! ### What the decoder rejects -/

@[simp] theorem decode_nil (c : Context) : decode c [] = .rejected .noByte := by cases c <;> rfl

/-- Outside an offset any one byte is an element (R109). -/
theorem decode_cons {c : Context} (hc : c ≠ .offset) (b : Byte) (rest : List Byte) :
    ∃ i, decode c (b :: rest) = .ok i rest := by
  cases c with
  | offset => exact absurd rfl hc
  | token | escape | literal | command => exact ⟨_, rfl⟩

/-- Settles O3: an offset is taken from two bytes on, any other element from one byte on. -/
theorem decodeFailsOnlyOnMissingBytes : Obligations.DecodeFailsOnlyOnMissingBytes := by
  intro c bs
  by_cases hc : c = .offset
  · subst hc
    match bs with
    | [] => simp
    | [_] => simp [decode]
    | _ :: _ :: _ => simp [decode]
  · rw [if_neg hc]
    cases bs with
    | nil => simp
    | cons b rest =>
      obtain ⟨i, hi⟩ := decode_cons hc b rest
      simp [hi]

/-- Settles O4: the decoder, run on the words. -/
theorem sampleWordsDecode : Obligations.SampleWordsDecode := by
  unfold Obligations.SampleWordsDecode
  decide

end Sys2Proof.Machine
end

section
/-! PROOFS. The length codec (R140 to R146): LDEC and LENC invert each other, and one turn of LDEC's
loop either adds its byte or ends the operation. -/

namespace Sys2Proof.Machine

variable {s : State}

/-! ### LENC undoes LDEC (R142) -/

/-- What LDEC's loop adds to the accumulator is written by the bytes it read as LENC writes it (R108):
the quotient by 255 in bytes 255, then the remainder. -/
theorem ldecLoop_ok {maxLen acc n : Nat} {bytes rest : List Byte}
    (h : ldecLoop maxLen bytes acc = .ok (n, rest)) :
    ∃ m, n = acc + m ∧
      bytes = List.replicate (m / 255) 255#8 ++ [BitVec.ofNat 8 (m % 255)] ++ rest := by
  induction bytes generalizing acc with
  | nil => cases h
  | cons x bytes ih =>
    rw [ldecLoop] at h
    split_ifs at h with hover hx
    · subst hx
      obtain ⟨m, rfl, hbytes⟩ := ih h
      refine ⟨m + 255, by rw [BitVec.toNat_ofNat]; omega, ?_⟩
      rw [hbytes, Nat.add_div_right m (by decide), Nat.add_mod_right]
      rfl
    · cases h
      have hlt : x.toNat < 255 := by bv_omega
      exact ⟨x.toNat, rfl, by simp [Nat.div_eq_of_lt hlt, Nat.mod_eq_of_lt hlt]⟩

/-- LENC of what LDEC returns is the nibble and the escape bytes it was given (R142). -/
theorem lenc_ldec {maxLen n : Nat} {nib : Nibble} {bytes rest : List Byte}
    (h : ldec maxLen nib bytes = .ok (n, rest)) :
    nib = lencNibble n ∧ bytes = lencEscapes n ++ rest := by
  unfold ldec at h
  split_ifs at h with hnib
  · obtain ⟨m, rfl, hbytes⟩ := ldecLoop_ok h
    have hnat : nib.toNat = 15 := by rw [hnib]; rfl
    rw [hnat, hbytes, lencEscapes_of_le (Nat.le_add_right 15 m), Nat.add_sub_cancel_left]
    exact ⟨hnib.trans (if_neg (by omega)).symm, rfl⟩
  · cases h
    have hlt : nib.toNat < 15 := by bv_omega
    exact ⟨by simp [lencNibble, hlt], by rw [lencEscapes_of_lt hlt, List.nil_append]⟩

/-- Settles O14, from the two directions of R142 and the count of R145. -/
theorem lengthCodecInverse : Obligations.LengthCodecInverse := fun _ =>
  ⟨fun _ rest h => ldec_lenc h rest, fun _ _ _ _ h => lenc_ldec h, lencEscapes_length_eq⟩

/-! ### One turn of LDEC's loop (R143, R144, R146) -/

/-- Where the sum fits, the byte is added and the loop stands at `next`. -/
theorem escapeByte_adds {x : Byte} {next : LdecLoop} (h : s.lc.acc + x.toNat ≤ s.cfg.maxLen) :
    (escapeByte x next s).lc = { acc := s.lc.acc + x.toNat, b := x, loop := next } ∧
      (escapeByte x next s).dec = { s.dec with ip := s.dec.ip + 1 } ∧
      SameButDec s (escapeByte x next s) := by
  obtain ⟨hover, -⟩ | ⟨-, heq⟩ := escapeByte_cases x next s
  · omega
  · rw [heq]
    exact ⟨rfl, rfl, by constructor <;> intros <;> rfl⟩

/-- Where the sum does not fit, the operation ends with OVERFLOW and nothing is added. -/
theorem escapeByte_overflows {x : Byte} {next : LdecLoop}
    (h : s.cfg.maxLen < s.lc.acc + x.toNat) :
    Failed s (escapeByte x next s) .overflow ∧ (escapeByte x next s).lc.acc = s.lc.acc := by
  obtain ⟨-, heq⟩ | ⟨hfits, -⟩ := escapeByte_cases x next s
  · rw [heq]
    exact ⟨by constructor <;> intros <;> rfl, rfl⟩
  · omega

/-- Settles O11: ESC.CONT is one turn on the byte 255. -/
theorem escContAddsAndContinues : Obligations.EscContAddsAndContinues := fun _ h =>
  ⟨_, rfl, escapeByte_adds (x := 255#8) h⟩

/-- Settles O12: ESC.STOP is one turn on its operand. -/
theorem escStopAddsAndStops : Obligations.EscStopAddsAndStops := fun _ _ h =>
  ⟨_, rfl, escapeByte_adds h⟩

/-- Settles O13: both escape forms are a turn whose sum does not fit. -/
theorem escapeSumNeverWraps : Obligations.EscapeSumNeverWraps := fun _ =>
  ⟨fun h => ⟨_, rfl, escapeByte_overflows (x := 255#8) h⟩,
    fun _ h => ⟨_, rfl, escapeByte_overflows h⟩⟩

end Sys2Proof.Machine
end

section
/-! PROOFS. The statements about the decoder's phases (41_decoder.md). What the runs and the outcomes of
a step come to is said above; here they meet the frames that the statements are written with. -/

namespace Sys2Proof.Machine

variable {s : State}

/-! ### Frames of the updates a phase makes (R72, R280) -/

theorem sameButDec_registers (s : State) (d : DecRegs) (l : CodecRegs) :
    SameButDec s { s with dec := d, lc := l } :=
  ⟨rfl, rfl, fun _ => rfl, fun _ => rfl, rfl, rfl, rfl, rfl, rfl, rfl⟩

/-- Error entry is a failure whatever the decoder's and the codec's registers became before it (R280). -/
theorem failed_raise (s : State) (d : DecRegs) (l : CodecRegs) (c : Cause) :
    Failed s (raise c { s with dec := d, lc := l }) c :=
  ⟨rfl, rfl, fun _ => rfl, fun _ => rfl, rfl, rfl, rfl, rfl, rfl, rfl⟩

theorem failed_of_step {c : Cause} (h : step s = .next (raise c s)) :
    ∃ t, step s = .next t ∧ Failed s t c :=
  ⟨_, h, failed_raise s s.dec s.lc c⟩

theorem RunRaises.failed {c : Cause} (h : RunRaises s c) : ∃ k t, reaches k s t ∧ Failed s t c := by
  obtain ⟨k, d, l, hk⟩ := h
  exact ⟨k, _, hk, failed_raise s d l c⟩

theorem sameButOut_putCells (xs : List Byte) (s : State) (d : DecRegs) :
    SameButOut s { putCells xs s with dec := d } := by
  obtain ⟨hcfg, hregs, -, hidx, henc, hunit, hhost, hfree⟩ := DecFrame.putCells xs s d
  exact ⟨hcfg, hregs, putCells_inByte xs s, hidx, putCells_lc xs s, henc, hunit, hhost, hfree⟩

theorem appended_putCells (xs : List Byte) (s : State) (d : DecRegs) :
    Appended s { putCells xs s with dec := d } xs :=
  appended_of_putCells rfl (putCells_olen xs s) (putCells_free xs s)

/-! ### Phase TOKEN (R161) -/

theorem latched_latchToken (l m : Nibble) (s : State) : Latched s (latchToken l m s) l m :=
  ⟨sameButDec_registers s _ _, rfl, rfl, rfl, rfl, rfl, rfl, rfl, rfl, rfl, rfl, rfl, rfl⟩

/-- Settles O9: each token form is the latch of its nibbles. -/
theorem tokenFormsLatch : Obligations.TokenFormsLatch := fun s =>
  ⟨⟨_, rfl, latched_latchToken 15#4 15#4 s⟩, fun m => ⟨_, rfl, latched_latchToken 15#4 m s⟩,
    fun l => ⟨_, rfl, latched_latchToken l 15#4 s⟩, fun l m => ⟨_, rfl, latched_latchToken l m s⟩⟩

/-- Settles O10: the step is error entry or the latch of the byte's nibbles, which make up the byte. -/
theorem tokenPhaseSplitsTheByte : Obligations.TokenPhaseSplitsTheByte := fun _ hw hd hp =>
  ⟨fun hip => failed_of_step (step_token_trunc hw hd hp hip),
    fun hip => ⟨_, step_token hw hd hp hip, latched_latchToken _ _ _, joinNibbles_nibbles _⟩⟩

/-! ### Phases LITLEN and MATCHLEN (R162, R166) -/

/-- Settles O15: the run of the phase is LDEC's. -/
theorem litLenPhaseIsLdec : Obligations.LitLenPhaseIsLdec := by
  intro s hw hd hp hl hip
  obtain ⟨hok, herr⟩ := litLen_run hw hd hp hl hip
  refine ⟨fun n rest hldec => ?_, fun c hldec => (herr c hldec).failed⟩
  obtain ⟨k, lc, hk⟩ := hok n rest hldec
  exact ⟨k, _, hk, sameButDec_registers s _ lc, rfl⟩

/-- Settles O16: the run of the phase is LDEC's, and its end tests the sum with 4. -/
theorem matchLenPhaseIsLdecPlusFour : Obligations.MatchLenPhaseIsLdecPlusFour := by
  intro s hw hd hp hl hip
  obtain ⟨hok, herr⟩ := matchLen_run hw hd hp hl hip
  refine ⟨fun n rest hldec => ?_, fun c hldec => (herr c hldec).failed⟩
  obtain ⟨hfits, hover⟩ := hok n rest hldec
  refine ⟨fun hle => ?_, fun hlt => (hover hlt).failed⟩
  obtain ⟨k, lc, hk⟩ := hfits hle
  exact ⟨k, _, hk, sameButDec_registers s _ lc, rfl⟩

/-! ### Phase LITCOPY (R163, R176) -/

/-- Settles O17: within OUT_CAP a literal is one `put`. -/
theorem literalIsAppended : Obligations.LiteralIsAppended := fun s b h =>
  ⟨_, execLit_of_lt h, appended_putCells [b] s _, sameButOut_putCells [b] s _, rfl⟩

/-- Settles O18: each failing test ends the phase at its first step; where both pass, the run puts the
literals in order. -/
theorem litCopyAppendsTheLiterals : Obligations.LitCopyAppendsTheLiterals := by
  intro s hw hd hp hleft
  refine ⟨fun hshort => failed_of_step (step_litCopy_trunc hw hd hp (hleft ▸ hshort)),
    fun hin hroom =>
      failed_of_step (step_litCopy_limit hw hd hp (hleft ▸ hin) (hleft ▸ hroom)),
    fun hin hlim => ?_⟩
  obtain ⟨k, hk⟩ := litCopy_run hw hd hp hleft hin hlim
  exact ⟨k, _, hk, appended_putCells _ s _, sameButOut_putCells _ s _, rfl⟩

/-! ### Phase ENDCHECK (R164) -/

theorem step_endCheck (hw : s.hostWaits) (hd : s.decoding) (hp : s.dec.phase = .endCheck) :
    step s = .next (endCheck s) := by
  rw [step_decoding hw hd, decoderMove, hp]
  rfl

/-- Settles O19: the step is the one comparison of ENDCHECK. -/
theorem endCheckStopsAtTheEnd : Obligations.EndCheckStopsAtTheEnd := by
  intro s hw hd hp
  rw [step_endCheck hw hd hp, endCheck]
  refine ⟨fun hend => ?_, fun hmore => ?_⟩
  · rw [if_pos hend]
    exact ⟨_, rfl, rfl, rfl, fun _ => rfl, fun _ => rfl, rfl, rfl, rfl, rfl, rfl, rfl, rfl, rfl⟩
  · rw [if_neg hmore]
    exact ⟨_, rfl, rfl, rfl, sameButDec_registers s _ s.lc⟩

/-! ### Phase OFFSET (R165, R177) -/

theorem offset_eq_zero_iff (o : Offset) : o = 0#16 ↔ o.toNat = 0 := BitVec.toNat_inj.symm

/-- Settles O20, by the two outcomes of an offset. -/
theorem offsetIsValidated : Obligations.OffsetIsValidated := by
  intro s o
  rcases execOffset_cases o s with ⟨hbad, hx⟩ | ⟨h0, hle, hx⟩
  · rw [offset_eq_zero_iff] at hbad
    exact ⟨fun hpos hle => by omega, fun _ => ⟨_, hx, failed_raise s _ s.lc _⟩⟩
  · rw [Ne, offset_eq_zero_iff] at h0
    exact ⟨fun _ _ => ⟨_, hx, sameButDec_registers s _ _, rfl, rfl⟩, fun hbad => by omega⟩

theorem step_offset_trunc (hw : s.hostWaits) (hd : s.decoding) (hp : s.dec.phase = .offset)
    (hip : s.regs.inLen < s.dec.ip + 2) : step s = .next (raise .truncField s) := by
  rw [step_decoding hw hd, decoderMove, hp]
  rcases readElement_offset s with ⟨-, he⟩ | ⟨hin, -⟩
  · dsimp only
    rw [he, runMove_internal]
  · omega

/-- The two bytes at `ip` run as the offset they make, the low one first (R74, R165). -/
theorem step_offset (hw : s.hostWaits) (hd : s.decoding) (hp : s.dec.phase = .offset)
    (hip : s.dec.ip + 2 ≤ s.regs.inLen) :
    step s =
      exec (.offset (joinOffset (s.inByte s.dec.ip) (s.inByte (s.dec.ip + 1)))) s := by
  rw [step_decoding hw hd, decoderMove, hp]
  rcases readElement_offset s with ⟨hshort, -⟩ | ⟨-, he⟩
  · omega
  · dsimp only
    rw [he, runMove_instr]

/-- Settles O21: the step is error entry, or OFFSET with the little-endian distance, as
`offsetIsValidated` says. -/
theorem offsetPhaseReadsLittleEndian : Obligations.OffsetPhaseReadsLittleEndian := by
  intro s hw hd hp
  refine ⟨fun hip => failed_of_step (step_offset_trunc hw hd hp hip), fun hip d hval => ?_⟩
  rw [← joinOffset_toNat] at hval
  subst hval
  rw [step_offset hw hd hp hip]
  obtain ⟨hlegal, hbad⟩ :=
    offsetIsValidated s (joinOffset (s.inByte s.dec.ip) (s.inByte (s.dec.ip + 1)))
  refine ⟨fun hpos hle => ?_, hbad⟩
  obtain ⟨t, hexec, hframe, hdec, -⟩ := hlegal hpos hle
  exact ⟨t, hexec, hframe, by rw [hdec], by rw [hdec], by rw [hdec]⟩

/-! ### Phase MATCHCOPY (R167, R180) -/

/-- The `n` bytes that repeat the last `off` bytes of the output with period `off` (R180). -/
def State.periodic (s : State) (off n : Nat) : List Byte :=
  (List.range n).map fun i => s.outByte (s.olen - off + i % off)

@[simp] theorem periodic_length (s : State) (off n : Nat) : (s.periodic off n).length = n := by
  simp [State.periodic]

/-- Below `olen` the output with bytes after it reads as OUT. -/
theorem byteOf_produced_append {xs : List Byte} {p : Nat} (h : p < s.olen) :
    byteOf (s.produced ++ xs) p = s.outByte p := by
  rw [byteOf, List.getD_append _ _ _ _ (by simpa using h), State.produced, State.outBytes,
    List.getD_eq_getElem _ _ (by simpa using h)]
  simp

/-- From `olen` on the output with its periodic continuation reads as that. -/
theorem byteOf_produced_periodic {off n k : Nat} (h : k < n) :
    byteOf (s.produced ++ s.periodic off n) (s.olen + k) =
      s.outByte (s.olen - off + k % off) := by
  rw [byteOf, List.getD_append_right _ _ _ _ (by simp), produced_length, Nat.add_sub_cancel_left,
    State.periodic, List.getD_eq_getElem _ _ (by simpa using h)]
  simp

/-- The periodic continuation repeats, as a match does, what lies `off` bytes before it: its first `off`
bytes the output's last, the later ones its own (R180). -/
theorem repeats_periodic {off n : Nat} (hle : off ≤ s.olen) :
    Repeats (s.produced ++ s.periodic off n) (s.olen - off) s.olen n := by
  intro k hk
  rw [byteOf_produced_periodic hk]
  rcases Nat.lt_or_ge k off with hlt | hge
  · rw [byteOf_produced_append (by omega), Nat.mod_eq_of_lt hlt]
  · rw [show s.olen - off + k = s.olen + (k - off) by omega, byteOf_produced_periodic (by omega),
      Nat.mod_eq_sub_mod hge]

/-- Copying from distance `off` is appending the periodic continuation (R167, R180). -/
theorem copyBack_produced {off : Nat} (n : Nat) (hpos : 1 ≤ off) (hle : off ≤ s.olen) :
    copyBack off n s.produced = s.produced ++ s.periodic off n := by
  have hcopy := copyBack_take (by omega) (by simp) (repeats_periodic (s := s) (n := n) hle)
  rwa [Nat.sub_sub_self hle, List.take_left' (produced_length s), List.take_of_length_le (by simp)]
    at hcopy

/-- Settles O22: the failing test ends the phase at its first step; where it passes, the run puts what
`copyBack` adds, the periodic continuation. -/
theorem matchCopyRepeatsTheOutput : Obligations.MatchCopyRepeatsTheOutput := by
  intro s hw hd hp hleft hpos hle
  refine ⟨fun hroom => failed_of_step (step_matchCopy_limit hw hd hp (hleft ▸ hroom)),
    fun hlim => ?_⟩
  have h0 : s.dec.off ≠ 0#16 := by rw [Ne, offset_eq_zero_iff]; omega
  obtain ⟨k, xs, hk, hcopy⟩ := matchCopy_run hw hd hp hleft h0 hle hlim
  rw [copyBack_produced _ hpos hle] at hcopy
  obtain rfl : xs = s.periodic s.dec.off.toNat s.dec.matLen := List.append_cancel_left hcopy
  exact ⟨k, _, hk, appended_putCells _ s _, sameButOut_putCells _ s _, rfl⟩

/-! ### Every step of a DECOMPRESS (R168, R169) -/

/-- Settles O23: four outcomes of a decoder's move end the operation, four stay in their phase, and each
of the others is reached in one phase and sets the next. -/
theorem phasesRunInOrder : Obligations.PhasesRunInOrder := by
  intro s t hw hd h hbusy
  rw [step_decoding hw hd] at h
  cases decoderStep_of_decoderMove h with
  | raised | escapeOverflow | badOffset | done => cases hbusy
  | enterLdec | escape | literal | copyByte => exact .inl rfl
  | token hp | litLen hp | literalsDone hp | moreInput hp | offset hp | matchLen hp
  | copyDone hp => exact .inr (by rw [hp]; rfl)

/-- Settles O25: of the outcomes of a decoder's move only ENDCHECK's, with the input consumed, is
DONE. -/
theorem doneMeansInputConsumed : Obligations.DoneMeansInputConsumed := by
  intro s t hw hd h hdone
  rw [step_decoding hw hd] at h
  obtain ⟨hbusy, -⟩ := hd
  cases decoderStep_of_decoderMove h with
  | done hp hip => exact ⟨hip, rfl, rfl⟩
  | raised | escapeOverflow | badOffset => cases hdone
  | token | enterLdec | escape | litLen | literal | literalsDone | moreInput | offset | matchLen
  | copyByte | copyDone => exact absurd (hbusy.symm.trans hdone) (by decide)

/-! ### The whole operation (R181) -/

/-- Settles O55: what a DECOMPRESS completes as is what `decode` answers. -/
theorem decompressIsDecode : Obligations.DecompressIsDecode := by
  intro s hb hin ha hscript
  have hcomp := decompress_completes hb hin ha hscript
  refine ⟨fun out hdec => ?_, fun c hdec => ?_⟩ <;> rw [hdec] at hcomp
  · obtain ⟨n, t, hrun, hw, ⟨hstatus, hcause, hout⟩, hinp⟩ := hcomp
    exact ⟨n, t, hrun, hw, hstatus, hcause, hout, hinp⟩
  · obtain ⟨n, t, hrun, hw, ⟨hstatus, hcause, hlen⟩, hinp⟩ := hcomp
    exact ⟨n, t, hrun, hw, hstatus, hcause, hlen, hinp⟩

end Sys2Proof.Machine
end

section
/-! PROOFS. The statements about the encoder (42_encoder.md): the size bound of a block (R217), what each
step of the loop does (R202 to R214), and the whole operation (R223). -/

namespace Sys2Proof.Machine

section Block

/-! ### The size bound (R217) -/

variable {c : Config} {x : List Byte} {fuel cur anchor cand : Nat} {idx : Index}

/-- The sequence of a match keeps what was written in the budget of the bytes covered (R207, R217). -/
theorem MatchAt.seq_budget {n o : Nat} (hm : MatchAt c x cand cur n) (ha : anchor ≤ cur)
    (ho : o ≤ outBudget anchor) :
    o + (seqBytes ((x.drop anchor).take (cur - anchor)) (BitVec.ofNat 16 (cur - cand)) n).length ≤
      outBudget (cur + n) := by
  have hlen := hm.lt_length
  have hlits : ((x.drop anchor).take (cur - anchor)).length = cur - anchor := by
    rw [List.length_take, List.length_drop]; omega
  have hb := seqBytes_budget (lits := (x.drop anchor).take (cur - anchor))
    (off := BitVec.ofNat 16 (cur - cand)) hm.long ho
  rwa [hlits, Nat.add_sub_cancel' ha] at hb

/-- The last sequence keeps what was written in the size bound of the whole input (R213, R217). -/
theorem lastBytes_drop_budget {o : Nat} (ha : anchor ≤ x.length) (ho : o ≤ outBudget anchor) :
    o + (lastBytes (x.drop anchor)).length ≤ sizeBound x.length := by
  have hb := lastBytes_budget (lits := x.drop anchor) ho
  rwa [List.length_drop, Nat.add_sub_cancel' ha] at hb

/-- What the loop still writes, behind `o` bytes in the budget of the input up to `anchor`, stays in the
size bound (R217). -/
theorem encodeScan_budget {o : Nat} (hok : ScanOk x cur anchor idx) (ho : o ≤ outBudget anchor) :
    o + (encodeScan c x fuel cur anchor idx).length ≤ sizeBound x.length := by
  induction fuel generalizing cur anchor idx o with
  | zero => exact lastBytes_drop_budget (hok.anchorLe.trans hok.curLe) ho
  | succ fuel ih =>
    by_cases h : cur + 4 ≤ x.length - c.endMargin
    · cases hs : sourceAt c x cur idx with
      | none =>
        rw [encodeScan_of_none h hs]
        exact ih (hok.advanceLiteral (by omega) _) ho
      | some cand =>
        have hm := matchAt_of_source h hok hs
        rw [encodeScan_of_some h hs, List.length_append, ← Nat.add_assoc]
        exact ih (hok.advanceMatch hm) (hm.seq_budget hok.anchorLe ho)
    · rw [encodeScan_of_end h]
      exact lastBytes_drop_budget (hok.anchorLe.trans hok.curLe) ho

/-- Settles O59: nothing is written when nothing is covered, and the loop stays in the bound. -/
theorem blockSizeBound : Obligations.BlockSizeBound := fun c x => by
  have hbound := encodeScan_budget (c := c) (fuel := x.length + 1) (scanOk_start x) (Nat.zero_le _)
  rwa [Nat.zero_add] at hbound

/-- EXTEND stops only before `mlimit` or at a byte that differs (R206). -/
theorem extendMatch_maximal {mlimit n : Nat} (hfuel : mlimit ≤ cur + n + fuel) :
    ¬(cur + extendMatch x mlimit cand cur fuel n < mlimit ∧
      byteOf x (cand + extendMatch x mlimit cand cur fuel n) =
        byteOf x (cur + extendMatch x mlimit cand cur fuel n)) := by
  induction fuel generalizing n with
  | zero =>
    rintro ⟨hlt, -⟩
    rw [extendMatch] at hlt
    omega
  | succ fuel ih =>
    unfold extendMatch
    split
    · exact ih (by omega)
    · next hstop => exact hstop

/-- What VERIFY accepts, of an input as a list (R205). -/
theorem verified_isSome_iff {candidate : Option Nat} :
    (verified x cur candidate).isSome = true ↔
      ∃ p, candidate = some p ∧ cur - p ≤ 65535 ∧ (x.drop p).take 4 = (x.drop cur).take 4 := by
  cases candidate <;> simp [verified, Option.isSome_filter]

end Block

variable {s : State}

/-! ### EXTEND (R206) -/

/-- A stretch of the input repeats an earlier one as the bytes of IN say. -/
theorem repeats_input_iff {c cur n : Nat} (hlt : c < cur) (hin : cur + n ≤ s.regs.inLen) :
    Repeats s.input c cur n ↔ ∀ k < n, s.inByte (c + k) = s.inByte (cur + k) := by
  unfold Repeats
  refine forall₂_congr fun k hk => ?_
  rw [byteOf_input (by omega), byteOf_input (by omega)]

/-- Settles O38: the run finds the length `extendMatch` does, and that agrees throughout and is
longest. -/
theorem extendFindsTheWholeMatch : Obligations.ExtendFindsTheWholeMatch := by
  intro s c hw he hs hfour hc hlt hfits hlim hagree
  have hfuel : s.enc.mlimit ≤ s.enc.cur + 4 + s.enc.mlimit := Nat.le_add_left _ _
  obtain ⟨k, hk⟩ := extend_run hw he hs hc hlt hlim (by rw [hfour]; exact hfuel)
  obtain ⟨hlong, hend, hrep⟩ := extendMatch_repeats (fuel := s.enc.mlimit) hfits
    ((repeats_input_iff hlt (hfits.trans hlim)).2 hagree)
  have hmax := extendMatch_maximal (x := s.input) (cand := c) hfuel
  rw [hfour] at hk
  generalize extendMatch s.input s.enc.mlimit c s.enc.cur s.enc.mlimit 4 = n at *
  refine ⟨k, n, hlong, hend, (repeats_input_iff hlt (hend.trans hlim)).1 hrep, ?_, hk⟩
  rcases Nat.eq_or_lt_of_le hend with heq | hbefore
  · exact .inl heq
  · rw [byteOf_input (by omega), byteOf_input (by omega)] at hmax
    exact .inr fun hbyte => hmax ⟨hbefore, hbyte⟩

/-! ### The whole operation (R223) -/

/-- Settles O56: what a COMPRESS completes as is the block of `encode`. -/
theorem compressIsEncode : Obligations.CompressIsEncode := by
  intro s hb hin ha hroom hscript
  obtain ⟨n, t, hrun, hw, ⟨hstatus, hcause, hout⟩, hinp⟩ := compress_completes hb hin ha hroom hscript
  exact ⟨n, t, hrun, hw, hstatus, hcause, hout, hinp⟩

/-! ### LOOKUP, VERIFY and UPDATE (R203 to R205) -/

/-- The argument of the key function is the little-endian number of its four bytes (R201). -/
theorem prefix32_toNat (byte : Nat → Byte) (p : Nat) :
    (prefix32 byte p).toNat =
      (byte p).toNat + 256 * (byte (p + 1)).toNat + 65536 * (byte (p + 2)).toNat +
        16777216 * (byte (p + 3)).toNat := by
  unfold prefix32
  have h0 := (byte p).isLt
  have h1 := (byte (p + 1)).isLt
  have h2 := (byte (p + 2)).isLt
  rw [BitVec.toNat_append, ← Nat.shiftLeft_add_eq_or_of_lt h0, BitVec.toNat_append,
    ← Nat.shiftLeft_add_eq_or_of_lt h1, BitVec.toNat_append, ← Nat.shiftLeft_add_eq_or_of_lt h2]
  simp only [Nat.shiftLeft_eq]
  omega

/-- Settles O35: the key is `H` of that number, and the candidate is read at it. -/
theorem lookupReadsThePrefixSlot : Obligations.LookupReadsThePrefixSlot := fun s hw he hs hin =>
  ⟨prefix32 s.inByte s.enc.cur, prefix32_toNat _ _, (step_lookup hw he hs).trans (needIn_of_le hin)⟩

/-- Settles O36: VERIFY's answer is that of `verified`. -/
theorem verifyDecidesTheHit : Obligations.VerifyDecidesTheHit := by
  intro s hw he hs hin hbelow
  refine ⟨_, (step_verify hw he hs).trans (encVerify_eq hin hbelow), ?_⟩
  rw [verified_isSome_iff]
  refine exists_congr fun c => and_congr_right fun hc => and_congr_right fun _ => ?_
  have hlt := hbelow c hc
  rw [input_drop_take (by omega), input_drop_take hin, inBytes_eq_iff]

/-- The index after UPDATE, slot by slot (R204). -/
theorem cellsRead_updatedIndex (slot : Nat) :
    cellsRead (updatedIndex s) slot =
      if slot = s.enc.key ∧ (s.enc.hit = false ∨ s.cfg.indexMatchStart = true) then some s.enc.cur
      else cellsRead s.idx slot := by
  unfold updatedIndex
  by_cases hwrite : s.enc.hit = false ∨ s.cfg.indexMatchStart = true
  · rw [if_pos (by simpa using hwrite), cellsRead_cellsWrite]
    simp only [hwrite, and_true, eq_comm (a := slot)]
  · rw [if_neg (by simpa using hwrite), if_neg fun h => hwrite h.2]

/-- Settles O37: the step is the one update of `updatedIndex`. -/
theorem updateWritesTheSlotRead : Obligations.UpdateWritesTheSlotRead := fun _ hw he hs =>
  ⟨_, step_update hw he hs, cellsRead_updatedIndex, rfl, rfl⟩

/-! ### EMIT_SEQ and FLUSH (R207, R211 to R213) -/

theorem offsetLo_ofNat (d : Nat) : offsetLo (BitVec.ofNat 16 d) = BitVec.ofNat 8 d := by
  apply BitVec.eq_of_toNat_eq
  simp only [offsetLo, BitVec.extractLsb'_toNat, BitVec.toNat_ofNat, Nat.shiftRight_zero]
  omega

theorem offsetHi_ofNat (d : Nat) : offsetHi (BitVec.ofNat 16 d) = BitVec.ofNat 8 (d / 256) := by
  apply BitVec.eq_of_toNat_eq
  simp only [offsetHi, BitVec.extractLsb'_toNat, BitVec.toNat_ofNat, Nat.shiftRight_eq_div_pow]
  omega

/-- Settles O39: the bytes written out are the sequence that EMIT_SEQ puts. -/
theorem emitSeqAppendsTheSequence : Obligations.EmitSeqAppendsTheSequence := by
  intro s c hw he hs hc hlt hanchor hin lits xs hlits hxs hroom
  obtain rfl : xs = seqAt s c s.enc.mlen := by
    rw [hxs, hlits, seqAt, seqBytes, input_drop_take (by omega), offsetLo_ofNat, offsetHi_ofNat]
  exact ⟨_, (step_emitSeq hw he hs).trans (encEmitSeq_eq hc hlt hanchor hin hroom),
    appended_of_putCells rfl rfl rfl, rfl, rfl, rfl, rfl⟩

/-- Settles O42: the bytes written out are the last sequence that FLUSH puts. -/
theorem flushEndsTheBlock : Obligations.FlushEndsTheBlock := by
  intro s hw he hs hanchor lits xs hlits hxs hroom
  obtain rfl : xs = lastBytes (s.input.drop s.enc.anchor) := by
    rw [hxs, hlits, lastBytes, input_drop hanchor]
  have hstep := (step_flush hw he hs).trans (encFlush_eq hanchor hroom)
  rw [putCells_fields] at hstep
  exact ⟨_, hstep, appended_of_putCells rfl rfl rfl, rfl, rfl, rfl, rfl⟩

/-! ### MIDINDEX (R208) -/

/-- The index after one position, slot by slot (R208). -/
theorem cellsRead_indexAt (c : Config) (byte : Nat → Byte) (len : Nat) (x : Index) (p slot : Nat) :
    cellsRead (indexAt c byte len x p) slot =
      if p + 4 ≤ len ∧ keyOf c (prefix32 byte p) = slot then some p else cellsRead x slot := by
  unfold indexAt
  split
  · next hp => simp [cellsRead_cellsWrite, hp]
  · next hp => simp [hp]

/-- The index after a run of positions: a slot holds the last of them that has it, or what it held
(R208). -/
theorem cellsRead_indexRun (c : Config) (byte : Nat → Byte) (len slot : Nat) {n p : Nat} {x : Index} :
    cellsRead (indexRun c byte len n p x) slot =
      (((List.range' p n).filter fun q =>
          decide (q + 4 ≤ len) && decide (keyOf c (prefix32 byte q) = slot)).getLast?).or
        (cellsRead x slot) := by
  induction n generalizing p x with
  | zero => rfl
  | succ n ih =>
    rw [indexRun, ih, cellsRead_indexAt, List.range'_succ, List.filter_cons, ← Bool.decide_and]
    by_cases hp : p + 4 ≤ len ∧ keyOf c (prefix32 byte p) = slot
    · rw [if_pos hp, if_pos (decide_eq_true hp), List.getLast?_cons]
      cases (List.getLast? _) <;> rfl
    · rw [if_neg hp, if_neg (by simpa using hp)]

/-- Settles O40: the step writes nothing, or the run of the positions inside. -/
theorem midIndexWritesThePositionsInside : Obligations.MidIndexWritesThePositionsInside := by
  intro s hw he hs
  have hstep := step_midIndex hw he hs
  unfold encMidIndex at hstep
  cases hmid : s.cfg.indexMidMatch with
  | false =>
    rw [hmid, if_neg Bool.false_ne_true] at hstep
    exact ⟨_, hstep, rfl, rfl, fun _ => rfl, nofun⟩
  | true =>
    rw [hmid, if_pos rfl] at hstep
    exact ⟨_, hstep, rfl, rfl, nofun, fun _ slot => cellsRead_indexRun _ _ _ slot⟩

/-! ### The loop's test and its advances (R202, R209, R210) -/

/-- Settles O41: the three steps, as they are. -/
theorem scanAndAdvance : Obligations.ScanAndAdvance := fun _ hw he =>
  ⟨step_scan hw he, step_advanceMatch hw he, step_advanceLiteral hw he⟩

end Sys2Proof.Machine
end

section
/-! PROOFS. The statements about the host's interface (43_host_interface.md): the commands (R250 to
R254), and the host's accesses to the registers and to the result (R256, R257). -/

namespace Sys2Proof.Machine

variable {s : State} {rest : List HostMove}

/-! ### The commands (R250 to R254) -/

/-- A command changes nothing while BUSY, whichever it is (R254). -/
theorem exec_command_of_busy {i : Instr} (hi : i.context = .command) (hb : s.regs.status = .busy) :
    exec i s = .next s := by
  cases i with
  | cmdNop v => rfl
  | cmdStartDecompress | cmdStartCompress | cmdClear => exact congrArg _ (if_pos hb)
  | tokXX | tokXS | tokSX | tokSS | escCont | escStop | lit | offset => cases hi

/-- A write of CMD runs the command of the byte written (R32, R112). -/
theorem step_writeCmd {v : Nat} (h : s.writesNext (.reg 0) v rest) :
    step s = exec (decodeCommand (BitVec.ofNat 8 v)) (setScript rest s) :=
  cmdWriteRunsItsCommand s v rest _ h rfl

/-- Settles O30: the byte written is some command, and while BUSY that changes nothing. -/
theorem commandsIgnoredWhileBusy : Obligations.CommandsIgnoredWhileBusy := by
  intro s v rest hb hs
  rw [step_writeCmd (.inl hs)]
  exact exec_command_of_busy (decodeCommand_sound _).2 hb

/-- The start-time error is a failure with LIMIT (R276 b, R280). -/
theorem failed_refuseStart (s : State) : Failed s (refuseStart s) .limit :=
  failed_raise s s.dec s.lc .limit

/-- Settles O26: the three outcomes of START_DECOMPRESS. -/
theorem startDecompressStarts : Obligations.StartDecompressStarts := by
  refine fun s => ⟨exec_command_of_busy rfl, fun hb hin => ?_, fun hb hin => ?_⟩
  · exact ⟨_, exec_startDecompress hb hin, rfl, rfl, rfl, rfl, rfl, fun _ => rfl, fun _ => rfl, rfl,
      rfl, rfl, rfl, rfl⟩
  · exact ⟨_, exec_startDecompress_refused hb hin, failed_refuseStart s, rfl, rfl⟩

/-- The encoder's registers at its start; `mlimit` is 0 where END_MARGIN exceeds IN_LEN (R200). -/
theorem startEncoder_enc_eq_ite (s : State) :
    (startEncoder s).enc =
      { s.enc with
        cur := 0, anchor := 0, step := .scan,
        mlimit := if s.cfg.endMargin ≤ s.regs.inLen then s.regs.inLen - s.cfg.endMargin else 0 } := by
  rw [startEncoder_enc]
  split
  · rfl
  · rw [Nat.sub_eq_zero_of_le (by omega)]

/-- Settles O27: the three outcomes of START_COMPRESS. -/
theorem startCompressStarts : Obligations.StartCompressStarts := by
  refine fun s => ⟨exec_command_of_busy rfl, fun hb hin hroom => ?_, fun hb hfit => ?_⟩
  · exact ⟨_, exec_startCompress hb hin hroom, rfl, rfl, rfl, fun _ => rfl, startEncoder_enc_eq_ite s,
      rfl, fun _ => rfl, fun _ => rfl, rfl, rfl, rfl, rfl⟩
  · exact ⟨_, exec_startCompress_refused hb hfit, failed_refuseStart s, rfl, rfl⟩

/-- CLEAR while not BUSY (R252). -/
theorem exec_clear (hb : s.regs.status ≠ .busy) :
    exec .cmdClear s =
      .next { s with regs := { s.regs with status := .idle, cause := .none, outLen := 0 } } :=
  congrArg _ (if_neg hb)

theorem sameButRegs_withRegs (s : State) (r : HostRegs) : SameButRegs s { s with regs := r } :=
  ⟨rfl, fun _ => rfl, fun _ => rfl, rfl, rfl, rfl, rfl, rfl, rfl, rfl, rfl⟩

/-- Settles O28: the two outcomes of CLEAR. -/
theorem clearAcknowledges : Obligations.ClearAcknowledges := fun s =>
  ⟨exec_command_of_busy rfl, fun hb => ⟨_, exec_clear hb, rfl, sameButRegs_withRegs s _⟩⟩

/-- 0 and the reserved values are no other command (R112, R253). -/
theorem decodeCommand_reserved {b : Byte} (h : b.toNat = 0 ∨ 4 ≤ b.toNat) :
    decodeCommand b = .cmdNop b := by
  have hne {c : Byte} (hc : 1 ≤ c.toNat ∧ c.toNat ≤ 3) : b ≠ c := by rintro rfl; omega
  rw [decodeCommand, if_neg (hne (by decide)), if_neg (hne (by decide)), if_neg (hne (by decide))]

/-- Settles O29: such a value decodes to CMD.NOP, which changes nothing. -/
theorem nopAndReservedChangeNothing : Obligations.NopAndReservedChangeNothing := by
  refine fun s => ⟨fun v => rfl, fun v rest hv hs => ?_⟩
  have hbyte : (BitVec.ofNat 8 v).toNat = v := by rw [BitVec.toNat_ofNat]; omega
  rw [step_writeCmd (.inl hs), decodeCommand_reserved (by omega)]
  rfl

/-! ### The registers (R31, R257) -/

/-- The map has register `n` at REG_BASE + n (R81; log 15). -/
theorem resolve_reg {n : Nat} (hn : n < 7) : resolve s (s.cfg.regBase + n) = .ok (.reg n) := by
  rw [resolve, if_pos (by omega), Nat.add_sub_cancel_left]

/-- A host read of a value that is defined returns it and has no other effect (R83). -/
theorem step_read_of_defined {target : Target} {d : Bool} {width v : Nat}
    (h : s.readsNext target rest) (hd : d = true)
    (hread : hostRead target (setScript rest s) = .next (answerIf d width v (setScript rest s))) :
    step s = .next { s with host := { script := rest, rdata := v } } := by
  rw [step_of_readsNext h, hread, answerIf, if_pos hd]
  rfl

/-- Settles O43: the read by the register's number. -/
theorem registerReads : Obligations.RegisterReads := by
  refine fun s n => ⟨resolve_reg, fun rest h => ⟨?_, ?_, fun hb => ?_, fun hn => ?_⟩⟩
  · rintro rfl; exact step_of_readsNext h
  · rintro rfl; exact step_of_readsNext h
  · have hidle : (s.regs.status != .busy) = true := bne_iff_ne.2 hb
    refine ⟨?_, ?_, ?_, ?_, ?_⟩ <;> rintro rfl
    case refine_5 =>
      rw [← Bool.cond_eq_ite]
      exact step_read_of_defined h hidle rfl
    all_goals exact step_read_of_defined h hidle rfl
  · obtain ⟨k, rfl⟩ := Nat.exists_eq_add_of_le' hn
    exact step_of_readsNext h

/-- Settles O44: the write by the register's number. -/
theorem registerWrites : Obligations.RegisterWrites := by
  intro s n v rest h
  refine ⟨?_, fun hb => ⟨?_, ?_, ?_⟩, fun hb => ?_, fun hn => ?_⟩
  · rintro (rfl | rfl | rfl) <;> exact step_of_writesNext h
  case refine_2 | refine_3 | refine_4 =>
    rintro rfl; exact (step_of_writesNext h).trans (dutiful_of_not_busy hb)
  · rintro (rfl | rfl | rfl) <;> exact (step_of_writesNext h).trans (dutiful_of_busy hb)
  · obtain ⟨k, rfl⟩ := Nat.exists_eq_add_of_le' hn
    exact step_of_writesNext h

/-! ### The result (R256) -/

/-- The map has `OUT[a]` at OUT_BASE + a outside the registers, or refuses the address for a byte of the
input (R81, U12; log 15). -/
theorem resolve_out {a : Nat} (ha : a < s.cfg.outCap)
    (hreg : s.cfg.outBase + a < s.cfg.regBase ∨ s.cfg.regBase + 7 ≤ s.cfg.outBase + a) :
    resolve s (s.cfg.outBase + a) =
      if s.cfg.inBase ≤ s.cfg.outBase + a ∧ s.cfg.outBase + a < s.cfg.inBase + s.inputBytes then
        .error .overlappingMap
      else .ok (.out a) := by
  rw [resolve, if_neg (by omega), if_pos (by omega), Nat.add_sub_cancel_left]

/-- Settles O47: a byte of OUT below OUT_LEN has its value after DONE. -/
theorem resultIsReadable : Obligations.ResultIsReadable := by
  refine fun s a ha => ⟨resolve_out ha, fun rest h hdone hlen => ?_⟩
  have hdefined : (s.regs.status == .done && decide (a < s.regs.outLen)) = true := by
    simp [hdone, hlen]
  exact step_read_of_defined h hdefined (if_pos ha)

end Sys2Proof.Machine
end

section
/-! PROOFS. The statements about errors and the idle engine (60_exceptions.md): how ERROR is entered (R272,
R273, R280), who leaves it (R282, R301), and that a COMPRESS never gets there (R215, R290). -/

namespace Sys2Proof.Machine

variable {s t : State}

/-! ### Error entry, and nothing after it (R272, R273, R280, R289) -/

theorem readElement_of_rejected {c : Context} {r : Reject}
    (h : decode c (window s) = .rejected r) :
    readElement c s = .internal (.next (raise (missing c) s)) := by
  rw [readElement, h]

/-- Settles O6: the engine's move is the decoder's, which reads the element due and raises the context's
cause where the window is too short for it. -/
theorem missingBytesAreAnError : Obligations.MissingBytesAreAnError := by
  intro s e c r hturn hd hdue hdec
  have hstep : step s = .next (raise (missing c) e) := by
    rw [step_engine hturn, engineMove_decoding hd, decoderMove_of_due hdue,
      readElement_of_rejected hdec, runMove_internal]
  refine ⟨_, hstep, failed_raise e e.dec e.lc _, ?_, ?_⟩
  · rintro (rfl | rfl) <;> rfl
  · rintro rfl; rfl

/-- Settles O8: with the host waiting it is the engine's turn, and its move while not BUSY is none. -/
theorem idleEngineDoesNothing : Obligations.IdleEngineDoesNothing := by
  intro s hw hb
  rw [step_of_waits hw, engineMove_idle hb, runMove_internal]

/-- Settles O31: after error entry STATUS is not BUSY, so the engine is idle. -/
theorem errorEntry : Obligations.ErrorEntry := fun s c =>
  ⟨rfl, sameButRegs_withRegs s _, fun hw => idleEngineDoesNothing (raise c s) hw nofun⟩

/-! ### Who leaves ERROR (R282, R301) -/

/-- The low eight bits of `v` are START_DECOMPRESS, START_COMPRESS or CLEAR (R112; log 14). -/
def CommandValue (v : Nat) : Prop := v % 256 = 1 ∨ v % 256 = 2 ∨ v % 256 = 3

/-- Any other value written to CMD changes nothing (R253). -/
theorem exec_decodeCommand_of_not_command {v : Nat} (hv : ¬CommandValue v) :
    exec (decodeCommand (BitVec.ofNat 8 v)) s = .next s := by
  have hbyte : (BitVec.ofNat 8 v).toNat = v % 256 := BitVec.toNat_ofNat v 8
  unfold CommandValue at hv
  rw [decodeCommand_reserved (by omega)]
  rfl

/-- No register but CMD changes STATUS when it is written (R31, R257). -/
theorem status_of_writeReg {n v : Nat} (h : writeReg n v s = .next t) :
    t.regs.status = s.regs.status := by
  unfold writeReg at h
  split at h
  case h_1 | h_2 | h_4 => cases h; rfl
  case h_3 | h_5 | h_6 => obtain ⟨-, h⟩ := dutiful_eq_next.1 h; cases h; rfl
  case h_7 => cases h

/-- A write changes STATUS only if it is a command (R32, R70, R257). -/
theorem status_of_hostWrite {a : Target} {v : Nat} (h : runMove (hostWrite a v s) = .next t) :
    t.regs.status = s.regs.status ∨ (a = .reg 0 ∧ CommandValue v) := by
  unfold hostWrite at h
  split at h
  case h_1 =>
    by_cases hv : CommandValue v
    · exact .inr ⟨rfl, hv⟩
    · cases (exec_decodeCommand_of_not_command hv).symm.trans h; exact .inl rfl
  case h_2 => exact .inl (status_of_writeReg h)
  case h_3 =>
    rw [runMove_internal] at h
    split at h
    · obtain ⟨-, h⟩ := dutiful_eq_next.1 h; cases h; exact .inl rfl
    · cases h
  case h_4 => cases h

/-- A read leaves the host registers as they are (R83). -/
theorem status_of_hostRead {a : Target} (h : hostRead a s = .next t) :
    t.regs.status = s.regs.status := by rw [onlyRead_of_hostRead h]

/-- A move through the map that answers is the move on what the map has there (R81). -/
theorem onBus_eq_next {addr : Nat} {f : Target → Move} (h : runMove (onBus addr s f) = .next t) :
    ∃ a, resolve s addr = .ok a ∧ runMove (f a) = .next t := by
  cases hr : resolve s addr with
  | ok a => exact ⟨a, rfl, by rwa [onBus_of_resolve hr] at h⟩
  | error r => rw [onBus, hr] at h; cases h

/-- The moves of the host that can change STATUS: a command, by CMD's number or through the map, and the
reset (R250 to R252, R301). -/
def ChangesStatus (s : State) (m : HostMove) : Prop :=
  m = .reset ∨
    ∃ v, CommandValue v ∧
      (m = .write (.reg 0) v ∨ ∃ addr, m = .busWrite addr v ∧ resolve s addr = .ok (.reg 0))

/-- Every other move of the host leaves STATUS as it is. -/
theorem status_of_hostMove {m : HostMove} (h : runMove (hostMove m s) = .next t) :
    t.regs.status = s.regs.status ∨ ChangesStatus s m := by
  cases m with
  | write a v =>
    refine (status_of_hostWrite h).imp_right ?_
    rintro ⟨rfl, hv⟩
    exact .inr ⟨v, hv, .inl rfl⟩
  | read a => exact .inl (status_of_hostRead h)
  | busWrite addr v =>
    obtain ⟨a, hr, h⟩ := onBus_eq_next h
    refine (status_of_hostWrite h).imp_right ?_
    rintro ⟨rfl, hv⟩
    exact .inr ⟨v, hv, .inr ⟨addr, rfl, hr⟩⟩
  | busRead addr =>
    obtain ⟨a, -, h⟩ := onBus_eq_next h
    exact .inl (status_of_hostRead h)
  | run | await => cases h; exact .inl rfl
  | reset => exact .inr (.inl rfl)

/-- On its turn an engine that is not BUSY leaves STATUS as it is (R289). -/
theorem status_of_idle_engineTurn {e : State} (hturn : engineTurn s = some e)
    (hb : s.regs.status ≠ .busy) (h : step s = .next t) : t.regs.status = s.regs.status := by
  obtain ⟨ms, rfl⟩ := eq_setScript_of_engineTurn hturn
  rw [step_engine hturn, engineMove_idle (s := setScript ms s) hb] at h
  cases h; rfl

/-- Settles O33: in ERROR the engine does nothing, so the step that leaves it is a move of the host that
changes STATUS. -/
theorem errorLeftOnlyByTheHost : Obligations.ErrorLeftOnlyByTheHost := by
  intro s t herr h hne
  have hchange : t.regs.status ≠ s.regs.status := herr ▸ hne
  rcases turn_cases s with ⟨e, hturn, -⟩ | ⟨hnone, m, rest, hm⟩
  · exact absurd (status_of_idle_engineTurn hturn (by rw [herr]; decide) h) hchange
  · rw [step_host hnone hm] at h
    refine ⟨rest, ?_⟩
    rcases (status_of_hostMove h).resolve_left hchange with
      rfl | ⟨v, hv, rfl | ⟨addr, rfl, hr⟩⟩
    · exact .inl hm
    · exact .inr ⟨v, hv, .inl hm⟩
    · exact .inr ⟨v, hv, .inr ⟨addr, hm, hr⟩⟩

/-! ### A COMPRESS never gets there (R215, R290) -/

/-- The encoder leaves the host registers as they are, or ends in DONE with an OUT_LEN (R214). -/
theorem EncoderStep.regs (h : EncoderStep s t) :
    t.regs = s.regs ∨ ∃ n, t.regs = { s.regs with status := .done, outLen := n } := by
  cases h with
  | emitSeq => exact .inl (putCells_regs _ s)
  | @flush _ xs => exact .inr ⟨(putCells xs s).olen, by simp⟩
  | scanOn | scanEnd | lookup | verifyNone | verify | updateHit | updateMiss | extendOn | extendEnd
  | midIndexRun | midIndexSkip | advanceMatch | advanceLiteral => exact .inl rfl

/-- Settles O34: STATUS is BUSY as before the step, or DONE, and neither changes CAUSE. -/
theorem encoderNeverRaises : Obligations.EncoderNeverRaises := by
  intro s t hw he h
  rw [step_encoding hw he] at h
  obtain ⟨hbusy, -⟩ := he
  rcases (encoderStep_of_next h).regs with hregs | ⟨n, hregs⟩ <;> rw [hregs]
  · exact ⟨by rw [hbusy]; decide, rfl⟩
  · exact ⟨nofun, rfl⟩

end Sys2Proof.Machine
end

section
/-! PROOFS. Every operation ends (R313, R178, R222), and reset (R300, R301): each step of a running
operation either ends it or lowers a measure of the work left to it, so there are finitely many. -/

namespace Sys2Proof.Machine

variable {s t : State}

/-! ### Measures of the work left -/

/-- Three amounts of work, compared lexicographically, the first the most significant. -/
def workOf (a b c : Nat) : Nat ×ₗ Nat ×ₗ Nat := toLex (a, toLex (b, c))

theorem workOf_lt_iff {a b c a' b' c' : Nat} :
    workOf a b c < workOf a' b' c' ↔ a < a' ∨ a = a' ∧ (b < b' ∨ b = b' ∧ c < c') := by
  simp [workOf, Prod.Lex.toLex_lt_toLex]

/-- The operation has ended (R33). -/
def State.Ended (s : State) : Prop := s.regs.status = .done ∨ s.regs.status = .error

/-- The run from here comes to the end of the operation in finitely many steps. -/
def EventuallyEnds (s : State) : Prop := ∃ n t, reaches n s t ∧ t.Ended

/-- Where every step of a run either ends the operation or lowers the work left, the operation ends. -/
theorem eventuallyEnds_of_work_lt {Running : State → Prop} {work : State → Nat ×ₗ Nat ×ₗ Nat}
    (hstep : ∀ s, Running s →
      ∃ t, step s = .next t ∧ (t.Ended ∨ Running t ∧ work t < work s))
    (hs : Running s) : EventuallyEnds s := by
  induction hw : work s using WellFoundedLT.induction generalizing s with
  | ind w ih =>
    obtain ⟨u, hu, hend | ⟨hrun, hlt⟩⟩ := hstep s hs
    · exact ⟨1, u, reaches_one hu, hend⟩
    · obtain ⟨n, t, ht, hend⟩ := ih (work u) (hw ▸ hlt) hrun rfl
      exact ⟨n + 1, t, reaches_of_step hu ht, hend⟩

/-- Under the invariant, while the host waits, the engine steps on and keeps the invariant (R77). -/
theorem Inv.exists_step (h : Inv s) (hw : s.hostWaits) (ha : s.apart) :
    ∃ t, step s = .next t ∧ Inv t := by
  obtain ⟨t, ht⟩ := (engineStaysInBounds s s h (engineTurn_of_waits hw)).1 ha
  exact ⟨t, ht, stepKeepsTheInvariant s t h ht⟩

/-! ### A DECOMPRESS ends (R178) -/

/-- A bound on the phases that follow before the input cursor moves on: TOKEN and OFFSET move it or end
the operation. -/
def Phase.rank : Phase → Nat
  | .token | .offset => 0
  | .endCheck => 1
  | .litCopy | .matchCopy => 2
  | .litLen | .matchLen => 3

/-- LDEC is still to be entered. -/
def LdecLoop.rank : LdecLoop → Nat
  | .start => 1
  | .more | .finished => 0

/-- The work left to a DECOMPRESS: the input ahead, then the phases before the cursor moves, then the
bytes still to copy and the entry of LDEC. -/
def decWork (s : State) : Nat ×ₗ Nat ×ₗ Nat :=
  workOf (s.regs.inLen - s.dec.ip) s.dec.phase.rank (s.dec.left + s.lc.loop.rank)

/-- A step that reads input lowers the work, whatever it does to the other working registers. -/
theorem decWork_lt_of_ip (hregs : t.regs = s.regs) (hip : s.dec.ip < s.regs.inLen)
    (hlt : s.dec.ip < t.dec.ip) : decWork t < decWork s := by
  refine workOf_lt_iff.2 (.inl ?_)
  rw [hregs]
  omega

/-- A step to a phase nearer to the next read lowers the work, the cursor as it was. -/
theorem decWork_lt_of_phase (hregs : t.regs = s.regs) (hip : t.dec.ip = s.dec.ip)
    (hlt : t.dec.phase.rank < s.dec.phase.rank) : decWork t < decWork s := by
  refine workOf_lt_iff.2 (.inr ⟨?_, .inl hlt⟩)
  rw [hregs, hip]

/-- A step inside a phase that copies a byte or enters LDEC lowers the work. -/
theorem decWork_lt_of_left (hregs : t.regs = s.regs) (hip : t.dec.ip = s.dec.ip)
    (hp : t.dec.phase = s.dec.phase)
    (hlt : t.dec.left + t.lc.loop.rank < s.dec.left + s.lc.loop.rank) : decWork t < decWork s := by
  refine workOf_lt_iff.2 (.inr ⟨?_, .inr ⟨?_, hlt⟩⟩)
  · rw [hregs, hip]
  · rw [hp]

/-- The decoder ends the operation, or goes on with less work left. -/
theorem DecoderStep.ended_or_work_lt (h : DecoderStep s t) :
    t.Ended ∨ DecFrame s t ∧ decWork t < decWork s := by
  cases h with
  | raised | escapeOverflow | badOffset => exact .inl (.inr rfl)
  | done => exact .inl (.inl rfl)
  | token _ hip | escape _ _ hip =>
    exact .inr ⟨.registers s _ _, decWork_lt_of_ip rfl hip (Nat.lt_succ_self _)⟩
  | offset _ hip =>
    exact .inr ⟨.registers s _ _,
      decWork_lt_of_ip rfl (by omega) (Nat.lt_add_of_pos_right Nat.two_pos)⟩
  | literal _ _ hip =>
    exact .inr ⟨.putCells [_] s _, decWork_lt_of_ip rfl hip (Nat.lt_succ_self _)⟩
  | litLen hp | literalsDone hp | moreInput hp | matchLen hp | copyDone hp =>
    exact .inr ⟨.registers s _ _, decWork_lt_of_phase rfl rfl (by simp [hp, Phase.rank])⟩
  | enterLdec nib _ hl =>
    refine .inr ⟨.registers s _ _, decWork_lt_of_left rfl rfl rfl ?_⟩
    rw [hl, ldecEnter_lc]
    dsimp only
    split <;> exact Nat.lt_succ_self _
  | copyByte _ hleft =>
    exact .inr ⟨.putCells [_] s _,
      decWork_lt_of_left rfl rfl rfl (Nat.add_lt_add_right (Nat.sub_one_lt hleft) _)⟩

/-- A DECOMPRESS ends (R178). -/
theorem decompress_ends (h : Inv s) (hw : s.hostWaits) (hd : s.decoding) : EventuallyEnds s := by
  refine eventuallyEnds_of_work_lt (Running := fun u => Inv u ∧ u.hostWaits ∧ u.decoding)
    (work := decWork) ?_ ⟨h, hw, hd⟩
  rintro u ⟨h, hw, hd⟩
  have ⟨_, _, _, ha⟩ := hd
  obtain ⟨v, hv, hinv⟩ := h.exists_step hw ha
  have hstep := decoderStep_of_decoderMove ((step_decoding hw hd).symm.trans hv)
  exact ⟨v, hv, hstep.ended_or_work_lt.imp_right fun ⟨hf, hlt⟩ =>
    ⟨⟨hinv, hf.waits hw, hf.decoding hd⟩, hlt⟩⟩

/-! ### A COMPRESS ends (R222) -/

/-- How many input bytes are covered: a match counts from the moment its sequence is written. -/
def State.covered (s : State) : Nat :=
  match s.enc.step with
  | .midIndex | .advanceMatch => s.enc.cur + s.enc.mlen
  | _ => s.enc.cur

/-- A bound on the steps of the loop that follow before more input is covered, turns of EXTEND counted
once: EMIT_SEQ and ADVANCE_LITERAL cover some, FLUSH ends the operation. -/
def EncStep.rank : EncStep → Nat
  | .flush | .emitSeq | .advanceLiteral => 0
  | .extend => 1
  | .update => 2
  | .verify => 3
  | .lookup => 4
  | .scan => 5
  | .advanceMatch => 6
  | .midIndex => 7

/-- The work left to a COMPRESS: the input not covered, then the steps before more is, then the room
for a longer match. -/
def encWork (s : State) : Nat ×ₗ Nat ×ₗ Nat :=
  workOf (s.regs.inLen - s.covered) s.enc.step.rank (s.enc.mlimit - s.enc.mlen)

/-- A step that covers input lowers the work. -/
theorem encWork_lt_of_covered (hregs : t.regs = s.regs) (hlt : s.covered < t.covered)
    (hle : t.covered ≤ s.regs.inLen) : encWork t < encWork s := by
  refine workOf_lt_iff.2 (.inl ?_)
  rw [hregs]
  omega

/-- A step of the loop nearer to that lowers the work, the covered input as it was. -/
theorem encWork_lt_of_step (hregs : t.regs = s.regs) (hcov : t.covered = s.covered)
    (hlt : t.enc.step.rank < s.enc.step.rank) : encWork t < encWork s := by
  refine workOf_lt_iff.2 (.inr ⟨?_, .inl hlt⟩)
  rw [hregs, hcov]

/-- EXTEND lowers the work by the byte it adds to the match (R206). -/
theorem encWork_lt_of_mlen (hs : s.enc.step = .extend)
    (hlim : s.enc.cur + s.enc.mlen < s.enc.mlimit) :
    encWork { s with enc := { s.enc with mlen := s.enc.mlen + 1 } } < encWork s := by
  refine workOf_lt_iff.2 (.inr ⟨?_, .inr ⟨rfl, ?_⟩⟩)
  · simp only [State.covered, hs]
  · dsimp only; omega

/-- The encoder ends the operation, or goes on with less work left. -/
theorem EncoderStep.ended_or_work_lt (h : EncoderStep s t) (hok : EncOk s) :
    t.Ended ∨ EncFrame s t ∧ encWork t < encWork s := by
  have hlim := hok.mlimit_le
  have hst := hok.atStep
  cases h with
  | flush => exact .inl (.inl rfl)
  | scanOn hs | scanEnd hs | lookup hs | verifyNone hs | verify hs | updateHit hs | updateMiss hs
  | extendEnd hs | midIndexRun hs | midIndexSkip hs | advanceMatch hs =>
    exact .inr ⟨.registers s _ _,
      encWork_lt_of_step rfl (by simp [State.covered, hs]) (by simp [hs, EncStep.rank])⟩
  | extendOn hs _ hmore => exact .inr ⟨.registers s _ _, encWork_lt_of_mlen hs hmore⟩
  | @emitSeq _ hs _ xs =>
    obtain ⟨-, -, hfour, hgood⟩ := by simpa only [stepOk, hs] using hst
    have hend := hgood.end_le
    refine .inr ⟨.putCells xs s _ _ _, encWork_lt_of_covered (putCells_regs xs s) ?_ ?_⟩ <;>
      simp only [State.covered, hs] <;> omega
  | advanceLiteral hs =>
    obtain ⟨-, -, hcur⟩ := by simpa only [stepOk, hs] using hst
    refine .inr ⟨.registers s _ _, encWork_lt_of_covered rfl ?_ ?_⟩ <;>
      simp only [State.covered, hs] <;> omega

/-- A COMPRESS ends (R222). -/
theorem compress_ends (h : Inv s) (hw : s.hostWaits) (he : s.encoding) : EventuallyEnds s := by
  refine eventuallyEnds_of_work_lt (Running := fun u => Inv u ∧ u.hostWaits ∧ u.encoding)
    (work := encWork) ?_ ⟨h, hw, he⟩
  rintro u ⟨h, hw, he⟩
  have ⟨hb, hu, _, ha⟩ := he
  obtain ⟨v, hv, hinv⟩ := h.exists_step hw ha
  have hstep := encoderStep_of_next ((step_encoding hw he).symm.trans hv)
  exact ⟨v, hv, (hstep.ended_or_work_lt (h.enc hb hu)).imp_right fun ⟨hf, hlt⟩ =>
    ⟨⟨hinv, hf.waits hw, hf.encoding he⟩, hlt⟩⟩

/-- Settles O54: a running operation is a DECOMPRESS or a COMPRESS, and each lowers its measure at every
step that does not end it. -/
theorem everyOperationEnds : Obligations.EveryOperationEnds := by
  intro s h hw ha hb
  have hin := h.inFits hb
  cases hu : s.unit with
  | dec => exact decompress_ends h hw ⟨hb, hu, hin, ha⟩
  | enc => exact compress_ends h hw ⟨hb, hu, hin, ha⟩

/-! ### Reset (R300, R301) -/

/-- Reset is the host's move in every state, BUSY or not (R301; log 13). -/
theorem step_reset {rest : List HostMove} (h : s.host.script = .reset :: rest) :
    step s = .next (resetEvent (setScript rest s)) := by
  have hnone : engineTurn s = none := by rw [engineTurn, h]
  rw [step_host hnone h]
  rfl

/-- Settles O48: the reset values are 0, and reset gives them to the host registers of any state. -/
theorem resetClearsTheHostRegisters : Obligations.ResetClearsTheHostRegisters :=
  ⟨⟨rfl, rfl, rfl, rfl, rfl, rfl⟩, fun _ _ h => ⟨_, step_reset h, rfl, rfl⟩⟩

end Sys2Proof.Machine
end
